-- ==== Sys2Proof/Word.lean ====
section
/-! DEFINITION. The word types of the core: bytes, 32-bit words and 14-bit aperture offsets
(00_scope.md R16, R17; 20_memory.md R80, R89). -/

namespace Sys2Proof

/-- A byte, 0..255 (R16). -/
abbrev Byte := BitVec 8

/-- A 32-bit word: every register, every bus datum, every command word (R17, R80, R100). -/
abbrev Word := BitVec 32

/-- A byte offset into the 16 KiB aperture, 0x0000-0x3FFF (R60, R89). -/
abbrev Offset := BitVec 14

end Sys2Proof
end

