-- ==== Sys2Proof/Config.lean ====
section
/-! DEFINITION. What is fixed for one machine (the OPEN parameters of 92_eei_decisions.md) and the
free values: opaque constants, so that nothing can be proved about what the spec leaves
unspecified. -/

namespace Sys2Proof

/-- The block cipher behind the cipher port (R3, R14, R62): AES by key length, which is the spec's
default (D10), or a cipher of which only the laws of R14 are known. Log 6. -/
inductive Config.Cipher where
  /-- AES-128/192/256 by key length (Machine/Aes.lean). -/
  | aes
  /-- Any other block cipher: `Config.externalCipher id`. -/
  | external (id : Nat)
deriving DecidableEq, Repr

/-- The build parameters a model takes as an argument (92_eei_decisions.md, OPEN parameters). Log 5. -/
structure Config.Params where
  /-- BUF_BYTES, the capacity of IBUF and of OBUF (R12). -/
  bufBytes : Nat
  /-- B, the cipher block size in bytes (R9). -/
  blockBytes : Nat
  /-- KEY_SIZES, the supported key lengths in bytes (R10). -/
  keySizes : List Nat
  /-- the cipher pair `Enc`, `Dec` (R14). -/
  cipher : Config.Cipher
deriving DecidableEq, Repr

/-- The defaults of 92_eei_decisions.md: BUF_BYTES = 4096, B = 16, KEY_SIZES = 16, 24, 32, AES. -/
def Config.Params.standard : Config.Params :=
  ⟨4096, 16, [16, 24, 32], .aes⟩

/-- CORE_BASE, the platform's address of the aperture: not fixed by the spec (R89). -/
opaque Config.coreBase : Nat

/-- The platform address of an aperture offset (R89: "every offset here is relative to it"). -/
def Config.platformAddress (off : Offset) : Nat := Config.coreBase + off.toNat

/-- A free value: byte `i` of the buffer contents drawn by draw number `draw`
(93_implementation_defined.md I1-I4). Log 2. -/
opaque Config.freeByte (draw i : Nat) : Byte

/-- A free value: the word an OBUF read returns while BUSY or LOCKED, drawn afresh by draw number
`draw` (93_implementation_defined.md I5). Log 2. -/
opaque Config.freeWord (draw : Nat) : Word

/-- An arbitrary block cipher on blocks of `n` bytes: for each key a permutation, so law (a) of R14
holds and nothing else is known (93_implementation_defined.md I8). -/
opaque Config.externalCipher (id n : Nat) (key : List Byte) : Equiv.Perm (Vector Byte n)

end Sys2Proof
end

