-- ==== Sys2Proof/Syntax.lean ====
section
/-! DEFINITION. The instruction set: the five commands of 30_encoding.md R101, one constructor per row
of spec/opcode_table.json. No command word carries an operand or immediate (R104). -/

namespace Sys2Proof

/-- The commands a host writes to CMD (R2, R101). -/
inductive Instr where
  /-- PAD: append PKCS#7 padding (R122). -/
  | pad
  /-- UNPAD: check and remove PKCS#7 padding (R130). -/
  | unpad
  /-- ENCRYPT: pad, draw an IV, CBC-encrypt, frame (R145). -/
  | encrypt
  /-- DECRYPT: check the framing, CBC-decrypt, unpad (R150). -/
  | decrypt
  /-- RANDHEX: n random bytes as 2n uppercase hex characters (R175). -/
  | randhex
deriving DecidableEq, Repr

end Sys2Proof
end

