-- ==== Sys2Proof/WellFormed.lean ====
section
/-! DEFINITION. Well-formedness: of an instruction (no command has a field, so every one is
well-formed, 30_encoding.md R104) and of the build parameters (the constraints of
92_eei_decisions.md's table of OPEN parameters). -/

namespace Sys2Proof

/-- R104: a command carries no operand or immediate, so there is nothing to check. -/
def Instr.wf : Instr → Bool
  | .pad => true
  | .unpad => true
  | .encrypt => true
  | .decrypt => true
  | .randhex => true

namespace Config.Params

/-- BUF_BYTES "must be a multiple of 16 with `64 <= BUF_BYTES <= 4096`" (R12). -/
def bufOk (p : Params) : Bool :=
  p.bufBytes % 16 == 0 && decide (64 ≤ p.bufBytes) && decide (p.bufBytes ≤ 4096)

/-- `1 <= B <= 255` (R9). -/
def blockOk (p : Params) : Bool :=
  decide (1 ≤ p.blockBytes) && decide (p.blockBytes ≤ 255)

/-- KEY_SIZES is "a non-empty subset of {1, ..., 32}" (R10). -/
def keysOk (p : Params) : Bool :=
  !p.keySizes.isEmpty && p.keySizes.all fun n => decide (1 ≤ n) && decide (n ≤ 32)

/-- AES has a 16-byte block and keys of 16, 24 or 32 bytes (R9, R14, G1, G2). -/
def cipherOk (p : Params) : Bool :=
  match p.cipher with
  | .aes => p.blockBytes == 16 && p.keySizes.all fun n => n == 16 || n == 24 || n == 32
  | .external _ => true

/-- The parameters are those of a core the spec describes. -/
def wf (p : Params) : Bool :=
  p.bufOk && p.blockOk && p.keysOk && p.cipherOk

end Config.Params

end Sys2Proof
end

