-- ==== Sys2Proof/Decode.lean ====
section
/-! DEFINITION. The command encoding CMD32 (30_encoding.md R100-R103): the decoder, total on all 2^32
words and rejecting by name, and after it the encoder. -/

namespace Sys2Proof

/-- Why a word is ILLEGAL (R102). Both reasons have the one behaviour of R103. -/
inductive IllegalWord where
  /-- RSV, bits 31:8, is not zero. -/
  | reservedBits
  /-- OPC, bits 7:0, is 0x00 or 0x06 to 0xFF. -/
  | unknownOpcode
deriving DecidableEq, Repr

/-- OPC, bits 7:0 of the command word (R41, R100). -/
def opcField (w : Word) : BitVec 8 := w.extractLsb' 0 8

/-- RSV, bits 31:8 of the command word (R41, R100). -/
def rsvField (w : Word) : BitVec 24 := w.extractLsb' 8 24

/-- The opcode map of R101 on the OPC field. -/
def decodeOpc (opc : BitVec 8) : Option Instr :=
  if opc = 0x01#8 then some .pad
  else if opc = 0x02#8 then some .unpad
  else if opc = 0x03#8 then some .encrypt
  else if opc = 0x04#8 then some .decrypt
  else if opc = 0x05#8 then some .randhex
  else none

/-- `decode(w)` of R102. -/
def decode (w : Word) : Except IllegalWord Instr :=
  if rsvField w ≠ 0 then .error .reservedBits
  else
    match decodeOpc (opcField w) with
    | some i => .ok i
    | none => .error .unknownOpcode

/-- The opcode of a command (the OPC column of R101). -/
def opcodeOf : Instr → BitVec 8
  | .pad => 0x01#8
  | .unpad => 0x02#8
  | .encrypt => 0x03#8
  | .decrypt => 0x04#8
  | .randhex => 0x05#8

/-- The CMD32 word of a command: RSV zero above OPC (R100). -/
def encode (i : Instr) : Word := 0#24 ++ opcodeOf i

/-- What the decoder reads from a table row's word. A CMD32 command is one 32-bit word written whole to
CMD (R100), so bit k of the table is bit k of the word; `nbits` is 32 on every row, and a number wider
than a command word is no command word. -/
def decodeTableWord (nbits w : Nat) : Option Instr :=
  if nbits ≤ 32 ∧ w < 2 ^ nbits then (decode (BitVec.ofNat 32 w)).toOption else none

end Sys2Proof
end

