-- ==== Sys2Proof/Machine/State.lean ====
section
/-! DEFINITION. The state of the core as plain data (10_state.md R30), the model's own fields (the
environment's inputs, the build parameters, the free-value counter), what can stop a step, and the
state right after reset (70_reset_and_hazards.md R231). -/

namespace Sys2Proof.Machine

/-- `fsm` (R33). -/
inductive Fsm where
  /-- no command is running and the core is not locked -/
  | idle
  /-- a command has been accepted and has not completed -/
  | busy
  /-- an entropy failure has occurred since reset -/
  | locked
deriving DecidableEq, Repr

/-- The error codes of 60_exceptions.md R191. Codes 10-15 are reserved and never produced, so they are
not in the type (93_implementation_defined.md I13). -/
inductive ErrCode where
  | success
  | invalidBlockSize
  | invalidPadding
  | invalidKeySize
  | malformedCiphertext
  | invalidCiphertextLength
  | entropySourceFailure
  | insufficientEntropy
  | lengthOutOfRange
  | illegalCommand
deriving DecidableEq, Repr

/-- A byte array's known bytes: (index, byte) pairs with strictly rising indices. An index that is not
listed has not been written. -/
abbrev Memory := List Host.Cell

/-- IBUF or OBUF (R50, R51): the bytes written, and the number of the draw that supplies every byte
the spec leaves unspecified (log 2, log 3, log 4). -/
structure Buffer where
  cells : Memory
  fill : Nat
deriving DecidableEq, Repr

/-- The command snapshot `snap` (R34). -/
structure Snapshot where
  /-- `snap.cmd`, the command word -/
  cmd : Word
  /-- `snap.L`, SRC_LEN -/
  len : Word
  /-- `snap.bs`, BLKSZ -/
  bs : Word
  /-- `snap.klen`, KEY_LEN -/
  klen : Word
  /-- `snap.key`, the 32 bytes of KEYB -/
  key : Vector Byte 32
  /-- `snap.in`, the bytes `IBUF[0 : min(snap.L, BUF_BYTES)]` -/
  input : List Byte
deriving DecidableEq, Repr

/-- The snapshot at reset: "empty, not read in IDLE" (R231; log 12). -/
def Snapshot.empty : Snapshot := ⟨0, 0, 0, 0, Vector.replicate 32 0, []⟩

/-- The entropy transaction state `ent` (R35), with the bytes delivered so far while it is pending
(42_random.md R171; log 7). -/
inductive Ent where
  /-- no request is outstanding -/
  | none
  /-- PENDING(n): `n` bytes asked for, `got` delivered in order, no answer yet -/
  | pending (n : Nat) (got : List Byte)
  /-- ANSWERED(s) -/
  | answered (s : List Byte)
deriving DecidableEq, Repr

/-- What the host port returns for an access (R60): OKAY with 32 bits of read data, OKAY to a write,
or ERROR without data (20_memory.md R81). -/
inductive Reply where
  | data (w : Word)
  | okay
  | error
deriving DecidableEq, Repr

/-- One line of a host program (30_encoding.md R106): a bus transaction of the host port (R60), or a
POLL, which repeats a read until it is met. `size` is the access size in bits. -/
inductive HostOp where
  | read (off : Offset) (size : Nat)
  | write (off : Offset) (size : Nat) (v : Word)
  | poll (off : Offset) (mask value : Word)
deriving DecidableEq, Repr

/-- Which agent moves next (00_scope.md R24; log 1), with what the outside presents. -/
inductive Turn where
  /-- the host's next access is served -/
  | host
  /-- the core agent moves: a BUSY core runs its command -/
  | core
  /-- one clock cycle of the entropy port: ENT_VALID, ENT_DATA, ENT_FAIL (R61) -/
  | entropy (valid : Bool) (data : Byte) (fail : Bool)
  /-- RST_N is pulsed (R230) -/
  | reset
  /-- power is applied, and with it reset (R232) -/
  | powerOn
deriving DecidableEq, Repr

/-- The machine. The fields from `fsm` to `ent` are the state of one core (R30), `reply` is what its
host port last returned; `cfg`, `host`, `turns` and `draws` are the model's own. -/
structure State where
  /-- the build parameters: no step changes them (log 5) -/
  cfg : Config.Params
  /-- the FSM state (R33); STATUS.BUSY and STATUS.FATAL are views of it (R42) -/
  fsm : Fsm
  /-- CTRL.IRQ_EN (R40) -/
  irqEn : Bool
  /-- STATUS.DONE (R42) -/
  done : Bool
  /-- STATUS.WBUSY (R42) -/
  wbusy : Bool
  /-- STATUS.ERR (R42, R191) -/
  err : ErrCode
  /-- BLKSZ (R44) -/
  blksz : Word
  /-- SRC_LEN (R45) -/
  srcLen : Word
  /-- DST_LEN (R46) -/
  dstLen : Word
  /-- KEY_LEN (R48) -/
  keyLen : Word
  /-- KEYB, written through KEY0..KEY7 (R47) -/
  keyb : Vector Byte 32
  /-- IBUF (R50) -/
  ibuf : Buffer
  /-- OBUF (R51) -/
  obuf : Buffer
  /-- the command snapshot (R34) -/
  snap : Snapshot
  /-- the entropy transaction (R35) -/
  ent : Ent
  /-- the host port's reply to the access served last; none before the first (R60; log 9). An ERROR here is
  the host program's fault (R81) -/
  reply : Option Reply
  /-- the host's remaining accesses, in the order the port receives them (R91) -/
  host : List HostOp
  /-- which agent moves next, and after it (log 1) -/
  turns : List Turn
  /-- how many free values have been drawn (log 2) -/
  draws : Nat
deriving DecidableEq, Repr

/-- What stops a step with a fault: nothing. "The core has no traps" (60_exceptions.md R200), an error is
a completion with a code, and a bus ERROR stops the host's program and not the core (20_memory.md R81;
`State.hostFaulted`). The type has no constructor, so that no step can fault. -/
inductive Fault
deriving DecidableEq, Repr

/-- What stops a step with a refusal. -/
inductive Refusal where
  /-- Raised only by an arm of `exec` whose instruction has no meaning yet (safe: the run stops). No arm
  raises it: all five commands have their meaning. -/
  | notModelled (mnemonic : String)
deriving DecidableEq, Repr

/-- The core right after power-on and reset (R231, R232), with the default build parameters, no host
access waiting and no turn arranged: it waits in IDLE for a CMD write (R234). IBUF and OBUF list no
byte: each of their bytes is a free value (log 2, log 3, log 4). -/
def State.reset : State where
  cfg := Config.Params.standard
  fsm := .idle
  irqEn := false
  done := false
  wbusy := false
  err := .success
  blksz := 0x00000010#32
  srcLen := 0x00000000#32
  dstLen := 0x00000000#32
  keyLen := 0x00000000#32
  keyb := Vector.replicate 32 0x00#8
  ibuf := ⟨[], 0⟩
  obuf := ⟨[], 1⟩
  snap := .empty
  ent := .none
  reply := .none
  host := []
  turns := []
  draws := 2

end Sys2Proof.Machine
end

