-- ==== Sys2Proof/Machine/Operands.lean ====
section
/-! DEFINITION. The operand forms of the commands (30_encoding.md R104, R105), the byte packing of host
words (20_memory.md R83) and the block helpers (R85), the pad length (40_padding.md R120) and the hex
digits (42_random.md R174). -/

namespace Sys2Proof.Machine

/-- An outcome of one step of this machine. -/
abbrev Outcome := Host.Outcome State Fault Refusal

/-- The little-endian packing of four bytes (R83). -/
def packWord (b0 b1 b2 b3 : Byte) : Word := b3 ++ b2 ++ b1 ++ b0

/-- `word[8i+7 : 8i]`, byte `i` of a word (R83). -/
def wordByte (w : Word) (i : Nat) : Byte := w.extractLsb' (8 * i) 8

/-- `L` and RANDHEX's `n`: SRC_LEN as an unsigned natural (R105). -/
def Snapshot.length (snap : Snapshot) : Nat := snap.len.toNat

/-- `s = sint32(snap.bs)`, BLKSZ read signed (R105, R121). -/
def Snapshot.blockSize (snap : Snapshot) : Int := snap.bs.toInt

/-- KEY_LEN as an unsigned natural (R105). -/
def Snapshot.keyLength (snap : Snapshot) : Nat := snap.klen.toNat

/-- `K = snap.key[0 : snap.klen]` (R105, R143). -/
def Snapshot.selectedKey (snap : Snapshot) : List Byte := snap.key.toList.take snap.keyLength

/-- `snap.in[0:L]`, the input bytes of a command (R104). -/
def Snapshot.data (snap : Snapshot) : List Byte := snap.input.take snap.length

/-- The legal block sizes of PAD and UNPAD are 1 to 255 (R121). -/
def legalBlockSize (s : Int) : Bool := decide (0 < s) && decide (s ≤ 255)

/-- `padLen(L, s) = s - (L mod s)` (R120). -/
def padLen (len s : Nat) : Nat := s - len % s

/-- `rep(n, n)`: the padding bytes (R16, R122). -/
def padBytes (n : Nat) : List Byte := List.replicate n (BitVec.ofNat 8 n)

/-- `data || rep(n, n)` with `n = padLen(len(data), s)` (R122). -/
def padded (s : Nat) (data : List Byte) : List Byte := data ++ padBytes (padLen data.length s)

/-- Bytewise exclusive-or (R16, R85). -/
def xorBytes (a b : List Byte) : List Byte := List.zipWith (· ^^^ ·) a b

/-- The first `k` blocks of `b` bytes of a byte string (R85). -/
def blocks (b : Nat) : Nat → List Byte → List (List Byte)
  | 0, _ => []
  | k + 1, p => p.take b :: blocks b k (p.drop b)

/-- `hexU(v)`, the uppercase hex digit of a 4-bit value (R174). -/
def hexU (v : BitVec 4) : Byte :=
  if v.toNat ≤ 9 then 0x30#8 + v.setWidth 8 else 0x41#8 + (v.setWidth 8 - 10#8)

/-- The two characters of a byte, high nibble first (R174). -/
def hexByte (x : Byte) : List Byte := [hexU (x.extractLsb' 4 4), hexU (x.extractLsb' 0 4)]

/-- The `2n` characters of `n` bytes (R175). -/
def hexString (r : List Byte) : List Byte := r.flatMap hexByte

end Sys2Proof.Machine
end

