-- ==== Sys2Proof/Machine/Flags.lean ====
section
/-! DEFINITION. Every flag, status and port output that is computed from the state: ID, CTRL and STATUS
as words (10_state.md R39, R40, R42), the write-one-to-clear bits (R43), IRQ (R52), ENT_REQ and ENT_LEN
(R61; 42_random.md R171), and the error code numbers (60_exceptions.md R191). -/

namespace Sys2Proof.Machine

/-- The number of an error code (R191). -/
def ErrCode.code : ErrCode → BitVec 4
  | .success => 0#4
  | .invalidBlockSize => 1#4
  | .invalidPadding => 2#4
  | .invalidKeySize => 3#4
  | .malformedCiphertext => 4#4
  | .invalidCiphertextLength => 5#4
  | .entropySourceFailure => 6#4
  | .insufficientEntropy => 7#4
  | .lengthOutOfRange => 8#4
  | .illegalCommand => 9#4

/-- The two fatal codes (R191, R199). -/
def ErrCode.fatal : ErrCode → Bool
  | .entropySourceFailure => true
  | .insufficientEntropy => true
  | .success => false
  | .invalidBlockSize => false
  | .invalidPadding => false
  | .invalidKeySize => false
  | .malformedCiphertext => false
  | .invalidCiphertextLength => false
  | .lengthOutOfRange => false
  | .illegalCommand => false

/-- ID: MAGIC 0x5043, MAJOR 0x07, MINOR 0x00 (R39). -/
def idWord : Word := 0x5043#16 ++ 0x07#8 ++ 0x00#8

namespace State

/-- STATUS.BUSY: 1 exactly while `fsm = BUSY` (R42). -/
def busy (s : State) : Bool := s.fsm == .busy

/-- STATUS.FATAL: 1 exactly while `fsm = LOCKED` (R42). -/
def fatal (s : State) : Bool := s.fsm == .locked

/-- CTRL as read: IRQ_EN in bit 0, the rest reads 0 (R40, R49). -/
def ctrlWord (s : State) : Word := 0#31 ++ BitVec.ofBool s.irqEn

/-- STATUS as read: ERR in bits 11:8, WBUSY, FATAL, DONE, BUSY in bits 3:0, the rest reads 0 (R42, R49). -/
def statusWord (s : State) : Word :=
  0#20 ++ s.err.code ++ 0#4 ++ BitVec.ofBool s.wbusy ++ BitVec.ofBool s.fatal
    ++ BitVec.ofBool s.done ++ BitVec.ofBool s.busy

/-- A host write to CTRL: only IRQ_EN is stored (R40, R49). -/
def writeCtrl (v : Word) (s : State) : State := { s with irqEn := v.getLsbD 0 }

/-- A host write to STATUS clears DONE where bit 1 is 1 and WBUSY where bit 3 is 1, nothing else (R43). -/
def writeStatus (v : Word) (s : State) : State :=
  { s with done := s.done && !v.getLsbD 1, wbusy := s.wbusy && !v.getLsbD 3 }

/-- The IRQ output: `CTRL.IRQ_EN AND STATUS.DONE` (R52, R203). -/
def irq (s : State) : Bool := s.irqEn && s.done

end State

/-- ENT_REQ: held at 1 until the transaction ends (R171). -/
def Ent.req : Ent → Bool
  | .none => false
  | .pending _ _ => true
  | .answered _ => false

/-- ENT_LEN: the number of bytes asked for, held while ENT_REQ is (R61, R171). While ENT_REQ is 0, at
reset included, the spec gives the signal no value, and the model gives it none (DESIGN CHOICE, log 20). -/
def Ent.len : Ent → Option (BitVec 16)
  | .none => Option.none
  | .pending n _ => some (BitVec.ofNat 16 n)
  | .answered _ => Option.none

end Sys2Proof.Machine
end

