-- ==== Sys2Proof/Machine/Ops.lean ====
section
/-! DEFINITION. The named operations over memory, buffers and the whole state that everything else
calls: memory in canonical form, acceptance (10_state.md R36), the completions (60_exceptions.md R196,
R197, R199), the entropy wait (42_random.md R171, R175; 41_cbc.md R145) and reset
(70_reset_and_hazards.md R230-R233). -/

namespace Sys2Proof.Machine

/-! ## Memory -/

/-- What an index that is not listed reads as: no value, it has not been written (log 11). -/
def Memory.unlisted : Option Byte := none

/-- Read one byte. -/
def Memory.read : Memory → Nat → Option Byte
  | [], _ => Memory.unlisted
  | (b, w) :: m, a => if a = b then some w else Memory.read m a

/-- Write one byte, keeping the indices strictly rising. -/
def Memory.write : Memory → Nat → Byte → Memory
  | [], a, v => [(a, v)]
  | (b, w) :: m, a, v =>
    if a < b then (a, v) :: (b, w) :: m
    else if a = b then (a, v) :: m
    else (b, w) :: Memory.write m a v

/-- The bytes of a string at indices `a`, `a + 1`, ... in increasing order (20_memory.md R84). -/
def Memory.ofBytes : Nat → List Byte → Memory
  | _, [] => []
  | a, v :: vs => (a, v) :: Memory.ofBytes (a + 1) vs

/-- The canonical form: indices strictly rising. No entry can equal what an unlisted index reads as,
since that is no value. -/
abbrev Memory.wf (m : Memory) : Prop := m.Pairwise fun p q => p.1 < q.1

/-- Every listed index lies below the capacity. -/
abbrev Memory.below (m : Memory) (cap : Nat) : Prop := ∀ p ∈ m, p.1 < cap

/-! ## Buffers -/

/-- A byte of a buffer: the byte written, else the free value of the buffer's draw (R50, R51). -/
def Buffer.byte (b : Buffer) (a : Nat) : Byte :=
  match b.cells.read a with
  | some v => v
  | none => Config.freeByte b.fill a

/-- `MemRead(buf, 0, n)`: the first `n` bytes (R18). -/
def Buffer.bytes (b : Buffer) (n : Nat) : List Byte := (List.range n).map b.byte

/-- The word at index `a` of a buffer, little-endian (R83). -/
def Buffer.word (b : Buffer) (a : Nat) : Word :=
  packWord (b.byte a) (b.byte (a + 1)) (b.byte (a + 2)) (b.byte (a + 3))

/-- Store the four bytes of a word at index `a`, little-endian (R83). -/
def Buffer.storeWord (b : Buffer) (a : Nat) (v : Word) : Buffer :=
  { b with
    cells := (((b.cells.write a (wordByte v 0)).write (a + 1) (wordByte v 1)).write
      (a + 2) (wordByte v 2)).write (a + 3) (wordByte v 3) }

/-- A buffer whose first bytes are `out` and whose other bytes are unspecified: free values of the
given draw (R196). -/
def Buffer.holding (out : List Byte) (draw : Nat) : Buffer := ⟨Memory.ofBytes 0 out, draw⟩

/-- The canonical form of a buffer of `cap` bytes. -/
abbrev Buffer.wf (b : Buffer) (cap : Nat) : Prop := b.cells.wf ∧ b.cells.below cap

/-! ## Acceptance -/

namespace State

/-- The snapshot an acceptance of command word `w` takes (R34, R36). -/
def takeSnapshot (w : Word) (s : State) : Snapshot where
  cmd := w
  len := s.srcLen
  bs := s.blksz
  klen := s.keyLen
  key := s.keyb
  input := s.ibuf.bytes (min s.srcLen.toNat s.cfg.bufBytes)

/-- Acceptance of command word `w` (R36). -/
def accept (w : Word) (s : State) : State :=
  { s with
    fsm := .busy
    done := false
    err := .success
    dstLen := 0
    snap := s.takeSnapshot w }

/-- A write dropped because `fsm` is BUSY or LOCKED sets WBUSY and nothing else (R240). -/
def dropWrite (s : State) : State := { s with wbusy := true }

/-! ## Completion -/

/-- What the three completions share, one atomic step (R196, R197, R199): the result string goes to the
front of OBUF and every other byte of OBUF becomes unspecified; DST_LEN, ERR, DONE, `fsm` and `ent`
are written. -/
def finish (after : Fsm) (code : ErrCode) (out : List Byte) (s : State) : State :=
  { s with
    obuf := .holding out s.draws
    draws := s.draws + 1
    dstLen := BitVec.ofNat 32 out.length
    err := code
    done := true
    fsm := after
    ent := .none }

/-- The success completion `complete(0, out)` (R196). -/
def completeSuccess (out : List Byte) (s : State) : State := s.finish .idle .success out

/-- The error completion (R197). -/
def completeError (code : ErrCode) (s : State) : State := s.finish .idle code []

/-- The fatal completion, which locks the core (R199). -/
def completeFatal (code : ErrCode) (s : State) : State := s.finish .locked code []

/-- The core asks the entropy source for `n` bytes: `ent` becomes PENDING(n) (R35, R171). -/
def requestEntropy (n : Nat) (s : State) : State := { s with ent := .pending n [] }

/-! ## Reset -/

/-- Reset (R230, R231, R233): the reset values, a running command abandoned without completion, the
entropy request withdrawn; IBUF is kept, OBUF is unspecified afterwards (R232, I4; log 4). The host's
waiting accesses, its last reply and the turns are not the core's. -/
def resetCore (s : State) : State :=
  { s with
    fsm := .idle
    irqEn := false
    done := false
    wbusy := false
    err := .success
    blksz := 0x00000010#32
    srcLen := 0x00000000#32
    dstLen := 0x00000000#32
    keyLen := 0x00000000#32
    keyb := Vector.replicate 32 0x00#8
    obuf := .holding [] s.draws
    draws := s.draws + 1
    snap := .empty
    ent := .none }

/-- Power-on: reset, and every byte of IBUF unspecified too (R232; log 10). -/
def powerOn (s : State) : State :=
  { s.resetCore with ibuf := .holding [] (s.draws + 1), draws := s.draws + 2 }

end State

/-! ## How a command ends -/

/-- A command whose outcome is known without entropy ends: with success and a result string, or with
the error completion of the first failing check (R19, R190, R195). -/
def conclude (result : Except ErrCode (List Byte)) (s : State) : Outcome :=
  match result with
  | .ok out => .next (s.completeSuccess out)
  | .error code => .next (s.completeError code)

/-- The draw of `n` bytes, which is always the last check (R194): a command without a request makes one
and waits; while it is pending the completion step is not enabled and nothing changes (R35, R247); an
answer of fewer bytes is fatal with code `short` and the bytes are discarded (R172); a full answer gives
the result `use r`. -/
def withDraw (n : Nat) (short : ErrCode) (use : List Byte → List Byte) (s : State) : Outcome :=
  match s.ent with
  | .none => .next (s.requestEntropy n)
  | .pending _ _ => .next s
  | .answered r =>
    if r.length < n then .next (s.completeFatal short) else .next (s.completeSuccess (use r))

end Sys2Proof.Machine
end

