-- ==== Sys2Proof/Machine/Bus.lean ====
section
/-! DEFINITION. The host port: the address map (10_state.md R38), reads and writes of every register and
window (R39-R51; 20_memory.md R80-R83, R88), the drop logic (70_reset_and_hazards.md R240, R241), the
host program's fault (20_memory.md R81) and the host's turn (R91; 30_encoding.md R106). -/

namespace Sys2Proof.Machine

/-- A mapped location (R38). -/
inductive Place where
  | id | ctrl | cmd | status | blksz | srcLen | dstLen | keyLen
  /-- KEYk -/
  | key (k : Nat)
  /-- the IBUF window at byte index `a` -/
  | ibuf (a : Nat)
  /-- the OBUF window at byte index `a` -/
  | obuf (a : Nat)
deriving DecidableEq, Repr

/-- The address map of R38 on word-aligned offsets; `none` is unmapped. -/
def placeOf (bufBytes off : Nat) : Option Place :=
  if off = 0x000 then some .id
  else if off = 0x004 then some .ctrl
  else if off = 0x008 then some .cmd
  else if off = 0x00C then some .status
  else if off = 0x010 then some .blksz
  else if off = 0x014 then some .srcLen
  else if off = 0x018 then some .dstLen
  else if off = 0x01C then some .keyLen
  else if 0x020 ≤ off ∧ off < 0x040 then some (.key ((off - 0x020) / 4))
  else if 0x1000 ≤ off ∧ off < 0x1000 + bufBytes then some (.ibuf (off - 0x1000))
  else if 0x2000 ≤ off ∧ off < 0x2000 + bufBytes then some (.obuf (off - 0x2000))
  else none

/-- Which location an access reaches: none where its size is not 32 bits, its offset is not a multiple
of 4 (R81) or its offset is unmapped (R82). -/
def decodeAccess (bufBytes : Nat) (off : Offset) (size : Nat) : Option Place :=
  if size = 32 ∧ off.toNat % 4 = 0 then placeOf bufBytes off.toNat else none

/-- Store a word into KEYk, little-endian (R47, R83). -/
def storeKey (keyb : Vector Byte 32) (k : Nat) (v : Word) : Vector Byte 32 :=
  (((keyb.setIfInBounds (4 * k) (wordByte v 0)).setIfInBounds (4 * k + 1) (wordByte v 1)).setIfInBounds
    (4 * k + 2) (wordByte v 2)).setIfInBounds (4 * k + 3) (wordByte v 3)

namespace State

/-- The word a read of a location returns (R39-R51). An OBUF read while BUSY or LOCKED returns a free
value (R241, I5); write-only registers read 0 (R49). -/
def readPlace (p : Place) (s : State) : Word :=
  match p with
  | .id => idWord
  | .ctrl => s.ctrlWord
  | .cmd => 0
  | .status => s.statusWord
  | .blksz => s.blksz
  | .srcLen => s.srcLen
  | .dstLen => s.dstLen
  | .keyLen => s.keyLen
  | .key _ => 0
  | .ibuf a => s.ibuf.word a
  | .obuf a => if s.fsm = .idle then s.obuf.word a else Config.freeWord s.draws

/-- The free values a read of a location takes: one for an OBUF read while BUSY or LOCKED, "drawn
afresh at each read" (I5), else none. -/
def readDraws (p : Place) (s : State) : Nat :=
  match p with
  | .obuf _ => if s.fsm = .idle then 0 else 1
  | .id => 0
  | .ctrl => 0
  | .cmd => 0
  | .status => 0
  | .blksz => 0
  | .srcLen => 0
  | .dstLen => 0
  | .keyLen => 0
  | .key _ => 0
  | .ibuf _ => 0

/-- A write that is performed in IDLE and dropped in BUSY and LOCKED (R240). -/
def whenIdle (store : State → State) (s : State) : State :=
  if s.fsm = .idle then store s else s.dropWrite

/-- A write to a location: read-only ones ignore it (R49), CTRL and STATUS are written in every state
(R40, R43), the others only in IDLE (R240); a write to CMD in IDLE is an acceptance (R36). -/
def writePlace (p : Place) (v : Word) (s : State) : State :=
  match p with
  | .id => s
  | .ctrl => s.writeCtrl v
  | .cmd => s.whenIdle fun t => t.accept v
  | .status => s.writeStatus v
  | .blksz => s.whenIdle fun t => { t with blksz := v }
  | .srcLen => s.whenIdle fun t => { t with srcLen := v }
  | .dstLen => s
  | .keyLen => s.whenIdle fun t => { t with keyLen := v }
  | .key k => s.whenIdle fun t => { t with keyb := storeKey t.keyb k v }
  | .ibuf a => s.whenIdle fun t => { t with ibuf := t.ibuf.storeWord a v }
  | .obuf _ => s

/-- Put a reply on the host port. -/
def answer (r : Reply) (s : State) : State := { s with reply := some r }

/-- `BusRead(off)` (R80): data, or ERROR without effect (R81, R82). -/
def busRead (off : Offset) (size : Nat) (s : State) : State :=
  match decodeAccess s.cfg.bufBytes off size with
  | none => s.answer .error
  | some p => { s with reply := some (.data (s.readPlace p)), draws := s.draws + s.readDraws p }

/-- `BusWrite(off, v)` (R80): OKAY, or ERROR without effect (R81, R82). -/
def busWrite (off : Offset) (size : Nat) (v : Word) (s : State) : State :=
  match decodeAccess s.cfg.bufBytes off size with
  | none => s.answer .error
  | some p => (s.writePlace p v).answer .okay

/-- Whether a POLL goes on after a reply: only where it was data that is not the value awaited (R106).
An ERROR reply ends it with the program (R81; `hostFaulted`). -/
def pollGoesOn (mask value : Word) (r : Option Reply) : Bool :=
  match r with
  | some (.data w) => decide (w &&& mask ≠ value)
  | some .okay => false
  | some .error => false
  | none => false

/-- The host's program has faulted: its last access was answered ERROR (R81). Nothing undoes that: only
an access changes the reply, and a faulted program makes none (log 9). -/
def hostFaulted (s : State) : Bool := s.reply == some .error

/-- The port serves the host's next access whole before any other (R91). A POLL whose condition is not
met stays first (R106). With no access waiting nothing happens. -/
def serveAccess (s : State) : State :=
  match s.host with
  | [] => s
  | .read off size :: rest => { s with host := rest }.busRead off size
  | .write off size v :: rest => { s with host := rest }.busWrite off size v
  | .poll off mask value :: rest =>
    let t := s.busRead off 32
    if pollGoesOn mask value t.reply then t else { t with host := rest }

/-- The host's turn. An ERROR reply has stopped the host agent, not the core (R81, and I16 of
93_implementation_defined.md: "the model stops the run, or the host agent"), so it makes no further access. -/
def hostTurn (s : State) : State := if s.hostFaulted then s else s.serveAccess

end State

end Sys2Proof.Machine
end

