-- ==== Sys2Proof/Machine/Aes.lean ====
section
/-! DEFINITION. AES-128/192/256 (FIPS-197), the spec's default for the cipher pair `Enc`, `Dec`
(00_scope.md R14; 92_eei_decisions.md D10; 93_implementation_defined.md G2). PRESUMED: the algorithm is
not in the spec; its test vectors A-1 to E-15 and D-1 to D-14 check it (log 6). -/

namespace Sys2Proof.Machine.Aes

/-- One column of the AES state, rows 0 to 3. -/
structure Col where
  a : Byte
  b : Byte
  c : Byte
  d : Byte
deriving DecidableEq, Repr

/-- The AES state, or a round key: columns 0 to 3. -/
structure Grid where
  c0 : Col
  c1 : Col
  c2 : Col
  c3 : Col
deriving DecidableEq, Repr

/-- The S-box, one row of the table for each high nibble. -/
def sboxRows : List (BitVec 128) :=
  [0x637c777bf26b6fc53001672bfed7ab76#128,
   0xca82c97dfa5947f0add4a2af9ca472c0#128,
   0xb7fd9326363ff7cc34a5e5f171d83115#128,
   0x04c723c31896059a071280e2eb27b275#128,
   0x09832c1a1b6e5aa0523bd6b329e32f84#128,
   0x53d100ed20fcb15b6acbbe394a4c58cf#128,
   0xd0efaafb434d338545f9027f503c9fa8#128,
   0x51a3408f929d38f5bcb6da2110fff3d2#128,
   0xcd0c13ec5f974417c4a77e3d645d1973#128,
   0x60814fdc222a908846eeb814de5e0bdb#128,
   0xe0323a0a4906245cc2d3ac629195e479#128,
   0xe7c8376d8dd54ea96c56f4ea657aae08#128,
   0xba78252e1ca6b4c6e8dd741f4bbd8b8a#128,
   0x703eb5664803f60e613557b986c11d9e#128,
   0xe1f8981169d98e949b1e87e9ce5528df#128,
   0x8ca1890dbfe6426841992d0fb054bb16#128]

/-- The inverse S-box, laid out as the S-box. -/
def invSboxRows : List (BitVec 128) :=
  [0x52096ad53036a538bf40a39e81f3d7fb#128,
   0x7ce339829b2fff87348e4344c4dee9cb#128,
   0x547b9432a6c2233dee4c950b42fac34e#128,
   0x082ea16628d924b2765ba2496d8bd125#128,
   0x72f8f66486689816d4a45ccc5d65b692#128,
   0x6c704850fdedb9da5e154657a78d9d84#128,
   0x90d8ab008cbcd30af7e45805b8b34506#128,
   0xd02c1e8fca3f0f02c1afbd0301138a6b#128,
   0x3a9111414f67dcea97f2cfcef0b4e673#128,
   0x96ac7422e7ad3585e2f937e81c75df6e#128,
   0x47f11a711d29c5896fb7620eaa18be1b#128,
   0xfc563e4bc6d279209adbc0fe78cd5af4#128,
   0x1fdda8338807c731b11210592780ec5f#128,
   0x60517fa919b54a0d2de57a9f93c99cef#128,
   0xa0e03b4dae2af5b0c8ebbb3c83539961#128,
   0x172b047eba77d626e169146355210c7d#128]

/-- The entry of a byte in a table of sixteen rows of sixteen bytes. -/
def lookup (rows : List (BitVec 128)) (x : Byte) : Byte :=
  (rows.getD (x.toNat / 16) 0).extractLsb' (8 * (15 - x.toNat % 16)) 8

def sbox (x : Byte) : Byte := lookup sboxRows x

def invSbox (x : Byte) : Byte := lookup invSboxRows x

/-- Multiplication by 2 in GF(2^8) modulo x^8 + x^4 + x^3 + x + 1. -/
def xtime (x : Byte) : Byte := (x <<< 1) ^^^ (if x.msb then 0x1b#8 else 0#8)

def mul3 (x : Byte) : Byte := xtime x ^^^ x

def mul9 (x : Byte) : Byte := xtime (xtime (xtime x)) ^^^ x

def mul11 (x : Byte) : Byte := xtime (xtime (xtime x)) ^^^ xtime x ^^^ x

def mul13 (x : Byte) : Byte := xtime (xtime (xtime x)) ^^^ xtime (xtime x) ^^^ x

def mul14 (x : Byte) : Byte := xtime (xtime (xtime x)) ^^^ xtime (xtime x) ^^^ xtime x

def Col.map (f : Byte → Byte) (x : Col) : Col := ⟨f x.a, f x.b, f x.c, f x.d⟩

def Col.xor (x y : Col) : Col := ⟨x.a ^^^ y.a, x.b ^^^ y.b, x.c ^^^ y.c, x.d ^^^ y.d⟩

/-- MixColumns on one column. -/
def Col.mix (x : Col) : Col :=
  ⟨xtime x.a ^^^ mul3 x.b ^^^ x.c ^^^ x.d,
   x.a ^^^ xtime x.b ^^^ mul3 x.c ^^^ x.d,
   x.a ^^^ x.b ^^^ xtime x.c ^^^ mul3 x.d,
   mul3 x.a ^^^ x.b ^^^ x.c ^^^ xtime x.d⟩

/-- InvMixColumns on one column. -/
def Col.invMix (x : Col) : Col :=
  ⟨mul14 x.a ^^^ mul11 x.b ^^^ mul13 x.c ^^^ mul9 x.d,
   mul9 x.a ^^^ mul14 x.b ^^^ mul11 x.c ^^^ mul13 x.d,
   mul13 x.a ^^^ mul9 x.b ^^^ mul14 x.c ^^^ mul11 x.d,
   mul11 x.a ^^^ mul13 x.b ^^^ mul9 x.c ^^^ mul14 x.d⟩

def Grid.mapCols (f : Col → Col) (x : Grid) : Grid := ⟨f x.c0, f x.c1, f x.c2, f x.c3⟩

/-- AddRoundKey. -/
def Grid.xor (x k : Grid) : Grid := ⟨x.c0.xor k.c0, x.c1.xor k.c1, x.c2.xor k.c2, x.c3.xor k.c3⟩

def Grid.subBytes (x : Grid) : Grid := x.mapCols (Col.map sbox)

def Grid.invSubBytes (x : Grid) : Grid := x.mapCols (Col.map invSbox)

/-- ShiftRows: row r moves left by r columns. -/
def Grid.shiftRows (x : Grid) : Grid :=
  ⟨⟨x.c0.a, x.c1.b, x.c2.c, x.c3.d⟩, ⟨x.c1.a, x.c2.b, x.c3.c, x.c0.d⟩,
   ⟨x.c2.a, x.c3.b, x.c0.c, x.c1.d⟩, ⟨x.c3.a, x.c0.b, x.c1.c, x.c2.d⟩⟩

/-- InvShiftRows: row r moves right by r columns. -/
def Grid.invShiftRows (x : Grid) : Grid :=
  ⟨⟨x.c0.a, x.c3.b, x.c2.c, x.c1.d⟩, ⟨x.c1.a, x.c0.b, x.c3.c, x.c2.d⟩,
   ⟨x.c2.a, x.c1.b, x.c0.c, x.c3.d⟩, ⟨x.c3.a, x.c2.b, x.c1.c, x.c0.d⟩⟩

/-- The four bytes of a key or a block from index `i`. -/
def colAt (bytes : List Byte) (i : Nat) : Col :=
  ⟨bytes.getD i 0, bytes.getD (i + 1) 0, bytes.getD (i + 2) 0, bytes.getD (i + 3) 0⟩

/-- A block of 16 bytes as a state, filled column by column. -/
def Grid.ofBytes (x : List Byte) : Grid := ⟨colAt x 0, colAt x 4, colAt x 8, colAt x 12⟩

def Col.toBytes (x : Col) : List Byte := [x.a, x.b, x.c, x.d]

def Grid.toBytes (x : Grid) : List Byte :=
  x.c0.toBytes ++ x.c1.toBytes ++ x.c2.toBytes ++ x.c3.toBytes

/-- RotWord then SubWord. -/
def Col.rotSub (x : Col) : Col := ⟨sbox x.b, sbox x.c, sbox x.d, sbox x.a⟩

/-- KeyExpansion: `fuel` more words, `i` words made so far, the newest first in `acc`; `nk` key words,
`rcon` the next round constant. -/
def expandKey (nk : Nat) : Nat → Nat → Byte → List Col → List Col
  | 0, _, _, acc => acc
  | fuel + 1, i, rcon, acc =>
    let prev := acc.headD ⟨0, 0, 0, 0⟩
    let old := acc.getD (nk - 1) ⟨0, 0, 0, 0⟩
    if i % nk = 0 then
      expandKey nk fuel (i + 1) (xtime rcon) (old.xor (prev.rotSub.xor ⟨rcon, 0, 0, 0⟩) :: acc)
    else if 6 < nk ∧ i % nk = 4 then
      expandKey nk fuel (i + 1) rcon (old.xor (prev.map sbox) :: acc)
    else expandKey nk fuel (i + 1) rcon (old.xor prev :: acc)

/-- Words of the key schedule, four at a time. -/
def gridsOf : Nat → List Col → List Grid
  | 0, _ => []
  | k + 1, w =>
    ⟨w.getD 0 ⟨0, 0, 0, 0⟩, w.getD 1 ⟨0, 0, 0, 0⟩, w.getD 2 ⟨0, 0, 0, 0⟩, w.getD 3 ⟨0, 0, 0, 0⟩⟩
      :: gridsOf k (w.drop 4)

/-- The `Nr + 1` round keys, `Nr = Nk + 6` for a key of `Nk` words. -/
def roundKeys (key : List Byte) : List Grid :=
  let nk := key.length / 4
  let start := ((List.range nk).map fun i => colAt key (4 * i)).reverse
  gridsOf (nk + 7) (expandKey nk (4 * (nk + 7) - nk) nk 0x01#8 start).reverse

/-- A full round. -/
def Grid.round (x k : Grid) : Grid := (x.subBytes.shiftRows.mapCols Col.mix).xor k

/-- A full round undone. -/
def Grid.unround (k x : Grid) : Grid := ((x.xor k).mapCols Col.invMix).invShiftRows.invSubBytes

/-- The cipher under a list of round keys: the first is added, the last belongs to the round without
MixColumns. -/
def encryptGrid (keys : List Grid) (x : Grid) : Grid :=
  match keys with
  | [] => x
  | k :: ks =>
    (ks.dropLast.foldl Grid.round (x.xor k)).subBytes.shiftRows.xor (ks.getLastD k)

/-- The inverse cipher under the same list of round keys. -/
def decryptGrid (keys : List Grid) (y : Grid) : Grid :=
  match keys with
  | [] => y
  | k :: ks =>
    (ks.dropLast.foldr Grid.unround (y.xor (ks.getLastD k)).invShiftRows.invSubBytes).xor k

/-- `Enc(k, x)` for AES. -/
def enc (key x : List Byte) : List Byte := (encryptGrid (roundKeys key) (Grid.ofBytes x)).toBytes

/-- `Dec(k, y)` for AES. -/
def dec (key y : List Byte) : List Byte := (decryptGrid (roundKeys key) (Grid.ofBytes y)).toBytes

end Sys2Proof.Machine.Aes
end

