-- ==== Sys2Proof/Machine/Cipher.lean ====
section
/-! DEFINITION. The cipher pair `Enc`, `Dec` that the core reaches through its cipher port
(00_scope.md R3, R14; 10_state.md R62): pure functions of the key and the block, chosen by the build
parameters (log 6). -/

namespace Sys2Proof.Machine

/-- A permutation of blocks of `n` bytes, as a function on byte strings; a string of another length,
which no rule presents to the cipher, is returned unchanged. -/
def onBlock (n : Nat) (f : Vector Byte n → Vector Byte n) (x : List Byte) : List Byte :=
  if h : x.length = n then (f ⟨x.toArray, by simpa using h⟩).toList else x

end Sys2Proof.Machine

namespace Sys2Proof.Config.Params

/-- `Enc(k, x)` (R14). -/
def enc (p : Params) (k x : List Byte) : List Byte :=
  match p.cipher with
  | .aes => Machine.Aes.enc k x
  | .external id => Machine.onBlock p.blockBytes (externalCipher id p.blockBytes k) x

/-- `Dec(k, y)` (R14). -/
def dec (p : Params) (k y : List Byte) : List Byte :=
  match p.cipher with
  | .aes => Machine.Aes.dec k y
  | .external id => Machine.onBlock p.blockBytes (externalCipher id p.blockBytes k).symm y

end Sys2Proof.Config.Params
end

