-- ==== Sys2Proof/Machine/Padding.lean ====
section
/-! DEFINITION. The padding commands PAD and UNPAD (40_padding.md). -/

namespace Sys2Proof.Machine

/-- PAD (R122): its result is a function of the snapshot alone (R34). -/
def padResult (cfg : Config.Params) (snap : Snapshot) : Except ErrCode (List Byte) :=
  if cfg.bufBytes < snap.length then .error .lengthOutOfRange
  else if !legalBlockSize snap.blockSize then .error .invalidBlockSize
  else if cfg.bufBytes < snap.length + padLen snap.length snap.blockSize.toNat then
    .error .lengthOutOfRange
  else .ok (snap.data ++ padBytes (padLen snap.length snap.blockSize.toNat))

/-- The count check, the byte check and the removal that UNPAD and DECRYPT share (R130, R131, R150): the
count is the last byte and may be any of 1 to `len(d)`; the string is not empty where this is used. -/
def stripPadding (d : List Byte) : Except ErrCode (List Byte) :=
  let n := (d.getLastD 0).toNat
  if n = 0 ∨ d.length < n then .error .invalidPadding
  else if (d.drop (d.length - n)).all (· == BitVec.ofNat 8 n) then .ok (d.take (d.length - n))
  else .error .invalidPadding

/-- UNPAD (R130). -/
def unpadResult (cfg : Config.Params) (snap : Snapshot) : Except ErrCode (List Byte) :=
  if cfg.bufBytes < snap.length then .error .lengthOutOfRange
  else if !legalBlockSize snap.blockSize then .error .invalidBlockSize
  else if snap.length = 0 ∨ snap.length % snap.blockSize.toNat ≠ 0 then .error .invalidPadding
  else stripPadding snap.data

/-- PAD. -/
def execPad (s : State) : Outcome := conclude (padResult s.cfg s.snap) s

/-- UNPAD. -/
def execUnpad (s : State) : Outcome := conclude (unpadResult s.cfg s.snap) s

end Sys2Proof.Machine
end

