-- ==== Sys2Proof/Machine/Cbc.lean ====
section
/-! DEFINITION. The CBC commands ENCRYPT and DECRYPT (41_cbc.md). -/

namespace Sys2Proof.Machine

/-- CBC encryption chaining of the blocks of a padded plaintext (R141). -/
def cbcEncrypt (enc : List Byte → List Byte) : List Byte → List (List Byte) → List (List Byte)
  | _, [] => []
  | prev, p :: ps => enc (xorBytes p prev) :: cbcEncrypt enc (enc (xorBytes p prev)) ps

/-- CBC decryption chaining of ciphertext blocks (R142). -/
def cbcDecrypt (dec : List Byte → List Byte) : List Byte → List (List Byte) → List (List Byte)
  | _, [] => []
  | prev, c :: cs => xorBytes (dec c) prev :: cbcDecrypt dec c cs

/-- R141 on byte strings: `CBC-encrypt(K, IV, P)`. -/
def cbcEncryptBytes (cfg : Config.Params) (k iv p : List Byte) : List Byte :=
  (cbcEncrypt (cfg.enc k) iv (blocks cfg.blockBytes (p.length / cfg.blockBytes) p)).flatten

/-- R142 on byte strings: `CBC-decrypt(K, IV, C)`. -/
def cbcDecryptBytes (cfg : Config.Params) (k iv c : List Byte) : List Byte :=
  (cbcDecrypt (cfg.dec k) iv (blocks cfg.blockBytes (c.length / cfg.blockBytes) c)).flatten

/-- `snap.klen in KEY_SIZES` (R143). -/
def supportedKey (cfg : Config.Params) (snap : Snapshot) : Bool :=
  cfg.keySizes.contains snap.keyLength

/-- `T = B + L + n`, the length of ENCRYPT's blob (R145). -/
def blobLength (cfg : Config.Params) (len : Nat) : Nat :=
  cfg.blockBytes + len + padLen len cfg.blockBytes

/-- ENCRYPT's checks before its draw (R145): the first failing one, or the number of bytes to draw. -/
def encryptDraw (cfg : Config.Params) (snap : Snapshot) : Except ErrCode Nat :=
  if cfg.bufBytes < snap.length then .error .lengthOutOfRange
  else if !supportedKey cfg snap then .error .invalidKeySize
  else if cfg.bufBytes < blobLength cfg snap.length then .error .lengthOutOfRange
  else .ok cfg.blockBytes

/-- `IV || C`: ENCRYPT's blob from a full draw (R145). -/
def encryptBlob (cfg : Config.Params) (snap : Snapshot) (iv : List Byte) : List Byte :=
  iv ++ cbcEncryptBytes cfg snap.selectedKey iv
    (snap.data ++ padBytes (padLen snap.length cfg.blockBytes))

/-- DECRYPT (R150): its result is a function of the snapshot alone (R34). -/
def decryptResult (cfg : Config.Params) (snap : Snapshot) : Except ErrCode (List Byte) :=
  if cfg.bufBytes < snap.length then .error .lengthOutOfRange
  else if !supportedKey cfg snap then .error .invalidKeySize
  else if snap.length < 2 * cfg.blockBytes then .error .malformedCiphertext
  else if (snap.length - cfg.blockBytes) % cfg.blockBytes ≠ 0 then .error .invalidCiphertextLength
  else stripPadding (cbcDecryptBytes cfg snap.selectedKey (snap.data.take cfg.blockBytes)
    (snap.data.drop cfg.blockBytes))

/-- ENCRYPT. -/
def execEncrypt (s : State) : Outcome :=
  match encryptDraw s.cfg s.snap with
  | .error code => .next (s.completeError code)
  | .ok n => withDraw n .insufficientEntropy (encryptBlob s.cfg s.snap) s

/-- DECRYPT. -/
def execDecrypt (s : State) : Outcome := conclude (decryptResult s.cfg s.snap) s

end Sys2Proof.Machine
end

