-- ==== Sys2Proof/Machine/Random.lean ====
section
/-! DEFINITION. The command RANDHEX (42_random.md R175). -/

namespace Sys2Proof.Machine

/-- RANDHEX's check before its draw: the capacity in exact arithmetic, or the number of bytes to draw
(R175). -/
def randhexDraw (cfg : Config.Params) (snap : Snapshot) : Except ErrCode Nat :=
  if cfg.bufBytes < 2 * snap.length then .error .lengthOutOfRange else .ok snap.length

/-- RANDHEX: `n = 0` completes at once and asks for nothing (R175). -/
def execRandhex (s : State) : Outcome :=
  match randhexDraw s.cfg s.snap with
  | .error code => .next (s.completeError code)
  | .ok 0 => .next (s.completeSuccess [])
  | .ok n => withDraw n .entropySourceFailure hexString s

end Sys2Proof.Machine
end

