-- ==== Sys2Proof/Machine/Turns.lean ====
section
/-! DEFINITION. What each agent does in its turn (00_scope.md R24): the core (30_encoding.md R102;
10_state.md R32), the entropy source (42_random.md R171), the host (Bus.lean), reset and power-on; which
agent moves when no turn is arranged (log 1); and how a command word is put where the next step runs
it (log 8). -/

namespace Sys2Proof.Machine

/-- The core's turn: a BUSY core decodes its command word and runs it, an ILLEGAL word completes with
IllegalCommand (R102); in IDLE and LOCKED the core does nothing (R212). -/
def coreTurn (s : State) : Outcome :=
  match s.fsm with
  | .busy =>
    match decode s.snap.cmd with
    | .ok i => exec i s
    | .error _ => .next (s.completeError .illegalCommand)
  | .idle => .next s
  | .locked => .next s

/-- One cycle of the entropy port (R171): outside a transaction it is ignored; ENT_FAIL ends it with
the bytes delivered before; a valid byte is appended, and the `n`-th one ends it. -/
def Ent.cycle (valid : Bool) (data : Byte) (fail : Bool) (e : Ent) : Ent :=
  match e with
  | .none => .none
  | .answered s => .answered s
  | .pending n got =>
    if fail then .answered got
    else if valid then
      if got.length + 1 < n then .pending n (got ++ [data]) else .answered (got ++ [data])
    else .pending n got

namespace State

/-- The entropy source's turn: one cycle of its port. -/
def entropyTurn (valid : Bool) (data : Byte) (fail : Bool) (s : State) : State :=
  { s with ent := s.ent.cycle valid data fail }

/-- The completion step is enabled: the core is BUSY and does not wait for entropy (R35, R245). -/
def coreEnabled (s : State) : Bool := s.busy && !s.ent.req

/-- Which agent moves when no turn is arranged: the core if it is enabled (weak fairness, R245), else
the host (log 1). -/
def defaultTurn (s : State) : Turn := if s.coreEnabled then .core else .host

end State

/-- A turn. -/
def takeTurn (t : Turn) (s : State) : Outcome :=
  match t with
  | .host => .next s.hostTurn
  | .core => coreTurn s
  | .entropy valid data fail => .next (s.entropyTurn valid data fail)
  | .reset => .next s.resetCore
  | .powerOn => .next s.powerOn

/-- Command word `w` accepted and the core about to run it: what a write of `w` to CMD in IDLE does
(R36), with no entropy request outstanding, and the core's turn next (log 8). -/
def loadCommand (w : Word) (s : State) : State :=
  { s.accept w with ent := .none, turns := .core :: s.turns }

end Sys2Proof.Machine
end

