-- ==== Sys2Proof/Machine/Step.lean ====
section
/-! DEFINITION. One step of the machine: the next turn of the list, or the default one (00_scope.md R24;
log 1); and the placing of a command word for the next step (log 8). -/

namespace Sys2Proof.Machine

/-- One step. -/
def step (s : State) : Host.Outcome State Fault Refusal :=
  match s.turns with
  | [] => takeTurn s.defaultTurn s
  | t :: rest => takeTurn t { s with turns := rest }

/-- `s` with the command word `w` accepted and the core to move, so that the very next step runs it. A
command word has 32 bits whatever `nbits` says (R100). -/
def State.withFetchWord (s : State) (_nbits w : Nat) : State := loadCommand (BitVec.ofNat 32 w) s

end Sys2Proof.Machine
end

