-- ==== Sys2Proof/Safety.lean ====
section
/-! DEFINITION. What counts as a safe run, in the terms the statements use: what a completed command
leaves (60_exceptions.md R196, R197, R199), which agent moves, and the invariant of every reachable
state. -/

namespace Sys2Proof.Machine

/-- The agent that moves in the next step. -/
def State.mover (s : State) : Turn :=
  match s.turns with
  | [] => s.defaultTurn
  | t :: _ => t

/-- The host's access that the next step serves: the first that waits, where the host moves and its program
has not faulted (R81, R91). -/
def State.served (s : State) : Option HostOp :=
  if s.mover = .host ∧ s.hostFaulted = false then s.host.head? else none

/-- RST_N or power: the turns that reset the core. -/
def Turn.isReset : Turn → Bool
  | .reset => true
  | .powerOn => true
  | .host => false
  | .core => false
  | .entropy _ _ _ => false

/-- The locations whose writes are dropped while BUSY or LOCKED: CMD, BLKSZ, SRC_LEN, KEY_LEN, KEY0..KEY7
and the IBUF window (R240). -/
abbrev DroppedWhenNotIdle (bufBytes : Nat) (off : Offset) : Prop :=
  off.toNat % 4 = 0 ∧
  (off.toNat = 0x008 ∨ off.toNat = 0x010 ∨ off.toNat = 0x014 ∨ off.toNat = 0x01C ∨
    (0x020 ≤ off.toNat ∧ off.toNat < 0x040) ∨ (0x1000 ≤ off.toNat ∧ off.toNat < 0x1000 + bufBytes))

/-- The input bytes of the snapshot are all there: true of every command whose SRC_LEN is within the
capacity (R34; `State.Inv.busy`). -/
abbrev Snapshot.whole (snap : Snapshot) : Prop := snap.input.length = snap.length

/-- What a completion leaves unchanged: every configuration register, KEYB, IBUF, the snapshot, CTRL and
WBUSY (R196, R197), and what lies outside the core. -/
structure CompletionFrame (s t : State) : Prop where
  cfg : t.cfg = s.cfg
  irqEn : t.irqEn = s.irqEn
  wbusy : t.wbusy = s.wbusy
  blksz : t.blksz = s.blksz
  srcLen : t.srcLen = s.srcLen
  keyLen : t.keyLen = s.keyLen
  keyb : t.keyb = s.keyb
  ibuf : t.ibuf = s.ibuf
  snap : t.snap = s.snap
  reply : t.reply = s.reply
  host : t.host = s.host
  turns : t.turns = s.turns

/-- The command running in `s` has completed in `t` with a code and a result string (R196, R197, R199):
`after` is the FSM state it leaves. -/
structure Completed (after : Fsm) (code : ErrCode) (out : List Byte) (s t : State) : Prop where
  fsm : t.fsm = after
  done : t.done = true
  err : t.err = code
  ent : t.ent = .none
  dstLen : t.dstLen = BitVec.ofNat 32 out.length
  /-- `OBUF[0 : len(out)]` holds the result -/
  result : ∀ i (h : i < out.length), t.obuf.byte i = out[i]
  /-- every other byte of OBUF is unspecified: a value of a fresh draw -/
  unspecified : ∀ i, out.length ≤ i → t.obuf.byte i = Config.freeByte s.draws i
  frame : CompletionFrame s t

/-- How many entropy bytes the command of a snapshot needs: those of ENCRYPT and RANDHEX that pass their
checks, RANDHEX with `n > 0` only (R35). -/
def drawNeeded (cfg : Config.Params) (snap : Snapshot) : Option Nat :=
  match decode snap.cmd with
  | .ok .encrypt => (encryptDraw cfg snap).toOption
  | .ok .randhex => (randhexDraw cfg snap).toOption.filter (0 < ·)
  | .ok .pad => none
  | .ok .unpad => none
  | .ok .decrypt => none
  | .error _ => none

/-- The entropy transaction belongs to the running command: a request is of the bytes it needs, fewer
than those have come, and an answer is not longer (R35, R171). -/
def entropyMatches (s : State) : Prop :=
  match s.ent with
  | .none => True
  | .pending n got => s.fsm = .busy ∧ drawNeeded s.cfg s.snap = some n ∧ got.length < n
  | .answered r => s.fsm = .busy ∧ ∃ n, drawNeeded s.cfg s.snap = some n ∧ r.length ≤ n

/-- The invariant of every reachable state. -/
structure State.Inv (s : State) : Prop where
  /-- the build parameters are legal (92_eei_decisions.md) -/
  cfg : s.cfg.wf = true
  /-- IBUF is in canonical form, within its capacity -/
  ibuf : s.ibuf.wf s.cfg.bufBytes
  /-- OBUF is in canonical form, within its capacity -/
  obuf : s.obuf.wf s.cfg.bufBytes
  /-- DST_LEN is at most BUF_BYTES (R46) -/
  dstLen : s.dstLen.toNat ≤ s.cfg.bufBytes
  /-- DST_LEN is 0 after an error (R46, R197, R199) -/
  failed : s.err ≠ .success → s.dstLen = 0
  /-- while BUSY: DONE, ERR and DST_LEN are 0 (R36, R241), and the snapshot equals the live inputs (R34) -/
  busy : s.fsm = .busy → s.done = false ∧ s.err = .success ∧ s.dstLen = 0 ∧
    s.snap = s.takeSnapshot s.snap.cmd
  /-- LOCKED goes with the fatal codes (R199) -/
  locked : s.fsm = .locked ↔ s.err.fatal = true
  /-- the entropy transaction belongs to the running command (R35) -/
  ent : entropyMatches s
  /-- no free value is drawn twice (I1-I5) -/
  fresh : s.ibuf.fill < s.draws ∧ s.obuf.fill < s.draws ∧ s.ibuf.fill ≠ s.obuf.fill

/-- Two states that differ at most in the key bank and the key of the snapshot (R206). -/
def SameButKey (s t : State) : Prop :=
  ∃ keyb key, t = { s with keyb := keyb, snap := { s.snap with key := key } }

/-- The `i`-th block of `b` bytes of a byte string, counting from 0 (20_memory.md R85). -/
def blockAt (b i : Nat) (x : List Byte) : List Byte := (x.drop (i * b)).take b

/-- `cs` are the blocks `C_1, C_2, ...` of R141: `C_i = Enc(P_i XOR C_{i-1})`, the IV standing in for
`C_0`. -/
def CbcEncryption (enc : List Byte → List Byte) (b : Nat) (iv p : List Byte) (cs : List (List Byte)) : Prop :=
  cs.length = p.length / b ∧
  ∀ i, i < cs.length →
    cs[i]? = some (enc (xorBytes (blockAt b i p) (if i = 0 then iv else cs.getD (i - 1) [])))

/-- `ps` are the blocks `P_1, P_2, ...` of R142: `P_i = Dec(C_i) XOR C_{i-1}`, the IV standing in for
`C_0`. -/
def CbcDecryption (dec : List Byte → List Byte) (b : Nat) (iv c : List Byte) (ps : List (List Byte)) : Prop :=
  ps.length = c.length / b ∧
  ∀ i, i < ps.length →
    ps[i]? = some (xorBytes (dec (blockAt b i c)) (if i = 0 then iv else blockAt b (i - 1) c))

/-- `d` ends in a valid padding of `n` bytes: `1 <= n <= len(d)` and the last `n` bytes are all `n`
(40_padding.md R130, R131). -/
def EndsInPadding (d : List Byte) (n : Nat) : Prop :=
  1 ≤ n ∧ n ≤ d.length ∧ n ≤ 255 ∧ d.drop (d.length - n) = List.replicate n (BitVec.ofNat 8 n)

/-- The ASCII code of an uppercase hex digit: '0'..'9', 'A'..'F' (42_random.md R174). -/
def asciiHex (v : Nat) : Nat := if v ≤ 9 then 0x30 + v else 0x41 + (v - 10)

/-- The digit of an ASCII code, the inverse of `hexU` (R176). -/
def digitOf (c : Nat) : Nat := if c ≤ 0x39 then c - 0x30 else c - 0x41 + 10

/-- A safe run: every step goes on to a next state, and the invariant holds in it. -/
def State.Safe (s : State) : Prop :=
  ∀ k, ∃ t, Host.Core.run Sys2Proof.core k s = .next t ∧ t.Inv

end Sys2Proof.Machine
end

