-- ==== Sys2Proof/Certificates/Slice0/Obligations.lean ====
section
/-! DEFINITION. The statements for the provers, from the numbered rules of spec/. -/

open Sys2Proof Sys2Proof.Machine

/-! ## Encoding (30_encoding.md) -/

/-- The five command words of R101, written out, decode to their commands, also as table rows. -/
def Obligations.CommandWordsDecode : Prop :=
  decode 0b00000000000000000000000000000001#32 = .ok .pad ∧
  decode 0b00000000000000000000000000000010#32 = .ok .unpad ∧
  decode 0b00000000000000000000000000000011#32 = .ok .encrypt ∧
  decode 0b00000000000000000000000000000100#32 = .ok .decrypt ∧
  decode 0b00000000000000000000000000000101#32 = .ok .randhex ∧
  decodeTableWord 32 0x00000005 = some .randhex ∧ decodeTableWord 32 0x00000101 = none

/-- R101: each command is selected by its full word, mask 0xFFFF_FFFF, and by no other of the 2^32. -/
def Obligations.DecodeIsTheOpcodeMap : Prop :=
  ∀ (w : Word) (i : Instr), decode w = .ok i ↔
    match i with
    | .pad => w = 0x00000001#32
    | .unpad => w = 0x00000002#32
    | .encrypt => w = 0x00000003#32
    | .decrypt => w = 0x00000004#32
    | .randhex => w = 0x00000005#32

/-- Decoding an encoded command gives it back, and a word that decodes to a command is its encoding: no
bit of a command word is dropped. -/
def Obligations.EncodeAndDecodeAgree : Prop :=
  ∀ (i : Instr) (w : Word), i.wf = true →
    decode (encode i) = .ok i ∧ (decode w = .ok i → encode i = w) ∧
    (∀ e, decode w = .error e → ∀ j : Instr, encode j ≠ w)

/-- R103: every word with a nonzero RSV, with OPC 0x00 or with OPC 0x06 to 0xFF has one behaviour: the
BUSY core completes it with IllegalCommand, whatever the rest of the state. -/
def Obligations.IllegalWordsCompleteWithIllegalCommand : Prop :=
  ∀ s : State, s.fsm = .busy →
    (s.snap.cmd.toNat / 256 ≠ 0 ∨ s.snap.cmd.toNat % 256 = 0 ∨ 6 ≤ s.snap.cmd.toNat % 256) →
    ∃ t, coreTurn s = .next t ∧ Completed .idle .illegalCommand [] s t

/-! ## Steps and acceptance -/

/-- R102: a step of a BUSY core whose turn it is runs the decoded command. That a step with no turn arranged
does so too, unless the command waits for entropy, is the model's choice (log 1): the spec gives no latency. -/
def Obligations.StepRunsTheDecodedCommand : Prop :=
  ∀ (s : State) (i : Instr), s.fsm = .busy → decode s.snap.cmd = .ok i →
    (∀ rest, s.turns = .core :: rest → step s = exec i { s with turns := rest }) ∧
    (s.turns = [] → (∀ n got, s.ent ≠ .pending n got) → step s = exec i s)

/-- A command word written to CMD in IDLE, by a host program that has not faulted, is what the core runs: the
host's step accepts it, and the core's step after it is exec of the command it decodes to. -/
def Obligations.CommandWrittenIsTheCommandRun : Prop :=
  ∀ (s : State) (w : Word) (i : Instr) (ops : List HostOp) (rest : List Turn),
    s.fsm = .idle → s.ent = .none → s.hostFaulted = false → s.host = .write 0x008#14 32 w :: ops →
    s.turns = .host :: .core :: rest → decode w = .ok i →
    ∃ t u, step s = .next t ∧ u = { t with turns := rest } ∧ step t = exec i u ∧
      u.fsm = .busy ∧ u.snap = s.takeSnapshot w ∧ u.host = ops ∧ u.cfg = s.cfg ∧ u.ent = .none

/-- No step of the machine stops: a bus error stops the host's program and not the core (R81), no error is a
trap (R200). -/
def Obligations.EveryStepHasANextState : Prop :=
  ∀ s : State, ∃ t, step s = .next t

/-- R36: a write of any word to CMD in IDLE is accepted, and what acceptance writes; in BUSY and LOCKED
it is not accepted. -/
def Obligations.CmdWriteIsAcceptedWhenIdle : Prop :=
  ∀ (s : State) (w : Word),
    (s.fsm = .idle → s.busWrite 0x008#14 32 w =
      { s with
        fsm := .busy, done := false, err := .success, dstLen := 0
        snap := ⟨w, s.srcLen, s.blksz, s.keyLen, s.keyb,
          (List.range (min s.srcLen.toNat s.cfg.bufBytes)).map s.ibuf.byte⟩
        reply := some .okay }) ∧
    (s.fsm ≠ .idle → s.busWrite 0x008#14 32 w = { s with wbusy := true, reply := some .okay })

/-- R240: while BUSY or LOCKED, writes to CMD, BLKSZ, SRC_LEN, KEY_LEN, KEY0..KEY7 and IBUF are dropped,
answered OKAY and set WBUSY; CTRL and STATUS are written; in every state ID, DST_LEN and OBUF ignore
writes without WBUSY. -/
def Obligations.WritesWhileBusyAreDropped : Prop :=
  ∀ (s : State) (off : Offset) (v : Word), s.cfg.wf = true → off.toNat % 4 = 0 →
    (s.fsm ≠ .idle → DroppedWhenNotIdle s.cfg.bufBytes off →
      s.busWrite off 32 v = { s with wbusy := true, reply := some .okay }) ∧
    (off.toNat = 0x004 →
      s.busWrite off 32 v = { s with irqEn := v.getLsbD 0, reply := some .okay }) ∧
    (off.toNat = 0x00C →
      s.busWrite off 32 v = { s with
        done := s.done && !v.getLsbD 1, wbusy := s.wbusy && !v.getLsbD 3, reply := some .okay }) ∧
    ((off.toNat = 0x000 ∨ off.toNat = 0x018 ∨
        (0x2000 ≤ off.toNat ∧ off.toNat < 0x2000 + s.cfg.bufBytes)) →
      s.busWrite off 32 v = { s with reply := some .okay })

/-- R43: a write to STATUS clears DONE where bit 1 is 1 and WBUSY where bit 3 is 1, in every state, and
changes nothing else of the core. -/
def Obligations.StatusWriteClearsDoneAndWbusy : Prop :=
  ∀ (s : State) (v : Word), s.busWrite 0x00C#14 32 v =
    { s with
      done := if v.getLsbD 1 then false else s.done
      wbusy := if v.getLsbD 3 then false else s.wbusy
      reply := some .okay }

/-- R81, R82: an access of another size, at an offset that is not a multiple of 4, or at an unmapped
offset is answered ERROR and changes nothing; every other access is not answered ERROR. -/
def Obligations.BadAccessesGetErrorWithoutEffect : Prop :=
  ∀ (s : State) (off : Offset) (size : Nat) (v : Word), s.cfg.wf = true →
    let bad := size ≠ 32 ∨ off.toNat % 4 ≠ 0 ∨ (0x040 ≤ off.toNat ∧ off.toNat ≤ 0x0FFF) ∨
      (0x1000 + s.cfg.bufBytes ≤ off.toNat ∧ off.toNat ≤ 0x1FFF) ∨
      (0x2000 + s.cfg.bufBytes ≤ off.toNat ∧ off.toNat ≤ 0x2FFF) ∨ 0x3000 ≤ off.toNat
    (bad → s.busRead off size = { s with reply := some .error } ∧
      s.busWrite off size v = { s with reply := some .error }) ∧
    (¬ bad → (∃ w, (s.busRead off size).reply = some (.data w)) ∧
      (s.busWrite off size v).reply = some .okay)

/-- R83: the packing of both windows is little-endian on a read (of OBUF in IDLE; in BUSY and LOCKED see
R241), and on a write to IBUF and to KEY0..KEY7 in IDLE, which changes the bytes of that word and nothing
else of the core. -/
def Obligations.HostWordsAreLittleEndian : Prop :=
  ∀ (s : State) (j : Nat) (v : Word), s.cfg.wf = true → 4 * j < s.cfg.bufBytes →
    let packed (b : Buffer) : Word :=
      (b.byte (4 * j)).setWidth 32 ||| (b.byte (4 * j + 1)).setWidth 32 <<< 8 |||
        (b.byte (4 * j + 2)).setWidth 32 <<< 16 ||| (b.byte (4 * j + 3)).setWidth 32 <<< 24
    (s.busRead (BitVec.ofNat 14 (0x1000 + 4 * j)) 32).reply = some (.data (packed s.ibuf)) ∧
    (s.fsm = .idle →
      (s.busRead (BitVec.ofNat 14 (0x2000 + 4 * j)) 32).reply = some (.data (packed s.obuf)) ∧
      (∃ ibuf, s.busWrite (BitVec.ofNat 14 (0x1000 + 4 * j)) 32 v =
          { s with ibuf := ibuf, reply := some .okay } ∧
        (∀ i < 4, ibuf.byte (4 * j + i) = (v >>> (8 * i)).setWidth 8) ∧
        (∀ a, a < 4 * j ∨ 4 * j + 4 ≤ a → ibuf.byte a = s.ibuf.byte a)) ∧
      (∀ k < 8, ∃ keyb, s.busWrite (BitVec.ofNat 14 (0x020 + 4 * k)) 32 v =
          { s with keyb := keyb, reply := some .okay } ∧
        ∀ a (h : a < 32), keyb[a] = if a / 4 = k then (v >>> (8 * (a % 4))).setWidth 8 else s.keyb[a]))

/-- R44, R45, R48 and R40: BLKSZ, SRC_LEN and KEY_LEN store all 32 bits of a write in IDLE and read them
back; CTRL stores bit 0 only; nothing else of the core changes. -/
def Obligations.ConfigurationRegistersReadBack : Prop :=
  ∀ (s : State) (v : Word), s.fsm = .idle →
    s.busWrite 0x010#14 32 v = { s with blksz := v, reply := some .okay } ∧
    s.busWrite 0x014#14 32 v = { s with srcLen := v, reply := some .okay } ∧
    s.busWrite 0x01C#14 32 v = { s with keyLen := v, reply := some .okay } ∧
    (∀ off : Offset, off = 0x010#14 ∨ off = 0x014#14 ∨ off = 0x01C#14 →
      ((s.busWrite off 32 v).busRead off 32).reply = some (.data v)) ∧
    s.busWrite 0x004#14 32 v = { s with irqEn := v.getLsbD 0, reply := some .okay } ∧
    ((s.busWrite 0x004#14 32 v).busRead 0x004#14 32).reply = some (.data (v &&& 1#32))

/-- R42, R33, R191: what a read of STATUS returns, bit by bit, in every state; BUSY and FATAL show `fsm`, and
bits 11:8 the number of the code of ERR. -/
def Obligations.StatusReadShowsTheFlags : Prop :=
  ∀ s : State, ∃ w : Word, (s.busRead 0x00C#14 32).reply = some (.data w) ∧
    (w.getLsbD 0 = true ↔ s.fsm = .busy) ∧ w.getLsbD 1 = s.done ∧
    (w.getLsbD 2 = true ↔ s.fsm = .locked) ∧ w.getLsbD 3 = s.wbusy ∧
    (w >>> 8).setWidth 4 = (match s.err with
      | .success => 0#4
      | .invalidBlockSize => 1#4
      | .invalidPadding => 2#4
      | .invalidKeySize => 3#4
      | .malformedCiphertext => 4#4
      | .invalidCiphertextLength => 5#4
      | .entropySourceFailure => 6#4
      | .insufficientEntropy => 7#4
      | .lengthOutOfRange => 8#4
      | .illegalCommand => 9#4) ∧ (w >>> 4).setWidth 4 = 0#4 ∧ w >>> 12 = 0#32

/-- What the other registers read as: ID its constant (R39), CTRL bit 0 (R40), the write-only CMD and
KEY0..KEY7 zero (R41, R47), BLKSZ, SRC_LEN, DST_LEN, KEY_LEN their value; a read changes no state of the
core (R49). -/
def Obligations.RegisterReadsReturnTheirValues : Prop :=
  ∀ s : State,
    s.busRead 0x000#14 32 = { s with reply := some (.data 0x50430700#32) } ∧
    s.busRead 0x004#14 32 = { s with reply := some (.data (if s.irqEn then 1#32 else 0#32)) } ∧
    s.busRead 0x008#14 32 = { s with reply := some (.data 0#32) } ∧
    s.busRead 0x010#14 32 = { s with reply := some (.data s.blksz) } ∧
    s.busRead 0x014#14 32 = { s with reply := some (.data s.srcLen) } ∧
    s.busRead 0x018#14 32 = { s with reply := some (.data s.dstLen) } ∧
    s.busRead 0x01C#14 32 = { s with reply := some (.data s.keyLen) } ∧
    ∀ k < 8, s.busRead (BitVec.ofNat 14 (0x020 + 4 * k)) 32 = { s with reply := some (.data 0#32) }

/-- R88: no read of any location, size or alignment has a side effect on the core: only the reply and the
model's count of free values change, and reading again gives the same reply, except from OBUF while BUSY
or LOCKED (R241). That two reads of an IBUF byte never written since power-on agree is the model's choice
(log 3). -/
def Obligations.ReadsHaveNoSideEffect : Prop :=
  ∀ (s : State) (off : Offset) (size : Nat), s.cfg.wf = true →
    let t := s.busRead off size
    t = { s with reply := t.reply, draws := t.draws } ∧
    (s.fsm = .idle ∨ off.toNat < 0x2000 ∨ 0x3000 ≤ off.toNat → t.busRead off size = t)

/-- R241: reads while BUSY, in every state the invariant allows: STATUS reads BUSY = 1, DST_LEN reads 0, an
OBUF read returns a free value drawn afresh, the other registers and IBUF read their stored values, the
write-only registers 0; and no read of any location disturbs the command. -/
def Obligations.ReadsWhileBusy : Prop :=
  ∀ (s : State) (j k : Nat), s.Inv → s.fsm = .busy → 4 * j < s.cfg.bufBytes → k < 8 →
    (∃ w : Word, (s.busRead 0x00C#14 32).reply = some (.data w) ∧ w.getLsbD 0 = true) ∧
    (s.busRead 0x018#14 32).reply = some (.data 0#32) ∧
    s.busRead (BitVec.ofNat 14 (0x2000 + 4 * j)) 32 =
      { s with reply := some (.data (Config.freeWord s.draws)), draws := s.draws + 1 } ∧
    (s.busRead (BitVec.ofNat 14 (0x1000 + 4 * j)) 32).reply = some (.data (s.ibuf.word (4 * j))) ∧
    (s.busRead 0x000#14 32).reply = some (.data 0x50430700#32) ∧
    (s.busRead 0x004#14 32).reply = some (.data (if s.irqEn then 1#32 else 0#32)) ∧
    (s.busRead 0x010#14 32).reply = some (.data s.blksz) ∧
    (s.busRead 0x014#14 32).reply = some (.data s.srcLen) ∧
    (s.busRead 0x01C#14 32).reply = some (.data s.keyLen) ∧
    (s.busRead 0x008#14 32).reply = some (.data 0#32) ∧
    (s.busRead (BitVec.ofNat 14 (0x020 + 4 * k)) 32).reply = some (.data 0#32) ∧
    ∀ off size, ∃ r d, s.busRead off size = { s with reply := r, draws := d }

/-! ## PAD and UNPAD (40_padding.md) -/

/-- R122: PAD, whole: its checks in order, and its result. -/
def Obligations.PadRunsAsSpecified : Prop :=
  ∀ s : State, ∃ t, exec .pad s = .next t ∧
    let len := s.snap.len.toNat
    let b := s.snap.bs.toInt
    let n := b.toNat - len % b.toNat
    if s.cfg.bufBytes < len then Completed .idle .lengthOutOfRange [] s t
    else if b ≤ 0 ∨ 255 < b then Completed .idle .invalidBlockSize [] s t
    else if s.cfg.bufBytes < len + n then Completed .idle .lengthOutOfRange [] s t
    else Completed .idle .success (s.snap.input.take len ++ List.replicate n (BitVec.ofNat 8 n)) s t

/-- R123, R124: PAD completes with success for every legal block size and every input that fits with its
padding, and the laws of its output. -/
def Obligations.PadOutputLaws : Prop :=
  ∀ s : State, s.cfg.wf = true → s.snap.whole →
    let len := s.snap.len.toNat
    let b := s.snap.bs.toInt.toNat
    0 < s.snap.bs.toInt → s.snap.bs.toInt ≤ 255 → len + (b - len % b) ≤ s.cfg.bufBytes →
    ∃ t out, exec .pad s = .next t ∧ Completed .idle .success out s t ∧ t.dstLen.toNat = out.length ∧
      out.length = len + (b - len % b) ∧ out.length % b = 0 ∧ len < out.length ∧ out.length ≤ len + b ∧
      out.take len = s.snap.input ∧ (len % b = 0 → out.length = len + b) ∧
      ∃ n, EndsInPadding out n ∧ n ≤ b

/-- R130: UNPAD, whole: its checks in order, and its result. -/
def Obligations.UnpadRunsAsSpecified : Prop :=
  ∀ s : State, (s.snap.len.toNat ≤ s.cfg.bufBytes → s.snap.whole) →
    ∃ t, exec .unpad s = .next t ∧
    let len := s.snap.len.toNat
    let b := s.snap.bs.toInt
    let d := s.snap.input
    let n := (d.getD (len - 1) 0).toNat
    if s.cfg.bufBytes < len then Completed .idle .lengthOutOfRange [] s t
    else if b ≤ 0 ∨ 255 < b then Completed .idle .invalidBlockSize [] s t
    else if len = 0 ∨ len % b.toNat ≠ 0 then Completed .idle .invalidPadding [] s t
    else if n = 0 ∨ len < n then Completed .idle .invalidPadding [] s t
    else
      ((∃ i, len - n ≤ i ∧ i < len ∧ (d.getD i 0).toNat ≠ n) →
        Completed .idle .invalidPadding [] s t) ∧
      ((∀ i, len - n ≤ i → i < len → (d.getD i 0).toNat = n) →
        Completed .idle .success (d.take (len - n)) s t)

/-- R131: on every input whose length is a multiple of a legal block size UNPAD accepts exactly the pad
counts 1 to `L`, also of more bytes than the block size, and rejects an input without such a padding. -/
def Obligations.UnpadAcceptsCountsUpToTheLength : Prop :=
  ∀ s : State, s.snap.whole → s.snap.len.toNat ≤ s.cfg.bufBytes →
    0 < s.snap.bs.toInt → s.snap.bs.toInt ≤ 255 → s.snap.len.toNat % s.snap.bs.toInt.toNat = 0 →
    ∃ t, exec .unpad s = .next t ∧
      (∀ n, EndsInPadding s.snap.input n →
        Completed .idle .success (s.snap.input.take (s.snap.len.toNat - n)) s t) ∧
      ((∀ n, ¬ EndsInPadding s.snap.input n) → Completed .idle .invalidPadding [] s t)

/-- R132 (a): UNPAD of what PAD wrote, with the same block size, completes with PAD's input. -/
def Obligations.UnpadUndoesPad : Prop :=
  ∀ s t u : State, s.cfg.wf = true → s.snap.whole → exec .pad s = .next t → t.err = .success →
    u.cfg = s.cfg → u.snap.bs = s.snap.bs → u.snap.len = t.dstLen →
    u.snap.input = t.obuf.bytes t.dstLen.toNat →
    ∃ v, exec .unpad u = .next v ∧ Completed .idle .success s.snap.input u v

/-- R132 (b), (c): a successful UNPAD shortens its input by its count, and PAD of what it wrote gives the
input back exactly when the count is at most the block size. -/
def Obligations.PadUndoesUnpadUpToTheBlockSize : Prop :=
  ∀ s t u v : State, s.cfg.wf = true → s.snap.whole → exec .unpad s = .next t → t.err = .success →
    u.cfg = s.cfg → u.snap.bs = s.snap.bs → u.snap.len = t.dstLen →
    u.snap.input = t.obuf.bytes t.dstLen.toNat → exec .pad u = .next v →
    t.dstLen.toNat < s.snap.len.toNat ∧
    ((v.err = .success ∧ v.obuf.bytes v.dstLen.toNat = s.snap.input) ↔
      s.snap.len.toNat - t.dstLen.toNat ≤ s.snap.bs.toInt.toNat)

/-! ## ENCRYPT and DECRYPT (41_cbc.md) -/

/-- R145: ENCRYPT, whole: its checks in order, its request, its wait, its two endings. -/
def Obligations.EncryptRunsAsSpecified : Prop :=
  ∀ s : State, s.cfg.wf = true → (s.snap.len.toNat ≤ s.cfg.bufBytes → s.snap.whole) →
    ∃ t, exec .encrypt s = .next t ∧
    let len := s.snap.len.toNat
    let b := s.cfg.blockBytes
    let n := b - len % b
    let key := s.snap.key.toList.take s.snap.klen.toNat
    if s.cfg.bufBytes < len then Completed .idle .lengthOutOfRange [] s t
    else if s.snap.klen.toNat ∉ s.cfg.keySizes then Completed .idle .invalidKeySize [] s t
    else if s.cfg.bufBytes < b + len + n then Completed .idle .lengthOutOfRange [] s t
    else
      match s.ent with
      | .none => t = { s with ent := .pending b [] }
      | .pending _ _ => t = s
      | .answered r =>
        (r.length < b → Completed .locked .insufficientEntropy [] s t) ∧
        (r.length = b → ∃ cs,
          CbcEncryption (s.cfg.enc key) b r (s.snap.input ++ List.replicate n (BitVec.ofNat 8 n)) cs ∧
          Completed .idle .success (r ++ cs.flatten) s t)

/-- R146: ENCRYPT with a supported key, a blob that fits and a full draw completes with success, and the
laws of its output. -/
def Obligations.EncryptOutputLaws : Prop :=
  ∀ (s : State) (r : List Byte), s.cfg.wf = true → s.snap.whole →
    let len := s.snap.len.toNat
    let b := s.cfg.blockBytes
    let n := b - len % b
    s.snap.klen.toNat ∈ s.cfg.keySizes → b + len + n ≤ s.cfg.bufBytes →
    s.ent = .answered r → r.length = b →
    ∃ t out, exec .encrypt s = .next t ∧ Completed .idle .success out s t ∧
      t.dstLen.toNat = b + len + n ∧ out.length = t.dstLen.toNat ∧ t.dstLen.toNat % b = 0 ∧
      2 * b ≤ t.dstLen.toNat ∧ (t.dstLen.toNat - b) % b = 0 ∧ out.take b = r ∧
      ∃ cs, out.drop b = cs.flatten ∧
        CbcEncryption (s.cfg.enc (s.snap.key.toList.take s.snap.klen.toNat)) b r
          (s.snap.input ++ List.replicate n (BitVec.ofNat 8 n)) cs

/-- R150: DECRYPT, whole: its checks in order, the decryption, the padding check, and its result. -/
def Obligations.DecryptRunsAsSpecified : Prop :=
  ∀ s : State, s.cfg.wf = true → (s.snap.len.toNat ≤ s.cfg.bufBytes → s.snap.whole) →
    ∃ t, exec .decrypt s = .next t ∧
    let len := s.snap.len.toNat
    let b := s.cfg.blockBytes
    let key := s.snap.key.toList.take s.snap.klen.toNat
    if s.cfg.bufBytes < len then Completed .idle .lengthOutOfRange [] s t
    else if s.snap.klen.toNat ∉ s.cfg.keySizes then Completed .idle .invalidKeySize [] s t
    else if len < 2 * b then Completed .idle .malformedCiphertext [] s t
    else if (len - b) % b ≠ 0 then Completed .idle .invalidCiphertextLength [] s t
    else ∃ ps,
      CbcDecryption (s.cfg.dec key) b (s.snap.input.take b) (s.snap.input.drop b) ps ∧
      let p := ps.flatten
      p.length = len - b ∧
      (∀ n, EndsInPadding p n → Completed .idle .success (p.take (p.length - n)) s t) ∧
      ((∀ n, ¬ EndsInPadding p n) → Completed .idle .invalidPadding [] s t)

/-- R150, success: DECRYPT of a well-framed blob whose decryption is a plaintext followed by a valid
padding completes with that plaintext. -/
def Obligations.DecryptCompletesOnValidPadding : Prop :=
  ∀ (s : State) (p : List Byte) (n : Nat), s.cfg.wf = true → s.snap.whole →
    let len := s.snap.len.toNat
    let b := s.cfg.blockBytes
    len ≤ s.cfg.bufBytes → s.snap.klen.toNat ∈ s.cfg.keySizes → 2 * b ≤ len → len % b = 0 →
    1 ≤ n → n ≤ 255 →
    cbcDecryptBytes s.cfg (s.snap.key.toList.take s.snap.klen.toNat) (s.snap.input.take b)
      (s.snap.input.drop b) = p ++ List.replicate n (BitVec.ofNat 8 n) →
    ∃ t, exec .decrypt s = .next t ∧ Completed .idle .success p s t

/-- R142: CBC decryption is the inverse of CBC encryption for the same key and IV, in both orders. -/
def Obligations.CbcDecryptionInvertsEncryption : Prop :=
  ∀ (cfg : Config.Params) (key iv x : List Byte), cfg.wf = true → iv.length = cfg.blockBytes →
    x.length % cfg.blockBytes = 0 →
    cbcDecryptBytes cfg key iv (cbcEncryptBytes cfg key iv x) = x ∧
    cbcEncryptBytes cfg key iv (cbcDecryptBytes cfg key iv x) = x

/-- R154: ENCRYPT of a plaintext whose blob fits, with a supported key and whatever full draw, completes with
success, and DECRYPT of the blob it wrote, with the same key, completes with the plaintext. -/
def Obligations.DecryptUndoesEncrypt : Prop :=
  ∀ (s u : State) (r : List Byte), s.cfg.wf = true → s.snap.whole →
    s.snap.klen.toNat ∈ s.cfg.keySizes →
    s.cfg.blockBytes + s.snap.len.toNat + (s.cfg.blockBytes - s.snap.len.toNat % s.cfg.blockBytes) ≤
      s.cfg.bufBytes →
    s.ent = .answered r → r.length = s.cfg.blockBytes →
    ∃ t, exec .encrypt s = .next t ∧ t.err = .success ∧
      (u.cfg = s.cfg → u.snap.key = s.snap.key → u.snap.klen = s.snap.klen → u.snap.len = t.dstLen →
        u.snap.input = t.obuf.bytes t.dstLen.toNat →
        ∃ v, exec .decrypt u = .next v ∧ Completed .idle .success s.snap.input u v)

/-- R153: the two consequences of the XOR form: a change of the IV flips the same bits of the first
plaintext block and nothing else; a change of a ciphertext block that is not the last flips the same bits
of the next plaintext block, and leaves every block but its own and that one unchanged. -/
def Obligations.TamperingFlipsThePlaintext : Prop :=
  ∀ (dec : List Byte → List Byte) (iv delta c : List Byte) (cs : List (List Byte)),
    (cbcDecrypt dec (xorBytes iv delta) (c :: cs)).head? =
      (cbcDecrypt dec iv (c :: cs)).head?.map (fun p => xorBytes p delta) ∧
    (cbcDecrypt dec (xorBytes iv delta) (c :: cs)).tail = (cbcDecrypt dec iv (c :: cs)).tail ∧
    ∀ (i : Nat) (x : List Byte), i + 1 < cs.length → cs[i]? = some x →
      let p := cbcDecrypt dec iv cs
      let q := cbcDecrypt dec iv (cs.set i (xorBytes x delta))
      q[i + 1]? = p[i + 1]?.map (fun y => xorBytes y delta) ∧
      (q[i]? = some (xorBytes (dec (xorBytes x delta)) (if i = 0 then iv else cs.getD (i - 1) []))) ∧
      ∀ j, j ≠ i → j ≠ i + 1 → q[j]? = p[j]?

/-! ## RANDHEX and the entropy port (42_random.md) -/

/-- R175: RANDHEX, whole: its check, the empty case, its request, its wait, its two endings. -/
def Obligations.RandhexRunsAsSpecified : Prop :=
  ∀ s : State, ∃ t, exec .randhex s = .next t ∧
    let n := s.snap.len.toNat
    if s.cfg.bufBytes < 2 * n then Completed .idle .lengthOutOfRange [] s t
    else if n = 0 then Completed .idle .success [] s t
    else
      match s.ent with
      | .none => t = { s with ent := .pending n [] }
      | .pending _ _ => t = s
      | .answered r =>
        (r.length < n → Completed .locked .entropySourceFailure [] s t) ∧
        (r.length = n → ∃ out : List Byte, Completed .idle .success out s t ∧ out.length = 2 * n ∧
          ∀ i, i < n → (out.getD (2 * i) 0).toNat = asciiHex ((r.getD i 0).toNat / 16) ∧
            (out.getD (2 * i + 1) 0).toNat = asciiHex ((r.getD i 0).toNat % 16))

/-- R176: RANDHEX with a full draw that fits completes with success, and the laws of its output. -/
def Obligations.RandhexOutputLaws : Prop :=
  ∀ (s : State) (r : List Byte), s.cfg.wf = true →
    let n := s.snap.len.toNat
    0 < n → 2 * n ≤ s.cfg.bufBytes → s.ent = .answered r → r.length = n →
    ∃ t out, exec .randhex s = .next t ∧ Completed .idle .success out s t ∧
      t.dstLen.toNat = 2 * n ∧ out.length = 2 * n ∧
      (∀ x ∈ out, (0x30 ≤ x.toNat ∧ x.toNat ≤ 0x39) ∨ (0x41 ≤ x.toNat ∧ x.toNat ≤ 0x46)) ∧
      ∀ i, i < n → digitOf (out.getD (2 * i) 0).toNat * 16 + digitOf (out.getD (2 * i + 1) 0).toNat =
        (r.getD i 0).toNat

/-- R172: a short draw makes ENCRYPT and RANDHEX fail fatally and lock the core, and the bytes delivered
before the failure are discarded: any two short draws leave the same state. -/
def Obligations.ShortDrawLocksAndIsDiscarded : Prop :=
  ∀ (s : State) (i : Instr) (n : Nat) (r q : List Byte), decode s.snap.cmd = .ok i →
    drawNeeded s.cfg s.snap = some n → r.length < n → q.length < n →
    ∃ t, exec i { s with ent := .answered r } = .next t ∧
      exec i { s with ent := .answered q } = .next t ∧
      Completed .locked (if i = .encrypt then .insufficientEntropy else .entropySourceFailure) [] s t

/-- R171: the bytes of the cycles with ENT_VALID = 1 and ENT_FAIL = 0 are appended in order; the `n`-th one
ends the transaction with exactly those `n` bytes; before it, ENT_FAIL ends it with the bytes delivered so
far, a byte of the same cycle left out. -/
def Obligations.EntropyBytesAreCollectedInOrder : Prop :=
  ∀ (n : Nat) (cycles : List (Bool × Byte)) (v : Bool) (x : Byte), 0 < n →
    let final := cycles.foldl (fun e c => Ent.cycle c.1 c.2 false e) (.pending n [])
    let got := (cycles.filter fun c => c.1).map fun c => c.2
    final = (if got.length < n then .pending n got else .answered (got.take n)) ∧
    (got.length < n → Ent.cycle v x true final = .answered got)

/-- R171, one cycle: in a step of the entropy source only `ent` changes; ENT_FAIL ends a transaction, a valid
byte is appended and the `n`-th one ends it. That a cycle outside a transaction is ignored, and that a pending
transaction (R35 names its `n`) also holds the bytes delivered so far, is the model's reading (log 7). -/
def Obligations.EntropyCycleTouchesOnlyTheTransaction : Prop :=
  ∀ (s : State) (valid fail : Bool) (x : Byte) (rest : List Turn), s.turns = .entropy valid x fail :: rest →
    ∃ e, step s = .next { s with turns := rest, ent := e } ∧
      ((∀ n got, s.ent ≠ .pending n got) → e = s.ent) ∧
      ∀ n got, s.ent = .pending n got →
        (fail = true → e = .answered got) ∧
        (fail = false → valid = false → e = s.ent) ∧
        (fail = false → valid = true → got.length + 1 < n → e = .pending n (got ++ [x])) ∧
        (fail = false → valid = true → n ≤ got.length + 1 → e = .answered (got ++ [x]))

/-- R35, R170, R173: a command asks for entropy only if it is an ENCRYPT or RANDHEX that has passed its
checks, for the bytes it needs; while the request is outstanding such a command changes nothing, so it asks for
nothing more; once it has an answer it completes and never asks again. -/
def Obligations.EntropyIsRequestedOnce : Prop :=
  ∀ (s t : State) (i : Instr), decode s.snap.cmd = .ok i → exec i s = .next t →
    (s.ent = .none → ∀ n got, t.ent = .pending n got →
      (i = .encrypt ∨ i = .randhex) ∧ drawNeeded s.cfg s.snap = some n ∧ got = []) ∧
    (∀ n got, s.ent = .pending n got →
      (drawNeeded s.cfg s.snap ≠ none → t = s) ∧ (drawNeeded s.cfg s.snap = none → t.ent = .none)) ∧
    (∀ r, s.ent = .answered r → t.ent = .none ∧ t.done = true) ∧
    (∀ r, t.ent ≠ .answered r)

/-! ## Errors, completions, the lock (60_exceptions.md) -/

/-- R193: the codes a completed command can report. -/
def Obligations.CommandsReportOnlyTheirCodes : Prop :=
  ∀ (s t : State) (i : Instr), exec i s = .next t → t.ent = .none →
    t.err ∈ (match i with
      | .pad => [.success, .invalidBlockSize, .lengthOutOfRange]
      | .unpad => [.success, .invalidBlockSize, .invalidPadding, .lengthOutOfRange]
      | .encrypt => [.success, .invalidKeySize, .insufficientEntropy, .lengthOutOfRange]
      | .decrypt => [.success, .invalidPadding, .invalidKeySize, .malformedCiphertext,
          .invalidCiphertextLength, .lengthOutOfRange]
      | .randhex => [.success, .entropySourceFailure, .lengthOutOfRange] : List ErrCode)

/-- R34, R198: what a command leaves is a function of the build parameters, the snapshot and the entropy
draw: two states that agree in them complete alike, whatever else they hold. -/
def Obligations.ResultsDependOnSnapshotAndDraw : Prop :=
  ∀ (i : Instr) (s s' t t' : State), s.cfg = s'.cfg → s.snap = s'.snap → s.ent = s'.ent →
    exec i s = .next t → exec i s' = .next t' →
    t.ent = t'.ent ∧
    (t.ent = .none → t.fsm = t'.fsm ∧ t.done = true ∧ t'.done = true ∧ t.err = t'.err ∧
      t.dstLen = t'.dstLen ∧ ∀ a, a < t.dstLen.toNat → t.obuf.byte a = t'.obuf.byte a)

/-- R206, R47: the key is never given back: if two states differ only in the key bank and the snapshot's
key, then so do the states after a step, unless that step runs ENCRYPT or DECRYPT; so no reply, no status
and no byte of OBUF depends on the key. -/
def Obligations.KeyIsNeverGivenBack : Prop :=
  ∀ s s' t : State, SameButKey s s' →
    (s.mover = .core → s.fsm = .busy →
      decode s.snap.cmd ≠ .ok .encrypt ∧ decode s.snap.cmd ≠ .ok .decrypt) →
    step s = .next t → ∃ t', step s' = .next t' ∧ SameButKey t t'

/-- R199, R230: nothing but reset leaves LOCKED, and until then no command runs: the FSM state, ERR, the
result, OBUF and every input keep their values. -/
def Obligations.OnlyResetLeavesLocked : Prop :=
  ∀ s t : State, s.fsm = .locked → s.mover.isReset = false → step s = .next t →
    t.fsm = .locked ∧ t.err = s.err ∧ t.dstLen = s.dstLen ∧ t.obuf = s.obuf ∧ t.ibuf = s.ibuf ∧
    t.blksz = s.blksz ∧ t.srcLen = s.srcLen ∧ t.keyLen = s.keyLen ∧ t.keyb = s.keyb ∧ t.snap = s.snap

/-- R33: the only transitions of `fsm`: IDLE to BUSY on an accepted CMD write, BUSY to IDLE on a completion
with a code that is not fatal, BUSY to LOCKED on one with a fatal code, any state to IDLE on reset. -/
def Obligations.FsmTransitions : Prop :=
  ∀ s t : State, step s = .next t → t.fsm ≠ s.fsm →
    (s.fsm = .idle ∧ t.fsm = .busy ∧
      ∃ w, s.served = some (.write 0x008#14 32 w) ∧ t.snap = s.takeSnapshot w) ∨
    (s.fsm = .busy ∧ t.fsm = .idle ∧ s.mover = .core ∧ t.done = true ∧ t.err.fatal = false) ∨
    (s.fsm = .busy ∧ t.fsm = .locked ∧ s.mover = .core ∧ t.done = true ∧ t.err.fatal = true) ∨
    (t.fsm = .idle ∧ s.mover.isReset = true)

/-- R53, what sets and what clears each flag (not what reads it). BUSY is set by acceptance and cleared by a
completion or reset; DONE is set by a completion and cleared by a STATUS write, acceptance or reset; FATAL
is set by a fatal completion and cleared by reset; WBUSY is set by a dropped write and cleared by a STATUS
write or reset; ERR is changed by a completion, acceptance and reset only, and cleared by the last two. Nothing else changes a flag.
The code a completion puts in ERR is stated with each command and for illegal words, not here. -/
def Obligations.FlagsChangeOnlyAsListed : Prop :=
  ∀ s t : State, step s = .next t →
    let completes := s.mover = .core ∧ s.fsm = .busy ∧ t.fsm ≠ .busy
    let accepts := s.fsm = .idle ∧ ∃ v, s.served = some (.write 0x008#14 32 v)
    let writesStatus (bit : Nat) := ∃ v, s.served = some (.write 0x00C#14 32 v) ∧ v.getLsbD bit = true
    let dropsWrite := s.fsm ≠ .idle ∧
      ∃ off v, s.served = some (.write off 32 v) ∧ DroppedWhenNotIdle s.cfg.bufBytes off
    let resets := s.mover.isReset = true
    (completes → t.busy = false ∧ t.done = true ∧ t.fatal = t.err.fatal ∧ t.wbusy = s.wbusy) ∧
    (accepts → t.busy = true ∧ t.done = false ∧ t.err = .success ∧ t.wbusy = s.wbusy) ∧
    (writesStatus 1 → t.done = false) ∧ (writesStatus 3 → t.wbusy = false) ∧
    (s.cfg.wf = true → dropsWrite → t.wbusy = true) ∧
    (resets → t.busy = false ∧ t.done = false ∧ t.fatal = false ∧ t.wbusy = false ∧ t.err = .success) ∧
    (s.busy = false → t.busy = true → accepts) ∧ (s.busy = true → t.busy = false → completes ∨ resets) ∧
    (s.done = false → t.done = true → completes) ∧
    (s.done = true → t.done = false → writesStatus 1 ∨ accepts ∨ resets) ∧
    (s.fatal = false → t.fatal = true → completes) ∧ (s.fatal = true → t.fatal = false → resets) ∧
    (s.wbusy = false → t.wbusy = true → dropsWrite) ∧
    (s.wbusy = true → t.wbusy = false → writesStatus 3 ∨ resets) ∧
    (t.err ≠ s.err → completes ∨ accepts ∨ resets)

/-- R52: IRQ is IRQ_EN AND DONE; it is up after a completion with IRQ_EN = 1, and down after DONE is
cleared, IRQ_EN is written 0, an acceptance or a reset. -/
def Obligations.IrqFollowsDoneAndEnable : Prop :=
  ∀ s t : State, step s = .next t →
    (s.irq = true ↔ s.irqEn = true ∧ s.done = true) ∧
    (s.mover = .core → s.fsm = .busy → t.fsm ≠ .busy → t.irq = s.irqEn) ∧
    (s.mover = .host → s.fsm = .idle → t.fsm = .busy → t.irq = false) ∧
    (s.mover.isReset = true → t.irq = false) ∧
    (∀ v, s.served = some (.write 0x00C#14 32 v) → v.getLsbD 1 = true → t.irq = false) ∧
    (∀ v, s.served = some (.write 0x004#14 32 v) → v.getLsbD 0 = false → t.irq = false)

/-- R37: from acceptance to completion no step changes a value the running command reads, and the core
itself never writes one. -/
def Obligations.InputsAreStableWhileBusy : Prop :=
  ∀ s t : State, step s = .next t → s.mover = .core ∨ (s.fsm = .busy ∧ t.fsm = .busy) →
    t.blksz = s.blksz ∧ t.srcLen = s.srcLen ∧ t.keyLen = s.keyLen ∧ t.keyb = s.keyb ∧ t.ibuf = s.ibuf ∧
    t.snap = s.snap

/-- R86, R50, R51, R46: OBUF is written by completions only, IBUF by host writes in IDLE only, DST_LEN by
completions, acceptance and reset only. Two exceptions are the model's reading: a reset step makes OBUF
unspecified (R232, R233 against R51's "Reset does not change OBUF"; log 4), and a power-on step makes IBUF
unspecified (R232; log 10). -/
def Obligations.BuffersHaveOneWriter : Prop :=
  ∀ s t : State, step s = .next t →
    (t.obuf ≠ s.obuf → (s.mover = .core ∧ s.fsm = .busy ∧ t.done = true) ∨ s.mover.isReset = true) ∧
    (t.ibuf ≠ s.ibuf → (s.fsm = .idle ∧ ∃ off v,
        s.served = some (.write off 32 v) ∧ 0x1000 ≤ off.toNat ∧ off.toNat < 0x1000 + s.cfg.bufBytes) ∨
      s.mover = .powerOn) ∧
    (t.dstLen ≠ s.dstLen → (s.mover = .core ∧ s.fsm = .busy ∧ t.done = true) ∨
      (s.mover = .host ∧ s.fsm = .idle ∧ t.fsm = .busy) ∨ s.mover.isReset = true)

/-- R91: the host's turn serves the first waiting access and no other (a POLL whose condition is not met
stays first, R106), unless the host's program has faulted (R81); the step leaves all that the access leaves, its
effect and its response, and no other step touches the waiting accesses or the reply. That an ERROR reply takes a POLL off the list, and that the reply is kept over a reset, is the
model's choice (log 9). -/
def Obligations.AccessesAreServedInPortOrder : Prop :=
  ∀ s t : State, step s = .next t →
    (s.mover = .host → s.hostFaulted = false → s.served = s.host.head?) ∧
    (s.served = none → t.host = s.host ∧ t.reply = s.reply) ∧
    (s.served = none → s.mover = .host → t = { s with turns := s.turns.tail }) ∧
    (∀ off size, s.served = some (.read off size) →
      s.host = .read off size :: t.host ∧
      t = { s.busRead off size with host := s.host.tail, turns := s.turns.tail }) ∧
    (∀ off size v, s.served = some (.write off size v) →
      s.host = .write off size v :: t.host ∧
      t = { s.busWrite off size v with host := s.host.tail, turns := s.turns.tail }) ∧
    (∀ off mask value, s.served = some (.poll off mask value) →
      t = { s.busRead off 32 with host := t.host, turns := s.turns.tail } ∧
      ((∃ w, t.reply = some (.data w) ∧ w &&& mask ≠ value) → t.host = s.host) ∧
      ((¬ ∃ w, t.reply = some (.data w) ∧ w &&& mask ≠ value) → s.host = .poll off mask value :: t.host))

/-! ## Reset, the entropy wait, invariants (70_reset_and_hazards.md) -/

/-- R231, R233: a reset step takes every register of the core to its reset value, abandons a running
command without completion and withdraws an entropy request; IBUF is kept. That every byte of OBUF is a
free value of a fresh draw afterwards is the model's choice (log 4). -/
def Obligations.ResetTakesTheResetValues : Prop :=
  ∀ (s : State) (rest : List Turn), s.turns = .reset :: rest →
    ∃ t, step s = .next t ∧ t.fsm = .idle ∧ t.irqEn = false ∧ t.statusWord = 0#32 ∧
      t.err = .success ∧ t.blksz = 0x10#32 ∧ t.srcLen = 0#32 ∧ t.dstLen = 0#32 ∧ t.keyLen = 0#32 ∧
      (∀ i (h : i < 32), t.keyb[i] = 0#8) ∧ t.ent = .none ∧ t.ent.req = false ∧ t.irq = false ∧
      t.ibuf = s.ibuf ∧ t.cfg = s.cfg ∧ t.host = s.host ∧ t.turns = rest ∧
      ∀ a, t.obuf.byte a = Config.freeByte s.draws a

/-- R231: what the registers read as right after `State.reset` (test vector H-1). -/
def Obligations.RegistersReadTheirResetValues : Prop :=
  (State.reset.busRead 0x000#14 32).reply = some (.data 0x50430700#32) ∧
  (State.reset.busRead 0x004#14 32).reply = some (.data 0#32) ∧
  (State.reset.busRead 0x008#14 32).reply = some (.data 0#32) ∧
  (State.reset.busRead 0x00C#14 32).reply = some (.data 0#32) ∧
  (State.reset.busRead 0x010#14 32).reply = some (.data 0x10#32) ∧
  (State.reset.busRead 0x014#14 32).reply = some (.data 0#32) ∧
  (State.reset.busRead 0x018#14 32).reply = some (.data 0#32) ∧
  (State.reset.busRead 0x01C#14 32).reply = some (.data 0#32) ∧
  (∀ k < 8, (State.reset.busRead (BitVec.ofNat 14 (0x020 + 4 * k)) 32).reply = some (.data 0#32)) ∧
  State.reset.irq = false

/-- R232: after power-on every byte of IBUF and of OBUF is unspecified: a free value of a fresh draw, the two
draws being different ones; everything else is as after a reset. -/
def Obligations.PowerOnLeavesBuffersUnspecified : Prop :=
  ∀ (s : State) (rest : List Turn), s.turns = .powerOn :: rest →
    ∃ t d, step s = .next t ∧ s.draws ≤ d ∧ d ≠ s.draws ∧
      (∀ a, t.obuf.byte a = Config.freeByte s.draws a) ∧ (∀ a, t.ibuf.byte a = Config.freeByte d a) ∧
      step { s with turns := .reset :: rest } = .next { t with ibuf := s.ibuf, draws := s.draws + 1 }

/-- R245, R35: in its turn a BUSY core completes its command at once if the command needs no entropy or has
its answer; a command that needs entropy and has not asked asks for the bytes it needs. -/
def Obligations.EnabledCommandCompletes : Prop :=
  ∀ s : State, s.Inv → s.fsm = .busy → s.mover = .core →
    ∃ t, step s = .next t ∧
      (drawNeeded s.cfg s.snap = none → t.fsm = .idle ∧ t.done = true ∧ t.ent = .none) ∧
      (∀ r, s.ent = .answered r → t.fsm ≠ .busy ∧ t.done = true ∧ t.ent = .none) ∧
      (∀ n, drawNeeded s.cfg s.snap = some n → s.ent = .none →
        t = { s with ent := .pending n [], turns := s.turns.tail } ∧ 1 ≤ n ∧ n ≤ 2048)

/-- R247: a command whose entropy request is never answered stays BUSY: however many steps are taken, with
turns of the host and the core only, the core is BUSY, the request stands as it was and DONE is 0. -/
def Obligations.UnansweredRequestStaysBusy : Prop :=
  ∀ (k : Nat) (s : State) (n : Nat) (got : List Byte), s.Inv → s.ent = .pending n got →
    (∀ t ∈ s.turns, t = .host ∨ t = .core) →
    ∃ t, Host.Core.run Sys2Proof.core k s = .next t ∧ t.fsm = .busy ∧ t.ent = .pending n got ∧
      t.done = false

/-- R244: after an accepted CMD write, until a STATUS write clears DONE, another command is accepted or the
core is reset, the core is BUSY with DONE = 0 or not BUSY with DONE = 1. -/
def Obligations.BusyOrDoneAfterAcceptance : Prop :=
  ∀ s t : State, s.Inv → step s = .next t →
    (s.fsm = .busy ∨ s.done = true) → s.mover.isReset = false →
    (∀ v, s.served = some (.write 0x00C#14 32 v) → v.getLsbD 1 = false) →
    (t.fsm = .busy ∧ t.done = false) ∨ (t.fsm ≠ .busy ∧ t.done = true)

/-- The invariant holds right after reset. -/
def Obligations.InvariantHoldsAtReset : Prop := State.reset.Inv

/-- Every step keeps the invariant, and the build parameters: legal parameters, both buffers in canonical
form, DST_LEN within BUF_BYTES and 0 after an error, the snapshot equal to the live inputs while BUSY, the
fatal codes exactly in LOCKED, the entropy transaction that of the running command, every draw fresh. -/
def Obligations.EveryStepKeepsTheInvariant : Prop :=
  ∀ s t : State, s.Inv → step s = .next t → t.Inv ∧ t.cfg = s.cfg

/-- From every state that meets the invariant, every run is safe. -/
def Obligations.EveryRunIsSafe : Prop := ∀ s : State, s.Inv → s.Safe

/-! ## The ports (10_state.md R60, R61; 20_memory.md R81; 42_random.md R171) -/

/-- R61, R171: the entropy port's outputs. ENT_REQ rises only where a BUSY core's command needs a draw, with that
number of bytes on ENT_LEN; while ENT_REQ is 1 ENT_LEN is the number of bytes the command needs, held; and both
are held until the transaction ends by its answer or is withdrawn by reset. -/
def Obligations.EntropyPortShowsTheRequest : Prop :=
  ∀ s t : State, s.Inv → step s = .next t →
    (s.ent.req = false → t.ent.req = true → s.mover = .core ∧ s.fsm = .busy) ∧
    (t.ent.req = true → ∃ w n, t.ent.len = some w ∧ drawNeeded t.cfg t.snap = some n ∧ w.toNat = n) ∧
    (s.ent.req = true →
      (t.ent.req = true ∧ t.ent.len = s.ent.len) ∨
      (t.ent.req = false ∧ s.mover.isReset = true) ∨
      (t.ent.req = false ∧ (∃ r, t.ent = .answered r) ∧ ∃ v x f, s.mover = .entropy v x f))

/-- R81, R82: the host's program faults exactly where the access it makes is answered ERROR, which changes
nothing else of the machine but the host's list; from then on it makes no access (93_implementation_defined.md
I16: "the model stops the run, or the host agent"). The core is not stopped: every step that is not the host's
goes on as if the reply were another. That nothing restarts a faulted program is the model's choice (log 9). -/
def Obligations.BusErrorFaultsTheHostProgram : Prop :=
  ∀ s t : State, s.cfg.wf = true → step s = .next t →
    let bad (off : Offset) (size : Nat) := size ≠ 32 ∨ off.toNat % 4 ≠ 0 ∨
      (0x040 ≤ off.toNat ∧ off.toNat ≤ 0x0FFF) ∨ (0x1000 + s.cfg.bufBytes ≤ off.toNat ∧ off.toNat ≤ 0x1FFF) ∨
      (0x2000 + s.cfg.bufBytes ≤ off.toNat ∧ off.toNat ≤ 0x2FFF) ∨ 0x3000 ≤ off.toNat
    (s.hostFaulted = true ↔ s.reply = some .error) ∧
    (s.hostFaulted = false → (t.hostFaulted = true ↔
      (∃ off size, s.served = some (.read off size) ∧ bad off size) ∨
      (∃ off size v, s.served = some (.write off size v) ∧ bad off size) ∨
      (∃ off mask value, s.served = some (.poll off mask value) ∧ bad off 32))) ∧
    (s.hostFaulted = false → t.hostFaulted = true →
      t = { s with turns := s.turns.tail, host := s.host.tail, reply := some .error }) ∧
    (s.hostFaulted = true → t.hostFaulted = true ∧ t.host = s.host ∧
      (s.mover = .host → t = { s with turns := s.turns.tail })) ∧
    (s.mover ≠ .host → ∀ r, step { s with reply := r } = .next { t with reply := r })

/-- R199, 93_implementation_defined.md I5: reads while LOCKED. STATUS reads FATAL = 1 and BUSY = 0, DST_LEN reads
0 in every state the invariant allows, and an OBUF read returns a free value drawn afresh: reading again
returns that of another draw. -/
def Obligations.ReadsWhileLocked : Prop :=
  ∀ (s : State) (j : Nat), s.Inv → s.fsm = .locked → 4 * j < s.cfg.bufBytes →
    let off := BitVec.ofNat 14 (0x2000 + 4 * j)
    (∃ w : Word, (s.busRead 0x00C#14 32).reply = some (.data w) ∧ w.getLsbD 0 = false ∧ w.getLsbD 2 = true) ∧
    (s.busRead 0x018#14 32).reply = some (.data 0#32) ∧
    s.busRead off 32 = { s with reply := some (.data (Config.freeWord s.draws)), draws := s.draws + 1 } ∧
    ((s.busRead off 32).busRead off 32).reply = some (.data (Config.freeWord (s.draws + 1)))
end

