-- ==== Sys2Proof/Laws/State.lean ====
section
/-! SUPPORT. One lemma per field of State for every named update, true by rfl, so that no proof unfolds a
record update. -/

namespace Sys2Proof.Machine.State

@[simp] theorem completeSuccess_eq (out : List Byte) (s : State) :
    s.completeSuccess out = s.finish .idle .success out := rfl
@[simp] theorem completeError_eq (c : ErrCode) (s : State) : s.completeError c = s.finish .idle c [] := rfl
@[simp] theorem completeFatal_eq (c : ErrCode) (s : State) : s.completeFatal c = s.finish .locked c [] := rfl

/-! ### accept -/

@[simp] theorem accept_cfg (w : Word) (s : State) : (s.accept w).cfg = s.cfg := rfl
@[simp] theorem accept_fsm (w : Word) (s : State) : (s.accept w).fsm = .busy := rfl
@[simp] theorem accept_irqEn (w : Word) (s : State) : (s.accept w).irqEn = s.irqEn := rfl
@[simp] theorem accept_done (w : Word) (s : State) : (s.accept w).done = false := rfl
@[simp] theorem accept_wbusy (w : Word) (s : State) : (s.accept w).wbusy = s.wbusy := rfl
@[simp] theorem accept_err (w : Word) (s : State) : (s.accept w).err = .success := rfl
@[simp] theorem accept_blksz (w : Word) (s : State) : (s.accept w).blksz = s.blksz := rfl
@[simp] theorem accept_srcLen (w : Word) (s : State) : (s.accept w).srcLen = s.srcLen := rfl
@[simp] theorem accept_dstLen (w : Word) (s : State) : (s.accept w).dstLen = 0 := rfl
@[simp] theorem accept_keyLen (w : Word) (s : State) : (s.accept w).keyLen = s.keyLen := rfl
@[simp] theorem accept_keyb (w : Word) (s : State) : (s.accept w).keyb = s.keyb := rfl
@[simp] theorem accept_ibuf (w : Word) (s : State) : (s.accept w).ibuf = s.ibuf := rfl
@[simp] theorem accept_obuf (w : Word) (s : State) : (s.accept w).obuf = s.obuf := rfl
@[simp] theorem accept_snap (w : Word) (s : State) : (s.accept w).snap = s.takeSnapshot w := rfl
@[simp] theorem accept_ent (w : Word) (s : State) : (s.accept w).ent = s.ent := rfl
@[simp] theorem accept_reply (w : Word) (s : State) : (s.accept w).reply = s.reply := rfl
@[simp] theorem accept_host (w : Word) (s : State) : (s.accept w).host = s.host := rfl
@[simp] theorem accept_turns (w : Word) (s : State) : (s.accept w).turns = s.turns := rfl
@[simp] theorem accept_draws (w : Word) (s : State) : (s.accept w).draws = s.draws := rfl

/-! ### dropWrite -/

@[simp] theorem dropWrite_cfg (s : State) : (s.dropWrite).cfg = s.cfg := rfl
@[simp] theorem dropWrite_fsm (s : State) : (s.dropWrite).fsm = s.fsm := rfl
@[simp] theorem dropWrite_irqEn (s : State) : (s.dropWrite).irqEn = s.irqEn := rfl
@[simp] theorem dropWrite_done (s : State) : (s.dropWrite).done = s.done := rfl
@[simp] theorem dropWrite_wbusy (s : State) : (s.dropWrite).wbusy = true := rfl
@[simp] theorem dropWrite_err (s : State) : (s.dropWrite).err = s.err := rfl
@[simp] theorem dropWrite_blksz (s : State) : (s.dropWrite).blksz = s.blksz := rfl
@[simp] theorem dropWrite_srcLen (s : State) : (s.dropWrite).srcLen = s.srcLen := rfl
@[simp] theorem dropWrite_dstLen (s : State) : (s.dropWrite).dstLen = s.dstLen := rfl
@[simp] theorem dropWrite_keyLen (s : State) : (s.dropWrite).keyLen = s.keyLen := rfl
@[simp] theorem dropWrite_keyb (s : State) : (s.dropWrite).keyb = s.keyb := rfl
@[simp] theorem dropWrite_ibuf (s : State) : (s.dropWrite).ibuf = s.ibuf := rfl
@[simp] theorem dropWrite_obuf (s : State) : (s.dropWrite).obuf = s.obuf := rfl
@[simp] theorem dropWrite_snap (s : State) : (s.dropWrite).snap = s.snap := rfl
@[simp] theorem dropWrite_ent (s : State) : (s.dropWrite).ent = s.ent := rfl
@[simp] theorem dropWrite_reply (s : State) : (s.dropWrite).reply = s.reply := rfl
@[simp] theorem dropWrite_host (s : State) : (s.dropWrite).host = s.host := rfl
@[simp] theorem dropWrite_turns (s : State) : (s.dropWrite).turns = s.turns := rfl
@[simp] theorem dropWrite_draws (s : State) : (s.dropWrite).draws = s.draws := rfl

/-! ### finish -/

@[simp] theorem finish_cfg (f : Fsm) (c : ErrCode) (out : List Byte) (s : State) : (s.finish f c out).cfg = s.cfg := rfl
@[simp] theorem finish_fsm (f : Fsm) (c : ErrCode) (out : List Byte) (s : State) : (s.finish f c out).fsm = f := rfl
@[simp] theorem finish_irqEn (f : Fsm) (c : ErrCode) (out : List Byte) (s : State) : (s.finish f c out).irqEn = s.irqEn := rfl
@[simp] theorem finish_done (f : Fsm) (c : ErrCode) (out : List Byte) (s : State) : (s.finish f c out).done = true := rfl
@[simp] theorem finish_wbusy (f : Fsm) (c : ErrCode) (out : List Byte) (s : State) : (s.finish f c out).wbusy = s.wbusy := rfl
@[simp] theorem finish_err (f : Fsm) (c : ErrCode) (out : List Byte) (s : State) : (s.finish f c out).err = c := rfl
@[simp] theorem finish_blksz (f : Fsm) (c : ErrCode) (out : List Byte) (s : State) : (s.finish f c out).blksz = s.blksz := rfl
@[simp] theorem finish_srcLen (f : Fsm) (c : ErrCode) (out : List Byte) (s : State) : (s.finish f c out).srcLen = s.srcLen := rfl
@[simp] theorem finish_dstLen (f : Fsm) (c : ErrCode) (out : List Byte) (s : State) : (s.finish f c out).dstLen = BitVec.ofNat 32 out.length := rfl
@[simp] theorem finish_keyLen (f : Fsm) (c : ErrCode) (out : List Byte) (s : State) : (s.finish f c out).keyLen = s.keyLen := rfl
@[simp] theorem finish_keyb (f : Fsm) (c : ErrCode) (out : List Byte) (s : State) : (s.finish f c out).keyb = s.keyb := rfl
@[simp] theorem finish_ibuf (f : Fsm) (c : ErrCode) (out : List Byte) (s : State) : (s.finish f c out).ibuf = s.ibuf := rfl
@[simp] theorem finish_obuf (f : Fsm) (c : ErrCode) (out : List Byte) (s : State) : (s.finish f c out).obuf = .holding out s.draws := rfl
@[simp] theorem finish_snap (f : Fsm) (c : ErrCode) (out : List Byte) (s : State) : (s.finish f c out).snap = s.snap := rfl
@[simp] theorem finish_ent (f : Fsm) (c : ErrCode) (out : List Byte) (s : State) : (s.finish f c out).ent = .none := rfl
@[simp] theorem finish_reply (f : Fsm) (c : ErrCode) (out : List Byte) (s : State) : (s.finish f c out).reply = s.reply := rfl
@[simp] theorem finish_host (f : Fsm) (c : ErrCode) (out : List Byte) (s : State) : (s.finish f c out).host = s.host := rfl
@[simp] theorem finish_turns (f : Fsm) (c : ErrCode) (out : List Byte) (s : State) : (s.finish f c out).turns = s.turns := rfl
@[simp] theorem finish_draws (f : Fsm) (c : ErrCode) (out : List Byte) (s : State) : (s.finish f c out).draws = s.draws + 1 := rfl

/-! ### requestEntropy -/

@[simp] theorem requestEntropy_cfg (n : Nat) (s : State) : (s.requestEntropy n).cfg = s.cfg := rfl
@[simp] theorem requestEntropy_fsm (n : Nat) (s : State) : (s.requestEntropy n).fsm = s.fsm := rfl
@[simp] theorem requestEntropy_irqEn (n : Nat) (s : State) : (s.requestEntropy n).irqEn = s.irqEn := rfl
@[simp] theorem requestEntropy_done (n : Nat) (s : State) : (s.requestEntropy n).done = s.done := rfl
@[simp] theorem requestEntropy_wbusy (n : Nat) (s : State) : (s.requestEntropy n).wbusy = s.wbusy := rfl
@[simp] theorem requestEntropy_err (n : Nat) (s : State) : (s.requestEntropy n).err = s.err := rfl
@[simp] theorem requestEntropy_blksz (n : Nat) (s : State) : (s.requestEntropy n).blksz = s.blksz := rfl
@[simp] theorem requestEntropy_srcLen (n : Nat) (s : State) : (s.requestEntropy n).srcLen = s.srcLen := rfl
@[simp] theorem requestEntropy_dstLen (n : Nat) (s : State) : (s.requestEntropy n).dstLen = s.dstLen := rfl
@[simp] theorem requestEntropy_keyLen (n : Nat) (s : State) : (s.requestEntropy n).keyLen = s.keyLen := rfl
@[simp] theorem requestEntropy_keyb (n : Nat) (s : State) : (s.requestEntropy n).keyb = s.keyb := rfl
@[simp] theorem requestEntropy_ibuf (n : Nat) (s : State) : (s.requestEntropy n).ibuf = s.ibuf := rfl
@[simp] theorem requestEntropy_obuf (n : Nat) (s : State) : (s.requestEntropy n).obuf = s.obuf := rfl
@[simp] theorem requestEntropy_snap (n : Nat) (s : State) : (s.requestEntropy n).snap = s.snap := rfl
@[simp] theorem requestEntropy_ent (n : Nat) (s : State) : (s.requestEntropy n).ent = .pending n [] := rfl
@[simp] theorem requestEntropy_reply (n : Nat) (s : State) : (s.requestEntropy n).reply = s.reply := rfl
@[simp] theorem requestEntropy_host (n : Nat) (s : State) : (s.requestEntropy n).host = s.host := rfl
@[simp] theorem requestEntropy_turns (n : Nat) (s : State) : (s.requestEntropy n).turns = s.turns := rfl
@[simp] theorem requestEntropy_draws (n : Nat) (s : State) : (s.requestEntropy n).draws = s.draws := rfl

/-! ### entropyTurn -/

@[simp] theorem entropyTurn_cfg (v : Bool) (x : Byte) (f : Bool) (s : State) : (s.entropyTurn v x f).cfg = s.cfg := rfl
@[simp] theorem entropyTurn_fsm (v : Bool) (x : Byte) (f : Bool) (s : State) : (s.entropyTurn v x f).fsm = s.fsm := rfl
@[simp] theorem entropyTurn_irqEn (v : Bool) (x : Byte) (f : Bool) (s : State) : (s.entropyTurn v x f).irqEn = s.irqEn := rfl
@[simp] theorem entropyTurn_done (v : Bool) (x : Byte) (f : Bool) (s : State) : (s.entropyTurn v x f).done = s.done := rfl
@[simp] theorem entropyTurn_wbusy (v : Bool) (x : Byte) (f : Bool) (s : State) : (s.entropyTurn v x f).wbusy = s.wbusy := rfl
@[simp] theorem entropyTurn_err (v : Bool) (x : Byte) (f : Bool) (s : State) : (s.entropyTurn v x f).err = s.err := rfl
@[simp] theorem entropyTurn_blksz (v : Bool) (x : Byte) (f : Bool) (s : State) : (s.entropyTurn v x f).blksz = s.blksz := rfl
@[simp] theorem entropyTurn_srcLen (v : Bool) (x : Byte) (f : Bool) (s : State) : (s.entropyTurn v x f).srcLen = s.srcLen := rfl
@[simp] theorem entropyTurn_dstLen (v : Bool) (x : Byte) (f : Bool) (s : State) : (s.entropyTurn v x f).dstLen = s.dstLen := rfl
@[simp] theorem entropyTurn_keyLen (v : Bool) (x : Byte) (f : Bool) (s : State) : (s.entropyTurn v x f).keyLen = s.keyLen := rfl
@[simp] theorem entropyTurn_keyb (v : Bool) (x : Byte) (f : Bool) (s : State) : (s.entropyTurn v x f).keyb = s.keyb := rfl
@[simp] theorem entropyTurn_ibuf (v : Bool) (x : Byte) (f : Bool) (s : State) : (s.entropyTurn v x f).ibuf = s.ibuf := rfl
@[simp] theorem entropyTurn_obuf (v : Bool) (x : Byte) (f : Bool) (s : State) : (s.entropyTurn v x f).obuf = s.obuf := rfl
@[simp] theorem entropyTurn_snap (v : Bool) (x : Byte) (f : Bool) (s : State) : (s.entropyTurn v x f).snap = s.snap := rfl
@[simp] theorem entropyTurn_ent (v : Bool) (x : Byte) (f : Bool) (s : State) : (s.entropyTurn v x f).ent = s.ent.cycle v x f := rfl
@[simp] theorem entropyTurn_reply (v : Bool) (x : Byte) (f : Bool) (s : State) : (s.entropyTurn v x f).reply = s.reply := rfl
@[simp] theorem entropyTurn_host (v : Bool) (x : Byte) (f : Bool) (s : State) : (s.entropyTurn v x f).host = s.host := rfl
@[simp] theorem entropyTurn_turns (v : Bool) (x : Byte) (f : Bool) (s : State) : (s.entropyTurn v x f).turns = s.turns := rfl
@[simp] theorem entropyTurn_draws (v : Bool) (x : Byte) (f : Bool) (s : State) : (s.entropyTurn v x f).draws = s.draws := rfl

/-! ### writeCtrl -/

@[simp] theorem writeCtrl_cfg (v : Word) (s : State) : (s.writeCtrl v).cfg = s.cfg := rfl
@[simp] theorem writeCtrl_fsm (v : Word) (s : State) : (s.writeCtrl v).fsm = s.fsm := rfl
@[simp] theorem writeCtrl_irqEn (v : Word) (s : State) : (s.writeCtrl v).irqEn = v.getLsbD 0 := rfl
@[simp] theorem writeCtrl_done (v : Word) (s : State) : (s.writeCtrl v).done = s.done := rfl
@[simp] theorem writeCtrl_wbusy (v : Word) (s : State) : (s.writeCtrl v).wbusy = s.wbusy := rfl
@[simp] theorem writeCtrl_err (v : Word) (s : State) : (s.writeCtrl v).err = s.err := rfl
@[simp] theorem writeCtrl_blksz (v : Word) (s : State) : (s.writeCtrl v).blksz = s.blksz := rfl
@[simp] theorem writeCtrl_srcLen (v : Word) (s : State) : (s.writeCtrl v).srcLen = s.srcLen := rfl
@[simp] theorem writeCtrl_dstLen (v : Word) (s : State) : (s.writeCtrl v).dstLen = s.dstLen := rfl
@[simp] theorem writeCtrl_keyLen (v : Word) (s : State) : (s.writeCtrl v).keyLen = s.keyLen := rfl
@[simp] theorem writeCtrl_keyb (v : Word) (s : State) : (s.writeCtrl v).keyb = s.keyb := rfl
@[simp] theorem writeCtrl_ibuf (v : Word) (s : State) : (s.writeCtrl v).ibuf = s.ibuf := rfl
@[simp] theorem writeCtrl_obuf (v : Word) (s : State) : (s.writeCtrl v).obuf = s.obuf := rfl
@[simp] theorem writeCtrl_snap (v : Word) (s : State) : (s.writeCtrl v).snap = s.snap := rfl
@[simp] theorem writeCtrl_ent (v : Word) (s : State) : (s.writeCtrl v).ent = s.ent := rfl
@[simp] theorem writeCtrl_reply (v : Word) (s : State) : (s.writeCtrl v).reply = s.reply := rfl
@[simp] theorem writeCtrl_host (v : Word) (s : State) : (s.writeCtrl v).host = s.host := rfl
@[simp] theorem writeCtrl_turns (v : Word) (s : State) : (s.writeCtrl v).turns = s.turns := rfl
@[simp] theorem writeCtrl_draws (v : Word) (s : State) : (s.writeCtrl v).draws = s.draws := rfl

/-! ### writeStatus -/

@[simp] theorem writeStatus_cfg (v : Word) (s : State) : (s.writeStatus v).cfg = s.cfg := rfl
@[simp] theorem writeStatus_fsm (v : Word) (s : State) : (s.writeStatus v).fsm = s.fsm := rfl
@[simp] theorem writeStatus_irqEn (v : Word) (s : State) : (s.writeStatus v).irqEn = s.irqEn := rfl
@[simp] theorem writeStatus_done (v : Word) (s : State) : (s.writeStatus v).done = (s.done && !v.getLsbD 1) := rfl
@[simp] theorem writeStatus_wbusy (v : Word) (s : State) : (s.writeStatus v).wbusy = (s.wbusy && !v.getLsbD 3) := rfl
@[simp] theorem writeStatus_err (v : Word) (s : State) : (s.writeStatus v).err = s.err := rfl
@[simp] theorem writeStatus_blksz (v : Word) (s : State) : (s.writeStatus v).blksz = s.blksz := rfl
@[simp] theorem writeStatus_srcLen (v : Word) (s : State) : (s.writeStatus v).srcLen = s.srcLen := rfl
@[simp] theorem writeStatus_dstLen (v : Word) (s : State) : (s.writeStatus v).dstLen = s.dstLen := rfl
@[simp] theorem writeStatus_keyLen (v : Word) (s : State) : (s.writeStatus v).keyLen = s.keyLen := rfl
@[simp] theorem writeStatus_keyb (v : Word) (s : State) : (s.writeStatus v).keyb = s.keyb := rfl
@[simp] theorem writeStatus_ibuf (v : Word) (s : State) : (s.writeStatus v).ibuf = s.ibuf := rfl
@[simp] theorem writeStatus_obuf (v : Word) (s : State) : (s.writeStatus v).obuf = s.obuf := rfl
@[simp] theorem writeStatus_snap (v : Word) (s : State) : (s.writeStatus v).snap = s.snap := rfl
@[simp] theorem writeStatus_ent (v : Word) (s : State) : (s.writeStatus v).ent = s.ent := rfl
@[simp] theorem writeStatus_reply (v : Word) (s : State) : (s.writeStatus v).reply = s.reply := rfl
@[simp] theorem writeStatus_host (v : Word) (s : State) : (s.writeStatus v).host = s.host := rfl
@[simp] theorem writeStatus_turns (v : Word) (s : State) : (s.writeStatus v).turns = s.turns := rfl
@[simp] theorem writeStatus_draws (v : Word) (s : State) : (s.writeStatus v).draws = s.draws := rfl

/-! ### answer -/

@[simp] theorem answer_cfg (r : Reply) (s : State) : (s.answer r).cfg = s.cfg := rfl
@[simp] theorem answer_fsm (r : Reply) (s : State) : (s.answer r).fsm = s.fsm := rfl
@[simp] theorem answer_irqEn (r : Reply) (s : State) : (s.answer r).irqEn = s.irqEn := rfl
@[simp] theorem answer_done (r : Reply) (s : State) : (s.answer r).done = s.done := rfl
@[simp] theorem answer_wbusy (r : Reply) (s : State) : (s.answer r).wbusy = s.wbusy := rfl
@[simp] theorem answer_err (r : Reply) (s : State) : (s.answer r).err = s.err := rfl
@[simp] theorem answer_blksz (r : Reply) (s : State) : (s.answer r).blksz = s.blksz := rfl
@[simp] theorem answer_srcLen (r : Reply) (s : State) : (s.answer r).srcLen = s.srcLen := rfl
@[simp] theorem answer_dstLen (r : Reply) (s : State) : (s.answer r).dstLen = s.dstLen := rfl
@[simp] theorem answer_keyLen (r : Reply) (s : State) : (s.answer r).keyLen = s.keyLen := rfl
@[simp] theorem answer_keyb (r : Reply) (s : State) : (s.answer r).keyb = s.keyb := rfl
@[simp] theorem answer_ibuf (r : Reply) (s : State) : (s.answer r).ibuf = s.ibuf := rfl
@[simp] theorem answer_obuf (r : Reply) (s : State) : (s.answer r).obuf = s.obuf := rfl
@[simp] theorem answer_snap (r : Reply) (s : State) : (s.answer r).snap = s.snap := rfl
@[simp] theorem answer_ent (r : Reply) (s : State) : (s.answer r).ent = s.ent := rfl
@[simp] theorem answer_reply (r : Reply) (s : State) : (s.answer r).reply = some r := rfl
@[simp] theorem answer_host (r : Reply) (s : State) : (s.answer r).host = s.host := rfl
@[simp] theorem answer_turns (r : Reply) (s : State) : (s.answer r).turns = s.turns := rfl
@[simp] theorem answer_draws (r : Reply) (s : State) : (s.answer r).draws = s.draws := rfl

/-! ### resetCore -/

@[simp] theorem resetCore_cfg (s : State) : (s.resetCore).cfg = s.cfg := rfl
@[simp] theorem resetCore_fsm (s : State) : (s.resetCore).fsm = .idle := rfl
@[simp] theorem resetCore_irqEn (s : State) : (s.resetCore).irqEn = false := rfl
@[simp] theorem resetCore_done (s : State) : (s.resetCore).done = false := rfl
@[simp] theorem resetCore_wbusy (s : State) : (s.resetCore).wbusy = false := rfl
@[simp] theorem resetCore_err (s : State) : (s.resetCore).err = .success := rfl
@[simp] theorem resetCore_blksz (s : State) : (s.resetCore).blksz = 0x00000010#32 := rfl
@[simp] theorem resetCore_srcLen (s : State) : (s.resetCore).srcLen = 0#32 := rfl
@[simp] theorem resetCore_dstLen (s : State) : (s.resetCore).dstLen = 0#32 := rfl
@[simp] theorem resetCore_keyLen (s : State) : (s.resetCore).keyLen = 0#32 := rfl
@[simp] theorem resetCore_keyb (s : State) : (s.resetCore).keyb = Vector.replicate 32 0x00#8 := rfl
@[simp] theorem resetCore_ibuf (s : State) : (s.resetCore).ibuf = s.ibuf := rfl
@[simp] theorem resetCore_obuf (s : State) : (s.resetCore).obuf = .holding [] s.draws := rfl
@[simp] theorem resetCore_snap (s : State) : (s.resetCore).snap = .empty := rfl
@[simp] theorem resetCore_ent (s : State) : (s.resetCore).ent = .none := rfl
@[simp] theorem resetCore_reply (s : State) : (s.resetCore).reply = s.reply := rfl
@[simp] theorem resetCore_host (s : State) : (s.resetCore).host = s.host := rfl
@[simp] theorem resetCore_turns (s : State) : (s.resetCore).turns = s.turns := rfl
@[simp] theorem resetCore_draws (s : State) : (s.resetCore).draws = s.draws + 1 := rfl

/-! ### powerOn -/

@[simp] theorem powerOn_cfg (s : State) : (s.powerOn).cfg = s.cfg := rfl
@[simp] theorem powerOn_fsm (s : State) : (s.powerOn).fsm = .idle := rfl
@[simp] theorem powerOn_irqEn (s : State) : (s.powerOn).irqEn = false := rfl
@[simp] theorem powerOn_done (s : State) : (s.powerOn).done = false := rfl
@[simp] theorem powerOn_wbusy (s : State) : (s.powerOn).wbusy = false := rfl
@[simp] theorem powerOn_err (s : State) : (s.powerOn).err = .success := rfl
@[simp] theorem powerOn_blksz (s : State) : (s.powerOn).blksz = 0x00000010#32 := rfl
@[simp] theorem powerOn_srcLen (s : State) : (s.powerOn).srcLen = 0#32 := rfl
@[simp] theorem powerOn_dstLen (s : State) : (s.powerOn).dstLen = 0#32 := rfl
@[simp] theorem powerOn_keyLen (s : State) : (s.powerOn).keyLen = 0#32 := rfl
@[simp] theorem powerOn_keyb (s : State) : (s.powerOn).keyb = Vector.replicate 32 0x00#8 := rfl
@[simp] theorem powerOn_ibuf (s : State) : (s.powerOn).ibuf = .holding [] (s.draws + 1) := rfl
@[simp] theorem powerOn_obuf (s : State) : (s.powerOn).obuf = .holding [] s.draws := rfl
@[simp] theorem powerOn_snap (s : State) : (s.powerOn).snap = .empty := rfl
@[simp] theorem powerOn_ent (s : State) : (s.powerOn).ent = .none := rfl
@[simp] theorem powerOn_reply (s : State) : (s.powerOn).reply = s.reply := rfl
@[simp] theorem powerOn_host (s : State) : (s.powerOn).host = s.host := rfl
@[simp] theorem powerOn_turns (s : State) : (s.powerOn).turns = s.turns := rfl
@[simp] theorem powerOn_draws (s : State) : (s.powerOn).draws = s.draws + 2 := rfl

end Sys2Proof.Machine.State
end

