-- ==== Sys2Proof/Laws/Memory.lean ====
section
/-! SUPPORT. The laws of memory and buffers: a read after a write, the canonical form kept by every
operation, and what a buffer holding a result string reads as. -/

namespace Sys2Proof.Machine

namespace Memory

@[simp] theorem read_nil (a : Nat) : read [] a = none := rfl

@[simp] theorem read_cons (b : Nat) (w : Byte) (m : Memory) (a : Nat) :
    read ((b, w) :: m) a = if a = b then some w else read m a := rfl

@[simp] theorem read_write_same (m : Memory) (a : Nat) (v : Byte) : (m.write a v).read a = some v := by
  induction m with
  | nil => simp [write]
  | cons p m ih =>
    obtain ⟨b, w⟩ := p
    simp only [write]
    split
    · simp
    · split
      · simp
      · simp [*]

theorem read_write_other (m : Memory) {a b : Nat} (v : Byte) (h : b ≠ a) :
    (m.write a v).read b = m.read b := by
  induction m with
  | nil => simp [write, h]
  | cons p m ih =>
    obtain ⟨c, w⟩ := p
    simp only [write]
    split
    · simp [h]
    · split
      · simp_all
      · simp [ih]

theorem mem_write {m : Memory} {a : Nat} {v : Byte} {p : Host.Cell} (h : p ∈ m.write a v) :
    p = (a, v) ∨ p ∈ m := by
  induction m with
  | nil => simpa [write] using h
  | cons q m ih =>
    obtain ⟨b, w⟩ := q
    simp only [write] at h
    split at h
    · simpa using h
    · split at h
      · simp only [List.mem_cons] at h ⊢
        tauto
      · simp only [List.mem_cons] at h ⊢
        rcases h with h | h
        · tauto
        · rcases ih h with h | h <;> tauto

/-- A write keeps the canonical form. -/
theorem write_wf {m : Memory} (h : m.wf) (a : Nat) (v : Byte) : (m.write a v).wf := by
  induction m with
  | nil => simp [write, wf]
  | cons q m ih =>
    obtain ⟨b, w⟩ := q
    rw [wf, List.pairwise_cons] at h
    simp only [write]
    split
    · rename_i hab
      rw [wf, List.pairwise_cons]
      refine ⟨fun p hp => ?_, List.pairwise_cons.mpr h⟩
      rcases List.mem_cons.mp hp with rfl | hp
      · exact hab
      · exact hab.trans (h.1 p hp)
    · split
      · rename_i hab
        subst hab
        exact List.pairwise_cons.mpr h
      · rw [wf, List.pairwise_cons]
        refine ⟨fun p hp => ?_, ih h.2⟩
        rcases mem_write hp with rfl | hp
        · simp only
          omega
        · exact h.1 p hp

theorem write_below {m : Memory} {cap : Nat} (h : m.below cap) {a : Nat} (ha : a < cap) (v : Byte) :
    (m.write a v).below cap := by
  intro p hp
  rcases mem_write hp with rfl | hp
  · exact ha
  · exact h p hp

theorem mem_ofBytes {a : Nat} {vs : List Byte} {p : Host.Cell} (h : p ∈ ofBytes a vs) :
    a ≤ p.1 ∧ p.1 < a + vs.length := by
  induction vs generalizing a with
  | nil => simp [ofBytes] at h
  | cons v vs ih =>
    rcases List.mem_cons.mp h with rfl | h
    · simp
    · have := ih h
      simp only [List.length_cons]
      omega

theorem ofBytes_wf (a : Nat) (vs : List Byte) : (ofBytes a vs).wf := by
  induction vs generalizing a with
  | nil => simp [ofBytes]
  | cons v vs ih =>
    rw [ofBytes, wf, List.pairwise_cons]
    refine ⟨fun p hp => ?_, ih (a + 1)⟩
    have := mem_ofBytes hp
    simp only
    omega

theorem ofBytes_below {vs : List Byte} {cap : Nat} (h : vs.length ≤ cap) : (ofBytes 0 vs).below cap := by
  intro p hp
  have := mem_ofBytes hp
  omega

theorem read_ofBytes (a : Nat) (vs : List Byte) (i : Nat) :
    (ofBytes a vs).read i = if a ≤ i then vs[i - a]? else none := by
  induction vs generalizing a with
  | nil => simp [ofBytes]
  | cons v vs ih =>
    rw [ofBytes, read_cons, ih]
    by_cases h : i = a
    · simp [h]
    · by_cases h' : a + 1 ≤ i
      · have e : i - a = (i - (a + 1)) + 1 := by omega
        have ha : a ≤ i := by omega
        simp [h, h', ha, e]
      · have ha : ¬ a ≤ i := by omega
        simp [h, h', ha]

theorem read_eq_none {m : Memory} {a : Nat} (h : ∀ p ∈ m, a < p.1) : m.read a = none := by
  induction m with
  | nil => rfl
  | cons p m ih =>
    have := h p (by simp)
    rw [show p = (p.1, p.2) from rfl, read_cons, if_neg (by omega), ih fun q hq => h q (by simp [hq])]

/-- Equal memories are equal data: two memories in canonical form that read alike are the same list. -/
theorem ext_of_read {m m' : Memory} (h : m.wf) (h' : m'.wf) (e : ∀ a, m.read a = m'.read a) : m = m' := by
  induction m generalizing m' with
  | nil =>
    cases m' with
    | nil => rfl
    | cons q m' => exact absurd (e q.1) (by rw [show q = (q.1, q.2) from rfl, read_nil, read_cons, if_pos rfl]; simp)
  | cons p m ih =>
    cases m' with
    | nil => exact absurd (e p.1) (by rw [show p = (p.1, p.2) from rfl, read_nil, read_cons, if_pos rfl]; simp)
    | cons q m' =>
      rw [wf, List.pairwise_cons] at h h'
      obtain ⟨a, v⟩ := p
      obtain ⟨b, w⟩ := q
      have ha : Memory.read m a = none := read_eq_none h.1
      have hb : Memory.read m' b = none := read_eq_none h'.1
      have hab : a = b := by
        by_contra hne
        have h1 := e a
        have h2 := e b
        rcases Nat.lt_or_gt_of_ne hne with hlt | hlt
        · have : Memory.read m' a = none := read_eq_none fun p hp => lt_trans hlt (h'.1 p hp)
          simp [hne, this] at h1
        · have : Memory.read m b = none := read_eq_none fun p hp => lt_trans hlt (h.1 p hp)
          simp [Ne.symm hne, this] at h2
      subst hab
      have hvw : v = w := by simpa using e a
      subst hvw
      congr 1
      refine ih h.2 h'.2 fun c => ?_
      by_cases hc : c = a
      · rw [hc, ha, hb]
      · simpa [hc] using e c

end Memory

namespace Buffer

theorem byte_holding {out : List Byte} {d i : Nat} (h : i < out.length) : (holding out d).byte i = out[i] := by
  simp [byte, holding, Memory.read_ofBytes, h]

theorem byte_holding_beyond {out : List Byte} {d i : Nat} (h : out.length ≤ i) :
    (holding out d).byte i = Config.freeByte d i := by
  simp [byte, holding, Memory.read_ofBytes, h]

theorem holding_wf {out : List Byte} {cap : Nat} (h : out.length ≤ cap) (d : Nat) : (holding out d).wf cap :=
  ⟨Memory.ofBytes_wf _ _, Memory.ofBytes_below h⟩

@[simp] theorem holding_fill (out : List Byte) (d : Nat) : (holding out d).fill = d := rfl

@[simp] theorem length_bytes (b : Buffer) (n : Nat) : (b.bytes n).length = n := by simp [bytes]

theorem getElem_bytes (b : Buffer) {n i : Nat} (h : i < (b.bytes n).length) : (b.bytes n)[i] = b.byte i := by
  simp [bytes]

/-- What a buffer holding a result string reads as in front is that string. -/
theorem bytes_holding (out : List Byte) (d : Nat) : (holding out d).bytes out.length = out := by
  apply List.ext_getElem
  · simp
  · intro i h1 h2
    rw [getElem_bytes, byte_holding h2]

theorem storeWord_fill (b : Buffer) (a : Nat) (v : Word) : (b.storeWord a v).fill = b.fill := rfl

theorem storeWord_wf {b : Buffer} {cap : Nat} (h : b.wf cap) {a : Nat} (ha : a + 3 < cap) (v : Word) :
    (b.storeWord a v).wf cap := by
  refine ⟨?_, ?_⟩
  · exact Memory.write_wf (Memory.write_wf (Memory.write_wf (Memory.write_wf h.1 _ _) _ _) _ _) _ _
  · exact Memory.write_below (Memory.write_below (Memory.write_below (Memory.write_below h.2 (by omega) _)
      (by omega) _) (by omega) _) (by omega) _

/-- A stored word's bytes, lowest first. -/
theorem byte_storeWord (b : Buffer) (a : Nat) (v : Word) (c : Nat) :
    (b.storeWord a v).byte c =
      if a ≤ c ∧ c < a + 4 then wordByte v (c - a) else b.byte c := by
  by_cases h0 : c = a
  · subst h0
    simp [byte, storeWord, Memory.read_write_other]
  · by_cases h1 : c = a + 1
    · subst h1
      simp [byte, storeWord, Memory.read_write_other]
    · by_cases h2 : c = a + 2
      · subst h2
        simp [byte, storeWord, Memory.read_write_other]
      · by_cases h3 : c = a + 3
        · subst h3
          simp [byte, storeWord]
        · have : ¬ (a ≤ c ∧ c < a + 4) := by omega
          simp [byte, storeWord, Memory.read_write_other, h0, h1, h2, h3, this]

end Buffer

end Sys2Proof.Machine
end

