-- ==== Sys2Proof/Laws/Operands.lean ====
section
/-! SUPPORT. The laws of the operand helpers: word packing, pad lengths, exclusive-or of byte strings,
blocks, hex digits, and removing a padding. -/

namespace Sys2Proof.Machine

/-! ## Words -/

theorem wordByte_getLsbD (w : Word) (i k : Nat) (hk : k < 8) : (wordByte w i).getLsbD k = w.getLsbD (8 * i + k) := by
  simp [wordByte, hk]

theorem wordByte_eq_shift (w : Word) (i : Nat) : wordByte w i = (w >>> (8 * i)).setWidth 8 := by
  apply BitVec.eq_of_getLsbD_eq
  intro k hk
  rw [wordByte_getLsbD _ _ _ hk, BitVec.getLsbD_setWidth, BitVec.getLsbD_ushiftRight]
  simp [hk]

theorem packWord_getLsbD (b0 b1 b2 b3 : Byte) (k : Nat) :
    (packWord b0 b1 b2 b3).getLsbD k =
      if k < 8 then b0.getLsbD k
      else if k < 16 then b1.getLsbD (k - 8)
      else if k < 24 then b2.getLsbD (k - 16)
      else b3.getLsbD (k - 24) := by
  have e1 : k - 8 - 8 = k - 16 := by omega
  have e2 : k - 16 - 8 = k - 24 := by omega
  simp only [packWord, BitVec.getLsbD_append, e1, e2]
  by_cases h1 : k < 8
  · simp [h1]
  · by_cases h2 : k < 16
    · have : k - 8 < 8 := by omega
      simp [h1, h2, this]
    · by_cases h3 : k < 24
      · have : ¬ k - 8 < 8 := by omega
        have h4 : k - 16 < 8 := by omega
        simp [h1, h2, h3, this, h4]
      · have : ¬ k - 8 < 8 := by omega
        have h4 : ¬ k - 16 < 8 := by omega
        simp [h1, h2, h3, this, h4]

/-- Packing a word's bytes gives the word back. -/
theorem packWord_wordByte (w : Word) :
    packWord (wordByte w 0) (wordByte w 1) (wordByte w 2) (wordByte w 3) = w := by
  apply BitVec.eq_of_getLsbD_eq
  intro k hk
  rw [packWord_getLsbD]
  split
  · rw [wordByte_getLsbD _ _ _ (by omega), Nat.mul_zero, Nat.zero_add]
  · split
    · rw [wordByte_getLsbD _ _ _ (by omega)]
      congr 1
      omega
    · split
      · rw [wordByte_getLsbD _ _ _ (by omega)]
        congr 1
        omega
      · rw [wordByte_getLsbD _ _ _ (by omega)]
        congr 1
        omega

/-- The packing in the spec's own words: `X[4j] | X[4j+1] << 8 | X[4j+2] << 16 | X[4j+3] << 24`. -/
theorem packWord_eq_or (b0 b1 b2 b3 : Byte) :
    packWord b0 b1 b2 b3 =
      b0.setWidth 32 ||| b1.setWidth 32 <<< 8 ||| b2.setWidth 32 <<< 16 ||| b3.setWidth 32 <<< 24 := by
  apply BitVec.eq_of_getLsbD_eq
  intro k hk
  rw [packWord_getLsbD]
  simp only [BitVec.getLsbD_or, BitVec.getLsbD_shiftLeft, BitVec.getLsbD_setWidth, hk, decide_true,
    Bool.true_and]
  by_cases h1 : k < 8
  · have h2 : k < 16 := by omega
    have h3 : k < 24 := by omega
    simp [h1, h2, h3]
  · have z0 : b0.getLsbD k = false := BitVec.getLsbD_of_ge _ _ (by omega)
    by_cases h2 : k < 16
    · have h3 : k < 24 := by omega
      have : k - 8 < 32 := by omega
      simp [h1, h2, h3, z0, this]
    · have z1 : b1.getLsbD (k - 8) = false := BitVec.getLsbD_of_ge _ _ (by omega)
      by_cases h3 : k < 24
      · have : k - 16 < 32 := by omega
        simp [h1, h2, h3, z0, z1, this]
      · have z2 : b2.getLsbD (k - 16) = false := BitVec.getLsbD_of_ge _ _ (by omega)
        have : k - 24 < 32 := by omega
        simp [h1, h2, h3, z0, z1, z2, this]

/-- A word stored in a buffer reads back. -/
theorem Buffer.word_storeWord (b : Buffer) (a : Nat) (v : Word) : (b.storeWord a v).word a = v := by
  rw [Buffer.word]
  simp only [Buffer.byte_storeWord]
  simp only [show a ≤ a ∧ a < a + 4 from by omega, show a ≤ a + 1 ∧ a + 1 < a + 4 from by omega,
    show a ≤ a + 2 ∧ a + 2 < a + 4 from by omega, show a ≤ a + 3 ∧ a + 3 < a + 4 from by omega, if_true,
    Nat.sub_self, Nat.add_sub_cancel_left, and_self]
  exact packWord_wordByte v

/-! ## Pad lengths (R120) -/

theorem padLen_pos {b : Nat} (hb : 0 < b) (n : Nat) : 1 ≤ padLen n b := by
  have := Nat.mod_lt n hb
  unfold padLen
  omega

theorem padLen_le (n b : Nat) : padLen n b ≤ b := Nat.sub_le _ _

theorem add_padLen_mod {b : Nat} (hb : 0 < b) (n : Nat) : (n + padLen n b) % b = 0 := by
  have h := Nat.mod_lt n hb
  have e : n + padLen n b = b * (n / b) + b := by
    have := Nat.div_add_mod n b
    unfold padLen
    omega
  rw [e, Nat.add_mod_right, Nat.mul_mod_right]

/-- The count of a padding within one block is the pad length of what is in front of it (R132 (b)). -/
theorem padLen_sub {b n len : Nat} (hn : 1 ≤ n) (hnb : n ≤ b) (hlen : n ≤ len) (hm : len % b = 0) :
    padLen (len - n) b = n := by
  obtain ⟨q, rfl⟩ := Nat.dvd_of_mod_eq_zero hm
  have hq : q ≠ 0 := by
    rintro rfl
    simp at hlen
    omega
  obtain ⟨p, rfl⟩ := Nat.exists_eq_succ_of_ne_zero hq
  have e : b * (p + 1) - n = b * p + (b - n) := by
    rw [Nat.mul_add, Nat.mul_one]
    omega
  rw [Nat.succ_eq_add_one, e, padLen, Nat.mul_add_mod]
  by_cases h : n = b
  · subst h
    simp
  · rw [Nat.mod_eq_of_lt (by omega)]
    omega

@[simp] theorem length_padBytes (n : Nat) : (padBytes n).length = n := List.length_replicate

theorem legalBlockSize_iff (s : Int) : legalBlockSize s = true ↔ 0 < s ∧ s ≤ 255 := by
  simp [legalBlockSize]

/-! ## Exclusive-or and blocks (R85) -/

@[simp] theorem length_xorBytes (a b : List Byte) : (xorBytes a b).length = min a.length b.length :=
  List.length_zipWith

theorem xorBytes_assoc (a b c : List Byte) : xorBytes a (xorBytes b c) = xorBytes (xorBytes a b) c := by
  unfold xorBytes
  induction a generalizing b c with
  | nil => simp
  | cons x a ih =>
    cases b with
    | nil => simp
    | cons y b =>
      cases c with
      | nil => simp
      | cons z c => simp [ih, BitVec.xor_assoc]

theorem xorBytes_cancel {a b : List Byte} (h : a.length ≤ b.length) : xorBytes (xorBytes a b) b = a := by
  unfold xorBytes
  induction a generalizing b with
  | nil => simp
  | cons x a ih =>
    cases b with
    | nil => simp at h
    | cons y b => simp [ih (by simpa using h)]

@[simp] theorem length_blocks (b k : Nat) (p : List Byte) : (blocks b k p).length = k := by
  induction k generalizing p with
  | zero => rfl
  | succ k ih => simp [blocks, ih]

theorem getElem?_blocks (b k i : Nat) (p : List Byte) (h : i < k) :
    (blocks b k p)[i]? = some (blockAt b i p) := by
  induction k generalizing p i with
  | zero => omega
  | succ k ih =>
    cases i with
    | zero => simp [blocks, blockAt]
    | succ i =>
      have e : (i + 1) * b = b + i * b := by rw [Nat.add_mul, Nat.one_mul, Nat.add_comm]
      simp only [blocks, List.getElem?_cons_succ]
      rw [ih i _ (by omega)]
      simp only [blockAt, List.drop_drop, e]

/-- Every block of a string of whole blocks has the block length. -/
theorem length_of_mem_blocks {b k : Nat} {p q : List Byte} (h : p.length = k * b) (hq : q ∈ blocks b k p) :
    q.length = b := by
  induction k generalizing p with
  | zero => simp [blocks] at hq
  | succ k ih =>
    rw [Nat.add_mul, Nat.one_mul] at h
    rcases List.mem_cons.mp hq with rfl | hq
    · simp only [List.length_take]
      omega
    · exact ih (by simp only [List.length_drop]; omega) hq

/-- The blocks of a string of whole blocks, joined, are the string. -/
theorem flatten_blocks {b k : Nat} {p : List Byte} (h : p.length = k * b) : (blocks b k p).flatten = p := by
  induction k generalizing p with
  | zero =>
    have : p = [] := List.eq_nil_of_length_eq_zero (by simpa using h)
    simp [blocks, this]
  | succ k ih =>
    rw [Nat.add_mul, Nat.one_mul] at h
    rw [blocks, List.flatten_cons, ih (by simp only [List.length_drop]; omega), List.take_append_drop]

/-- Splitting joined blocks of one length gives them back. -/
theorem blocks_flatten {b : Nat} {ps : List (List Byte)} (h : ∀ p ∈ ps, p.length = b) :
    blocks b ps.length ps.flatten = ps := by
  induction ps with
  | nil => rfl
  | cons p ps ih =>
    have hp := h p (by simp)
    simp only [List.length_cons, blocks, List.flatten_cons]
    rw [List.take_left' hp, List.drop_left' hp, ih fun q hq => h q (by simp [hq])]

theorem length_flatten_blocks {b : Nat} {ps : List (List Byte)} (h : ∀ p ∈ ps, p.length = b) :
    ps.flatten.length = ps.length * b := by
  induction ps with
  | nil => simp
  | cons p ps ih =>
    rw [List.flatten_cons, List.length_append, h p (by simp), ih fun q hq => h q (by simp [hq]),
      List.length_cons, Nat.add_mul, Nat.one_mul, Nat.add_comm]

/-! ## Hex (R174) -/

theorem hexU_toNat (v : BitVec 4) : (hexU v).toNat = asciiHex v.toNat := by
  have h : ∀ n : Fin 16, (hexU (BitVec.ofFin (w := 4) n)).toNat = asciiHex (BitVec.ofFin (w := 4) n).toNat := by decide
  exact h v.toFin

theorem digitOf_asciiHex {v : Nat} (h : v < 16) : digitOf (asciiHex v) = v := by
  have : ∀ n : Fin 16, digitOf (asciiHex n) = n := by decide
  exact this ⟨v, h⟩

theorem asciiHex_range {v : Nat} (h : v < 16) :
    (0x30 ≤ asciiHex v ∧ asciiHex v ≤ 0x39) ∨ (0x41 ≤ asciiHex v ∧ asciiHex v ≤ 0x46) := by
  have : ∀ n : Fin 16, (0x30 ≤ asciiHex n ∧ asciiHex n ≤ 0x39) ∨
      (0x41 ≤ asciiHex n ∧ asciiHex n ≤ 0x46) := by decide
  exact this ⟨v, h⟩

theorem highNibble (x : Byte) : (x.extractLsb' 4 4).toNat = x.toNat / 16 := by
  have h := x.isLt
  simp [BitVec.extractLsb'_toNat, Nat.shiftRight_eq_div_pow]
  omega

theorem lowNibble (x : Byte) : (x.extractLsb' 0 4).toNat = x.toNat % 16 := by
  simp [BitVec.extractLsb'_toNat]

@[simp] theorem hexString_nil : hexString [] = [] := rfl

@[simp] theorem hexString_cons (x : Byte) (r : List Byte) :
    hexString (x :: r) = hexU (x.extractLsb' 4 4) :: hexU (x.extractLsb' 0 4) :: hexString r := rfl

@[simp] theorem length_hexString (r : List Byte) : (hexString r).length = 2 * r.length := by
  induction r with
  | nil => rfl
  | cons x r ih =>
    simp only [hexString_cons, List.length_cons, ih]
    omega

/-- The two characters of byte `i`, high nibble first. -/
theorem hexString_pair (r : List Byte) {i : Nat} (h : i < r.length) :
    ((hexString r).getD (2 * i) 0).toNat = asciiHex ((r.getD i 0).toNat / 16) ∧
    ((hexString r).getD (2 * i + 1) 0).toNat = asciiHex ((r.getD i 0).toNat % 16) := by
  induction r generalizing i with
  | nil => simp at h
  | cons x r ih =>
    cases i with
    | zero =>
      refine ⟨?_, ?_⟩
      · exact (hexU_toNat _).trans (congrArg asciiHex (highNibble x))
      · exact (hexU_toNat _).trans (congrArg asciiHex (lowNibble x))
    | succ i =>
      have := ih (i := i) (by simpa using h)
      simpa [Nat.mul_add] using this

theorem mem_hexString {r : List Byte} {x : Byte} (h : x ∈ hexString r) :
    (0x30 ≤ x.toNat ∧ x.toNat ≤ 0x39) ∨ (0x41 ≤ x.toNat ∧ x.toNat ≤ 0x46) := by
  induction r with
  | nil => simp at h
  | cons y r ih =>
    simp only [hexString_cons, List.mem_cons] at h
    rcases h with rfl | rfl | h
    · rw [hexU_toNat]
      exact asciiHex_range (BitVec.isLt _)
    · rw [hexU_toNat]
      exact asciiHex_range (BitVec.isLt _)
    · exact ih h

/-! ## Removing a padding (R130, R131) -/

/-- A string that ends in a valid padding ends in its count. -/
theorem EndsInPadding.last {d : List Byte} {n : Nat} (h : EndsInPadding d n) : (d.getLastD 0).toNat = n := by
  obtain ⟨h1, h2, h3, h4⟩ := h
  have hne : d ≠ [] := by
    rintro rfl
    simp at h2
    omega
  have e : d = d.take (d.length - n) ++ List.replicate n (BitVec.ofNat 8 n) := by
    rw [← h4, List.take_append_drop]
  rw [e, List.getLastD_eq_getLast?, List.getLast?_append_of_ne_nil _ (by simp; omega), List.getLast?_replicate]
  rw [if_neg (by omega)]
  simp
  omega

/-- Two paddings of one string have one count. -/
theorem EndsInPadding.unique {d : List Byte} {n m : Nat} (h : EndsInPadding d n) (h' : EndsInPadding d m) :
    n = m := by rw [← h.last, ← h'.last]

/-- The padding check and removal: success exactly on a valid padding. -/
theorem stripPadding_ok {d : List Byte} {n : Nat} (h : EndsInPadding d n) :
    stripPadding d = .ok (d.take (d.length - n)) := by
  have hl := h.last
  obtain ⟨h1, h2, h3, h4⟩ := h
  rw [stripPadding, hl, if_neg (by omega), if_pos]
  rw [h4]
  simp

theorem stripPadding_error {d : List Byte} (h : ∀ n, ¬ EndsInPadding d n) :
    stripPadding d = .error .invalidPadding := by
  unfold stripPadding
  simp only
  split
  · rfl
  · rename_i hn
    rw [if_neg]
    intro hall
    refine h (d.getLastD 0).toNat ⟨by omega, by omega, by have := (d.getLastD 0).isLt; omega, ?_⟩
    rw [List.eq_replicate_iff]
    refine ⟨by simp only [List.length_drop]; omega, fun x hx => ?_⟩
    simpa using List.all_eq_true.mp hall x hx

theorem endsInPadding_append {p : List Byte} {n : Nat} (h1 : 1 ≤ n) (h2 : n ≤ 255) :
    EndsInPadding (p ++ List.replicate n (BitVec.ofNat 8 n)) n := by
  refine ⟨h1, by simp, h2, ?_⟩
  simp

end Sys2Proof.Machine
end

