-- ==== Sys2Proof/Laws/Bus.lean ====
section
/-! SUPPORT. The laws of the host port: where each offset leads, what an access can change, and one
lemma that says everything the host's turn can do. -/

namespace Sys2Proof.Machine

/-! ## The address map (R38) -/

/-- An access that is refused (R81, R82). -/
abbrev BadAccess (bufBytes : Nat) (off : Offset) (size : Nat) : Prop :=
  size ≠ 32 ∨ off.toNat % 4 ≠ 0 ∨ (0x040 ≤ off.toNat ∧ off.toNat ≤ 0x0FFF) ∨
    (0x1000 + bufBytes ≤ off.toNat ∧ off.toNat ≤ 0x1FFF) ∨
    (0x2000 + bufBytes ≤ off.toNat ∧ off.toNat ≤ 0x2FFF) ∨ 0x3000 ≤ off.toNat

theorem bufBytes_bounds {p : Config.Params} (h : p.wf = true) :
    64 ≤ p.bufBytes ∧ p.bufBytes ≤ 4096 ∧ p.bufBytes % 16 = 0 := by
  simp only [Config.Params.wf, Config.Params.bufOk, Bool.and_eq_true, decide_eq_true_eq, beq_iff_eq] at h
  omega

/-- Which offset and size each location answers to. -/
def Place.at (bufBytes : Nat) (p : Place) (n : Nat) : Prop :=
  match p with
  | .id => n = 0x000
  | .ctrl => n = 0x004
  | .cmd => n = 0x008
  | .status => n = 0x00C
  | .blksz => n = 0x010
  | .srcLen => n = 0x014
  | .dstLen => n = 0x018
  | .keyLen => n = 0x01C
  | .key k => 0x020 ≤ n ∧ n < 0x040 ∧ k = (n - 0x020) / 4
  | .ibuf a => 0x1000 ≤ n ∧ n < 0x1000 + bufBytes ∧ a = n - 0x1000
  | .obuf a => 0x2000 ≤ n ∧ n < 0x2000 + bufBytes ∧ a = n - 0x2000

theorem placeOf_at {bufBytes n : Nat} {p : Place} (h : placeOf bufBytes n = some p) :
    p.at bufBytes n := by
  unfold placeOf at h
  repeat' split at h
  all_goals first
    | (cases h; assumption)
    | (cases h; exact ⟨by omega, by omega, rfl⟩)
    | cases h

theorem decodeAccess_at {bufBytes : Nat} {off : Offset} {size : Nat} {p : Place}
    (h : decodeAccess bufBytes off size = some p) :
    size = 32 ∧ off.toNat % 4 = 0 ∧ p.at bufBytes off.toNat := by
  unfold decodeAccess at h
  split at h
  · rename_i hs
    exact ⟨hs.1, hs.2, placeOf_at h⟩
  · cases h

theorem placeOf_of_at {bufBytes n : Nat} {p : Place} (hb : bufBytes ≤ 4096) (hn : n % 4 = 0)
    (h : p.at bufBytes n) : placeOf bufBytes n = some p := by
  unfold placeOf
  cases p <;> simp only [Place.at] at h
  case key k | ibuf a | obuf a =>
    obtain ⟨h1, h2, h3⟩ := h
    simp (disch := omega) only [if_neg, if_pos, h3]
  all_goals simp [h]

/-- A location is reached exactly by its offset, aligned, with 32 bits. -/
theorem decodeAccess_of_at {bufBytes : Nat} {off : Offset} {p : Place} (hb : bufBytes ≤ 4096)
    (hn : off.toNat % 4 = 0) (h : p.at bufBytes off.toNat) : decodeAccess bufBytes off 32 = some p := by
  rw [decodeAccess, if_pos ⟨rfl, hn⟩, placeOf_of_at hb hn h]

@[simp] theorem decodeAccess_id (b : Nat) : decodeAccess b 0x000#14 32 = some .id := rfl
@[simp] theorem decodeAccess_ctrl (b : Nat) : decodeAccess b 0x004#14 32 = some .ctrl := rfl
@[simp] theorem decodeAccess_cmd (b : Nat) : decodeAccess b 0x008#14 32 = some .cmd := rfl
@[simp] theorem decodeAccess_status (b : Nat) : decodeAccess b 0x00C#14 32 = some .status := rfl
@[simp] theorem decodeAccess_blksz (b : Nat) : decodeAccess b 0x010#14 32 = some .blksz := rfl
@[simp] theorem decodeAccess_srcLen (b : Nat) : decodeAccess b 0x014#14 32 = some .srcLen := rfl
@[simp] theorem decodeAccess_dstLen (b : Nat) : decodeAccess b 0x018#14 32 = some .dstLen := rfl
@[simp] theorem decodeAccess_keyLen (b : Nat) : decodeAccess b 0x01C#14 32 = some .keyLen := rfl

theorem decodeAccess_key (b : Nat) {k : Nat} (hk : k < 8) :
    decodeAccess b (BitVec.ofNat 14 (0x020 + 4 * k)) 32 = some (.key k) := by
  interval_cases k <;> rfl

theorem decodeAccess_ibuf {b j : Nat} (hb : b ≤ 4096) (hj : 4 * j < b) :
    decodeAccess b (BitVec.ofNat 14 (0x1000 + 4 * j)) 32 = some (.ibuf (4 * j)) := by
  generalize ho : BitVec.ofNat 14 (0x1000 + 4 * j) = off
  have e : off.toNat = 0x1000 + 4 * j := by
    subst ho
    have h := BitVec.toNat_ofNat (0x1000 + 4 * j) 14
    omega
  exact decodeAccess_of_at hb (by omega) ⟨by omega, by omega, by omega⟩

theorem decodeAccess_obuf {b j : Nat} (hb : b ≤ 4096) (hj : 4 * j < b) :
    decodeAccess b (BitVec.ofNat 14 (0x2000 + 4 * j)) 32 = some (.obuf (4 * j)) := by
  generalize ho : BitVec.ofNat 14 (0x2000 + 4 * j) = off
  have e : off.toNat = 0x2000 + 4 * j := by
    subst ho
    have h := BitVec.toNat_ofNat (0x2000 + 4 * j) 14
    omega
  exact decodeAccess_of_at hb (by omega) ⟨by omega, by omega, by omega⟩

/-- Every offset is either mapped or refused (R89). -/
theorem decodeAccess_none_of_bad {bufBytes : Nat} {off : Offset} {size : Nat} (hb : bufBytes ≤ 4096)
    (h : BadAccess bufBytes off size) : decodeAccess bufBytes off size = none := by
  cases hd : decodeAccess bufBytes off size with
  | none => rfl
  | some p =>
    obtain ⟨h1, h2, h3⟩ := decodeAccess_at hd
    cases p <;> simp only [Place.at] at h3 <;> omega

theorem exists_at_of_not_bad {bufBytes : Nat} {off : Offset} {size : Nat}
    (h : ¬ BadAccess bufBytes off size) : size = 32 ∧ off.toNat % 4 = 0 ∧ ∃ p : Place, p.at bufBytes off.toNat := by
  have hs : size = 32 := by omega
  have ha : off.toNat % 4 = 0 := by omega
  refine ⟨hs, ha, ?_⟩
  have hcase : off.toNat = 0x000 ∨ off.toNat = 0x004 ∨ off.toNat = 0x008 ∨ off.toNat = 0x00C ∨
      off.toNat = 0x010 ∨ off.toNat = 0x014 ∨ off.toNat = 0x018 ∨ off.toNat = 0x01C ∨
      (0x020 ≤ off.toNat ∧ off.toNat < 0x040) ∨
      (0x1000 ≤ off.toNat ∧ off.toNat < 0x1000 + bufBytes) ∨
      (0x2000 ≤ off.toNat ∧ off.toNat < 0x2000 + bufBytes) := by omega
  rcases hcase with h | h | h | h | h | h | h | h | h | h | h
  · exact ⟨.id, h⟩
  · exact ⟨.ctrl, h⟩
  · exact ⟨.cmd, h⟩
  · exact ⟨.status, h⟩
  · exact ⟨.blksz, h⟩
  · exact ⟨.srcLen, h⟩
  · exact ⟨.dstLen, h⟩
  · exact ⟨.keyLen, h⟩
  · exact ⟨.key _, h.1, h.2, rfl⟩
  · exact ⟨.ibuf _, h.1, h.2, rfl⟩
  · exact ⟨.obuf _, h.1, h.2, rfl⟩

/-! ## STATUS as a word -/

/-- The bits of a status word, put together from its fields (R42). -/
theorem statusBits (e : BitVec 4) (w f d b : Bool) :
    let x : Word := 0#20 ++ e ++ 0#4 ++ BitVec.ofBool w ++ BitVec.ofBool f ++ BitVec.ofBool d ++ BitVec.ofBool b
    x.getLsbD 0 = b ∧ x.getLsbD 1 = d ∧ x.getLsbD 2 = f ∧ x.getLsbD 3 = w ∧
    (x >>> 8).setWidth 4 = e ∧ (x >>> 4).setWidth 4 = 0#4 ∧ x >>> 12 = 0#32 := by
  revert e w f d b
  decide

/-! ## What an access can change -/

namespace State

/-- A read changes the reply and the count of free values, nothing else (R88). -/
theorem busRead_eq (off : Offset) (size : Nat) (s : State) :
    s.busRead off size =
      { s with reply := (s.busRead off size).reply, draws := (s.busRead off size).draws } := by
  unfold busRead
  split <;> rfl

theorem le_busRead_draws (off : Offset) (size : Nat) (s : State) : s.draws ≤ (s.busRead off size).draws := by
  unfold busRead
  split
  · exact Nat.le_refl _
  · exact Nat.le_add_right _ _

theorem busRead_of_place {s : State} {off : Offset} {size : Nat} {p : Place}
    (h : decodeAccess s.cfg.bufBytes off size = some p) :
    s.busRead off size =
      { s with reply := some (.data (s.readPlace p)), draws := s.draws + s.readDraws p } := by
  rw [busRead, h]

theorem busRead_of_none {s : State} {off : Offset} {size : Nat}
    (h : decodeAccess s.cfg.bufBytes off size = none) :
    s.busRead off size = { s with reply := some .error } := by
  rw [busRead, h]
  rfl

theorem busWrite_of_place {s : State} {off : Offset} {size : Nat} {v : Word} {p : Place}
    (h : decodeAccess s.cfg.bufBytes off size = some p) :
    s.busWrite off size v = (s.writePlace p v).answer .okay := by
  rw [busWrite, h]

theorem busWrite_of_none {s : State} {off : Offset} {size : Nat} {v : Word}
    (h : decodeAccess s.cfg.bufBytes off size = none) :
    s.busWrite off size v = { s with reply := some .error } := by
  rw [busWrite, h]
  rfl

theorem whenIdle_idle {s : State} (h : s.fsm = .idle) (f : State → State) : s.whenIdle f = f s := if_pos h

theorem whenIdle_dropped {s : State} (h : s.fsm ≠ .idle) (f : State → State) :
    s.whenIdle f = s.dropWrite := if_neg h

/-- What a write can do: ignored, CTRL, STATUS, dropped, an acceptance, or storing one input in IDLE. -/
theorem writePlace_cases (p : Place) (v : Word) (s : State) :
    ((p = .id ∨ p = .dstLen ∨ ∃ a, p = .obuf a) ∧ s.writePlace p v = s) ∨ (p = .ctrl ∧ s.writePlace p v = s.writeCtrl v) ∨
    (p = .status ∧ s.writePlace p v = s.writeStatus v) ∨
    (s.fsm ≠ .idle ∧ s.writePlace p v = s.dropWrite ∧
      (p = .cmd ∨ p = .blksz ∨ p = .srcLen ∨ p = .keyLen ∨ (∃ k, p = .key k) ∨ ∃ a, p = .ibuf a)) ∨
    (s.fsm = .idle ∧ p = .cmd ∧ s.writePlace p v = s.accept v) ∨
    (s.fsm = .idle ∧ p = .blksz ∧ s.writePlace p v = { s with blksz := v }) ∨
    (s.fsm = .idle ∧ p = .srcLen ∧ s.writePlace p v = { s with srcLen := v }) ∨
    (s.fsm = .idle ∧ p = .keyLen ∧ s.writePlace p v = { s with keyLen := v }) ∨
    (s.fsm = .idle ∧ ∃ k, p = .key k ∧ s.writePlace p v = { s with keyb := storeKey s.keyb k v }) ∨
    (s.fsm = .idle ∧ ∃ a, p = .ibuf a ∧ s.writePlace p v = { s with ibuf := s.ibuf.storeWord a v }) := by
  by_cases h : s.fsm = .idle
  · cases p <;> simp [writePlace, whenIdle_idle, h]
  · cases p <;> simp [writePlace, whenIdle_dropped, h]

theorem hostFaulted_iff {s : State} : s.hostFaulted = true ↔ s.reply = some .error := by
  simp [hostFaulted]

/-- A faulted host program makes no access (R81). -/
theorem hostTurn_faulted {s : State} (h : s.hostFaulted = true) : s.hostTurn = s := if_pos h

theorem hostTurn_ok {s : State} (h : s.hostFaulted = false) : s.hostTurn = s.serveAccess := by
  rw [hostTurn, h, if_neg Bool.false_ne_true]

theorem hostTurn_nil {s : State} (h : s.host = []) : s.hostTurn = s := by
  simp [hostTurn, serveAccess, h]

theorem hostTurn_read {s : State} {off : Offset} {size : Nat} {rest : List HostOp} (hf : s.hostFaulted = false)
    (h : s.host = .read off size :: rest) : s.hostTurn = { s with host := rest }.busRead off size := by
  simp only [hostTurn_ok hf, serveAccess, h]

theorem hostTurn_write {s : State} {off : Offset} {size : Nat} {v : Word} {rest : List HostOp}
    (hf : s.hostFaulted = false) (h : s.host = .write off size v :: rest) :
    s.hostTurn = { s with host := rest }.busWrite off size v := by
  simp only [hostTurn_ok hf, serveAccess, h]

theorem hostTurn_poll {s : State} {off : Offset} {mask value : Word} {rest : List HostOp}
    (hf : s.hostFaulted = false) (h : s.host = .poll off mask value :: rest) :
    s.hostTurn = if pollGoesOn mask value (s.busRead off 32).reply then s.busRead off 32
      else { s.busRead off 32 with host := rest } := by
  simp only [hostTurn_ok hf, serveAccess, h]

/-- A read looks at the core only, not at the accesses that wait or the turns. -/
theorem busRead_outside (off : Offset) (size : Nat) (s : State) (host : List HostOp) (turns : List Turn) :
    { s with host := host, turns := turns }.busRead off size =
      { s.busRead off size with host := host, turns := turns } := by
  cases hd : decodeAccess s.cfg.bufBytes off size with
  | none => rw [busRead_of_none hd, busRead_of_none (by exact hd)]
  | some p =>
    rw [busRead_of_place hd, busRead_of_place (by exact hd)]
    cases p <;> rfl

/-- A write looks at the core only, not at the accesses that wait or the turns. -/
theorem busWrite_outside (off : Offset) (size : Nat) (v : Word) (s : State) (host : List HostOp)
    (turns : List Turn) :
    { s with host := host, turns := turns }.busWrite off size v =
      { s.busWrite off size v with host := host, turns := turns } := by
  cases hd : decodeAccess s.cfg.bufBytes off size with
  | none => rw [busWrite_of_none hd, busWrite_of_none (by exact hd)]
  | some p =>
    rw [busWrite_of_place hd, busWrite_of_place (by exact hd)]
    by_cases h : s.fsm = .idle
    · cases p <;> simp [writePlace, whenIdle_idle, h, answer, writeCtrl, writeStatus, accept, takeSnapshot]
    · cases p <;> simp [writePlace, whenIdle_dropped, h, answer, writeCtrl, writeStatus, dropWrite]

/-- What the host's turn can do: nothing, a read (of the access or of a POLL, which may stay), a bad write,
or a write. -/
theorem hostTurn_cases (s : State) :
    ((s.host = [] ∨ s.hostFaulted = true) ∧ s.hostTurn = s) ∨
    (s.hostFaulted = false ∧
      ∃ off size rest r d, s.hostTurn = { s with host := rest, reply := r, draws := d } ∧ s.draws ≤ d ∧
      (s.host = .read off size :: rest ∨ ∃ mask value ops, s.host = .poll off mask value :: ops ∧
        (rest = ops ∨ rest = s.host))) ∨
    (s.hostFaulted = false ∧ ∃ off size v rest, s.host = .write off size v :: rest ∧
      decodeAccess s.cfg.bufBytes off size = none ∧
      s.hostTurn = { s with host := rest, reply := some .error }) ∨
    (s.hostFaulted = false ∧ ∃ off v rest p, s.host = .write off 32 v :: rest ∧
      decodeAccess s.cfg.bufBytes off 32 = some p ∧
      s.hostTurn = ({ s with host := rest }.writePlace p v).answer .okay) := by
  cases hf : s.hostFaulted with
  | true => exact .inl ⟨.inr rfl, hostTurn_faulted hf⟩
  | false =>
    cases hh : s.host with
    | nil => exact .inl ⟨.inl rfl, hostTurn_nil hh⟩
    | cons op rest =>
      right
      cases op with
      | read off size =>
        left
        refine ⟨rfl, off, size, rest, ({ s with host := rest }.busRead off size).reply,
          ({ s with host := rest }.busRead off size).draws, ?_,
          le_busRead_draws off size { s with host := rest }, .inl rfl⟩
        rw [hostTurn_read hf hh]
        exact busRead_eq off size { s with host := rest }
      | write off size v =>
        right
        rw [hostTurn_write hf hh]
        cases hd : decodeAccess s.cfg.bufBytes off size with
        | none => exact .inl ⟨rfl, off, size, v, rest, rfl, hd, busWrite_of_none (s := { s with host := rest }) hd⟩
        | some p =>
          have h32 := (decodeAccess_at hd).1
          subst h32
          exact .inr ⟨rfl, off, v, rest, p, rfl, hd, busWrite_of_place (s := { s with host := rest }) hd⟩
      | poll off mask value =>
        left
        rw [hostTurn_poll hf hh]
        split
        · refine ⟨rfl, off, 32, s.host, (s.busRead off 32).reply, (s.busRead off 32).draws, ?_,
            le_busRead_draws off 32 s, .inr ⟨mask, value, rest, rfl, .inr hh⟩⟩
          rw [busRead_eq]
        · refine ⟨rfl, off, 32, rest, (s.busRead off 32).reply, (s.busRead off 32).draws, ?_,
            le_busRead_draws off 32 s, .inr ⟨mask, value, rest, rfl, .inl rfl⟩⟩
          rw [busRead_eq]

/-- No write touches the entropy transaction. -/
theorem writePlace_ent (p : Place) (v : Word) (s : State) : (s.writePlace p v).ent = s.ent := by
  by_cases h : s.fsm = .idle
  · cases p <;> simp [writePlace, whenIdle_idle, h, writeCtrl, writeStatus, accept]
  · cases p <;> simp [writePlace, whenIdle_dropped, h, writeCtrl, writeStatus, dropWrite]

/-- No access of the host touches the entropy transaction. -/
theorem hostTurn_ent (s : State) : s.hostTurn.ent = s.ent := by
  rcases hostTurn_cases s with ⟨_, h⟩ | ⟨_, _, _, _, _, _, h, _⟩ | ⟨_, _, _, _, _, _, _, h⟩ | ⟨_, _, v, rest, p, _, _, h⟩
  · rw [h]
  · rw [h]
  · rw [h]
  · rw [h]
    exact writePlace_ent p v { s with host := rest }

/-- An access faults the host's program exactly where it is refused (R81, R82). -/
theorem hostFaulted_busRead (off : Offset) (size : Nat) (s : State) :
    (s.busRead off size).hostFaulted = (decodeAccess s.cfg.bufBytes off size).isNone := by
  cases hd : decodeAccess s.cfg.bufBytes off size with
  | none => rw [busRead_of_none hd]; rfl
  | some p => rw [busRead_of_place hd]; rfl

theorem hostFaulted_busWrite (off : Offset) (size : Nat) (v : Word) (s : State) :
    (s.busWrite off size v).hostFaulted = (decodeAccess s.cfg.bufBytes off size).isNone := by
  cases hd : decodeAccess s.cfg.bufBytes off size with
  | none => rw [busWrite_of_none hd]; rfl
  | some p => rw [busWrite_of_place hd]; rfl

end State

/-! ## The key bank -/

/-- The bytes of the key bank after a write to KEYk (R47). -/
theorem getElem_storeKey (keyb : Vector Byte 32) (k : Nat) (v : Word) {a : Nat} (ha : a < 32) :
    (storeKey keyb k v)[a] = if a / 4 = k then wordByte v (a % 4) else keyb[a] := by
  simp only [storeKey, Vector.getElem_setIfInBounds]
  by_cases h : a / 4 = k
  · have : a = 4 * k ∨ a = 4 * k + 1 ∨ a = 4 * k + 2 ∨ a = 4 * k + 3 := by omega
    rcases this with rfl | rfl | rfl | rfl
    · have e : 4 * k % 4 = 0 := by omega
      simp [h, e]
    · have e : (4 * k + 1) % 4 = 1 := by omega
      simp [h, e]
    · have e : (4 * k + 2) % 4 = 2 := by omega
      simp [h, e]
    · have e : (4 * k + 3) % 4 = 3 := by omega
      simp [h, e]
  · simp (disch := omega) only [if_neg]

end Sys2Proof.Machine
end

