-- ==== Sys2Proof/Laws/Cipher.lean ====
section
/-! SUPPORT. The laws of the cipher pair (00_scope.md R14 law (a)): for AES by the inverse of each of
its layers, for any other cipher because it is a permutation. -/

namespace Sys2Proof.Machine.Aes

theorem invSbox_sbox (x : Byte) : invSbox (sbox x) = x := by
  have h : ∀ n : Fin 256, invSbox (sbox (BitVec.ofFin n)) = BitVec.ofFin n := by decide +kernel
  exact h x.toFin

theorem sbox_invSbox (x : Byte) : sbox (invSbox x) = x := by
  have h : ∀ n : Fin 256, sbox (invSbox (BitVec.ofFin n)) = BitVec.ofFin n := by decide +kernel
  exact h x.toFin

/-- A map of bytes that respects exclusive-or: every multiplication by a constant in GF(2^8) is one. -/
abbrev Additive (f : Byte → Byte) : Prop := ∀ x y, f (x ^^^ y) = f x ^^^ f y

theorem xor_four (x y z w : Byte) : x ^^^ y ^^^ (z ^^^ w) = x ^^^ z ^^^ (y ^^^ w) := by ac_rfl

theorem Additive.xor {f g : Byte → Byte} (hf : Additive f) (hg : Additive g) :
    Additive fun x => f x ^^^ g x := by
  intro x y
  simp only [hf x y, hg x y]
  exact xor_four _ _ _ _

theorem additive_id : Additive fun x => x := fun _ _ => rfl

theorem additive_xtime : Additive xtime := by
  intro x y
  unfold xtime
  rw [BitVec.shiftLeft_xor_distrib, BitVec.msb_xor, xor_four]
  congr 1
  cases x.msb <;> cases y.msb <;> rfl

theorem additive_xtime2 : Additive fun x => xtime (xtime x) := by
  intro x y
  simp only [additive_xtime x y, additive_xtime (xtime x) (xtime y)]

theorem additive_xtime3 : Additive fun x => xtime (xtime (xtime x)) := by
  intro x y
  simp only [additive_xtime x y, additive_xtime2 (xtime x) (xtime y)]

theorem additive_mul3 : Additive mul3 := additive_xtime.xor additive_id

theorem additive_mul9 : Additive mul9 := additive_xtime3.xor additive_id

theorem additive_mul11 : Additive mul11 := (additive_xtime3.xor additive_xtime).xor additive_id

theorem additive_mul13 : Additive mul13 := (additive_xtime3.xor additive_xtime2).xor additive_id

theorem additive_mul14 : Additive mul14 := (additive_xtime3.xor additive_xtime2).xor additive_xtime

/-- One entry of a product of two column matrices, gathered by input byte: if the gathered maps are
those of a row of the identity, the product returns that byte. -/
theorem row_product {f g h k : Byte → Byte} (hf : Additive f) (hg : Additive g) (hh : Additive h)
    (hk : Additive k) {pa pb pc pd qa qb qc qd ra rb rc rd sa sb sc sd ta tb tc td : Byte}
    (ea : f pa ^^^ g qa ^^^ (h ra ^^^ k sa) = ta) (eb : f pb ^^^ g qb ^^^ (h rb ^^^ k sb) = tb)
    (ec : f pc ^^^ g qc ^^^ (h rc ^^^ k sc) = tc) (ed : f pd ^^^ g qd ^^^ (h rd ^^^ k sd) = td) :
    f (pa ^^^ pb ^^^ pc ^^^ pd) ^^^ g (qa ^^^ qb ^^^ qc ^^^ qd) ^^^ h (ra ^^^ rb ^^^ rc ^^^ rd) ^^^
      k (sa ^^^ sb ^^^ sc ^^^ sd) = ta ^^^ tb ^^^ tc ^^^ td := by
  subst ea eb ec ed
  simp only [hf _ _, hg _ _, hh _ _, hk _ _]
  ac_rfl

/-- A fact about every byte, checked byte by byte. -/
theorem every_byte {P : Byte → Prop} (h : ∀ n : Fin 256, P (BitVec.ofFin n)) (x : Byte) : P x :=
  h x.toFin

theorem Col.xor_xor (x k : Col) : (x.xor k).xor k = x := by
  simp [Col.xor]

theorem Grid.xor_xor (x k : Grid) : (x.xor k).xor k = x := by
  simp [Grid.xor, Col.xor_xor]

theorem Grid.invShift_shift (x : Grid) : x.shiftRows.invShiftRows = x := rfl

theorem Grid.shift_invShift (x : Grid) : x.invShiftRows.shiftRows = x := rfl

theorem Grid.invSub_sub (x : Grid) : x.subBytes.invSubBytes = x := by
  simp [Grid.subBytes, Grid.invSubBytes, Grid.mapCols, Col.map, invSbox_sbox]

theorem Grid.sub_invSub (x : Grid) : x.invSubBytes.subBytes = x := by
  simp [Grid.subBytes, Grid.invSubBytes, Grid.mapCols, Col.map, sbox_invSbox]

theorem Col.invMix_mix (x : Col) : x.mix.invMix = x := by
  obtain ⟨a, b, c, d⟩ := x
  have z : ∀ x : Byte, x ^^^ 0#8 ^^^ 0#8 ^^^ 0#8 = x ∧ 0#8 ^^^ x ^^^ 0#8 ^^^ 0#8 = x ∧
      0#8 ^^^ 0#8 ^^^ x ^^^ 0#8 = x ∧ 0#8 ^^^ 0#8 ^^^ 0#8 ^^^ x = x := by simp
  have r0 := (row_product additive_mul14 additive_mul11 additive_mul13 additive_mul9
    (every_byte (P := fun x => mul14 (xtime x) ^^^ mul11 x ^^^ (mul13 x ^^^ mul9 (mul3 x)) = x) (by decide +kernel) a)
    (every_byte (P := fun x => mul14 (mul3 x) ^^^ mul11 (xtime x) ^^^ (mul13 x ^^^ mul9 x) = 0#8) (by decide +kernel) b)
    (every_byte (P := fun x => mul14 x ^^^ mul11 (mul3 x) ^^^ (mul13 (xtime x) ^^^ mul9 x) = 0#8) (by decide +kernel) c)
    (every_byte (P := fun x => mul14 x ^^^ mul11 x ^^^ (mul13 (mul3 x) ^^^ mul9 (xtime x)) = 0#8) (by decide +kernel) d)).trans (z a).1
  have r1 := (row_product additive_mul9 additive_mul14 additive_mul11 additive_mul13
    (every_byte (P := fun x => mul9 (xtime x) ^^^ mul14 x ^^^ (mul11 x ^^^ mul13 (mul3 x)) = 0#8) (by decide +kernel) a)
    (every_byte (P := fun x => mul9 (mul3 x) ^^^ mul14 (xtime x) ^^^ (mul11 x ^^^ mul13 x) = x) (by decide +kernel) b)
    (every_byte (P := fun x => mul9 x ^^^ mul14 (mul3 x) ^^^ (mul11 (xtime x) ^^^ mul13 x) = 0#8) (by decide +kernel) c)
    (every_byte (P := fun x => mul9 x ^^^ mul14 x ^^^ (mul11 (mul3 x) ^^^ mul13 (xtime x)) = 0#8) (by decide +kernel) d)).trans (z b).2.1
  have r2 := (row_product additive_mul13 additive_mul9 additive_mul14 additive_mul11
    (every_byte (P := fun x => mul13 (xtime x) ^^^ mul9 x ^^^ (mul14 x ^^^ mul11 (mul3 x)) = 0#8) (by decide +kernel) a)
    (every_byte (P := fun x => mul13 (mul3 x) ^^^ mul9 (xtime x) ^^^ (mul14 x ^^^ mul11 x) = 0#8) (by decide +kernel) b)
    (every_byte (P := fun x => mul13 x ^^^ mul9 (mul3 x) ^^^ (mul14 (xtime x) ^^^ mul11 x) = x) (by decide +kernel) c)
    (every_byte (P := fun x => mul13 x ^^^ mul9 x ^^^ (mul14 (mul3 x) ^^^ mul11 (xtime x)) = 0#8) (by decide +kernel) d)).trans (z c).2.2.1
  have r3 := (row_product additive_mul11 additive_mul13 additive_mul9 additive_mul14
    (every_byte (P := fun x => mul11 (xtime x) ^^^ mul13 x ^^^ (mul9 x ^^^ mul14 (mul3 x)) = 0#8) (by decide +kernel) a)
    (every_byte (P := fun x => mul11 (mul3 x) ^^^ mul13 (xtime x) ^^^ (mul9 x ^^^ mul14 x) = 0#8) (by decide +kernel) b)
    (every_byte (P := fun x => mul11 x ^^^ mul13 (mul3 x) ^^^ (mul9 (xtime x) ^^^ mul14 x) = 0#8) (by decide +kernel) c)
    (every_byte (P := fun x => mul11 x ^^^ mul13 x ^^^ (mul9 (mul3 x) ^^^ mul14 (xtime x)) = x) (by decide +kernel) d)).trans (z d).2.2.2
  simp only [Col.mix, Col.invMix, Col.mk.injEq]
  exact ⟨r0, r1, r2, r3⟩

theorem Col.mix_invMix (x : Col) : x.invMix.mix = x := by
  obtain ⟨a, b, c, d⟩ := x
  have z : ∀ x : Byte, x ^^^ 0#8 ^^^ 0#8 ^^^ 0#8 = x ∧ 0#8 ^^^ x ^^^ 0#8 ^^^ 0#8 = x ∧
      0#8 ^^^ 0#8 ^^^ x ^^^ 0#8 = x ∧ 0#8 ^^^ 0#8 ^^^ 0#8 ^^^ x = x := by simp
  have r0 := (row_product additive_xtime additive_mul3 additive_id additive_id
    (every_byte (P := fun x => xtime (mul14 x) ^^^ mul3 (mul9 x) ^^^ (mul13 x ^^^ mul11 x) = x) (by decide +kernel) a)
    (every_byte (P := fun x => xtime (mul11 x) ^^^ mul3 (mul14 x) ^^^ (mul9 x ^^^ mul13 x) = 0#8) (by decide +kernel) b)
    (every_byte (P := fun x => xtime (mul13 x) ^^^ mul3 (mul11 x) ^^^ (mul14 x ^^^ mul9 x) = 0#8) (by decide +kernel) c)
    (every_byte (P := fun x => xtime (mul9 x) ^^^ mul3 (mul13 x) ^^^ (mul11 x ^^^ mul14 x) = 0#8) (by decide +kernel) d)).trans (z a).1
  have r1 := (row_product additive_id additive_xtime additive_mul3 additive_id
    (every_byte (P := fun x => mul14 x ^^^ xtime (mul9 x) ^^^ (mul3 (mul13 x) ^^^ mul11 x) = 0#8) (by decide +kernel) a)
    (every_byte (P := fun x => mul11 x ^^^ xtime (mul14 x) ^^^ (mul3 (mul9 x) ^^^ mul13 x) = x) (by decide +kernel) b)
    (every_byte (P := fun x => mul13 x ^^^ xtime (mul11 x) ^^^ (mul3 (mul14 x) ^^^ mul9 x) = 0#8) (by decide +kernel) c)
    (every_byte (P := fun x => mul9 x ^^^ xtime (mul13 x) ^^^ (mul3 (mul11 x) ^^^ mul14 x) = 0#8) (by decide +kernel) d)).trans (z b).2.1
  have r2 := (row_product additive_id additive_id additive_xtime additive_mul3
    (every_byte (P := fun x => mul14 x ^^^ mul9 x ^^^ (xtime (mul13 x) ^^^ mul3 (mul11 x)) = 0#8) (by decide +kernel) a)
    (every_byte (P := fun x => mul11 x ^^^ mul14 x ^^^ (xtime (mul9 x) ^^^ mul3 (mul13 x)) = 0#8) (by decide +kernel) b)
    (every_byte (P := fun x => mul13 x ^^^ mul11 x ^^^ (xtime (mul14 x) ^^^ mul3 (mul9 x)) = x) (by decide +kernel) c)
    (every_byte (P := fun x => mul9 x ^^^ mul13 x ^^^ (xtime (mul11 x) ^^^ mul3 (mul14 x)) = 0#8) (by decide +kernel) d)).trans (z c).2.2.1
  have r3 := (row_product additive_mul3 additive_id additive_id additive_xtime
    (every_byte (P := fun x => mul3 (mul14 x) ^^^ mul9 x ^^^ (mul13 x ^^^ xtime (mul11 x)) = 0#8) (by decide +kernel) a)
    (every_byte (P := fun x => mul3 (mul11 x) ^^^ mul14 x ^^^ (mul9 x ^^^ xtime (mul13 x)) = 0#8) (by decide +kernel) b)
    (every_byte (P := fun x => mul3 (mul13 x) ^^^ mul11 x ^^^ (mul14 x ^^^ xtime (mul9 x)) = 0#8) (by decide +kernel) c)
    (every_byte (P := fun x => mul3 (mul9 x) ^^^ mul13 x ^^^ (mul11 x ^^^ xtime (mul14 x)) = x) (by decide +kernel) d)).trans (z d).2.2.2
  simp only [Col.mix, Col.invMix, Col.mk.injEq]
  exact ⟨r0, r1, r2, r3⟩

theorem Grid.invMix_mix (x : Grid) : (x.mapCols Col.mix).mapCols Col.invMix = x := by
  simp [Grid.mapCols, Col.invMix_mix]

theorem Grid.mix_invMix (x : Grid) : (x.mapCols Col.invMix).mapCols Col.mix = x := by
  simp [Grid.mapCols, Col.mix_invMix]

theorem Grid.unround_round (x k : Grid) : Grid.unround k (x.round k) = x := by
  simp [Grid.unround, Grid.round, Grid.xor_xor, Grid.invMix_mix, Grid.invShift_shift, Grid.invSub_sub]

theorem Grid.round_unround (x k : Grid) : (Grid.unround k x).round k = x := by
  simp [Grid.unround, Grid.round, Grid.xor_xor, Grid.mix_invMix, Grid.shift_invShift, Grid.sub_invSub]

/-- Steps done from the left are undone from the right, when each step is undone. -/
theorem foldr_foldl_inverse {α β : Type} (f : β → α → β) (g : α → β → β)
    (h : ∀ x k, g k (f x k) = x) (ks : List α) (x : β) : ks.foldr g (ks.foldl f x) = x := by
  induction ks generalizing x with
  | nil => rfl
  | cons k ks ih => rw [List.foldl_cons, List.foldr_cons, ih, h]

theorem foldl_foldr_inverse {α β : Type} (f : β → α → β) (g : α → β → β)
    (h : ∀ x k, f (g k x) k = x) (ks : List α) (x : β) : ks.foldl f (ks.foldr g x) = x := by
  induction ks with
  | nil => rfl
  | cons k ks ih => rw [List.foldr_cons, List.foldl_cons, h, ih]

theorem decryptGrid_encryptGrid (keys : List Grid) (x : Grid) :
    decryptGrid keys (encryptGrid keys x) = x := by
  cases keys with
  | nil => rfl
  | cons k ks =>
    simp only [decryptGrid, encryptGrid]
    rw [Grid.xor_xor, Grid.invShift_shift, Grid.invSub_sub,
      foldr_foldl_inverse _ _ Grid.unround_round, Grid.xor_xor]

theorem encryptGrid_decryptGrid (keys : List Grid) (y : Grid) :
    encryptGrid keys (decryptGrid keys y) = y := by
  cases keys with
  | nil => rfl
  | cons k ks =>
    simp only [decryptGrid, encryptGrid]
    rw [Grid.xor_xor, foldl_foldr_inverse _ _ Grid.round_unround, Grid.sub_invSub,
      Grid.shift_invShift, Grid.xor_xor]

theorem Grid.ofBytes_toBytes (x : Grid) : Grid.ofBytes x.toBytes = x := rfl

theorem Grid.toBytes_ofBytes (x : List Byte) (h : x.length = 16) : (Grid.ofBytes x).toBytes = x := by
  match x, h with
  | [_, _, _, _, _, _, _, _, _, _, _, _, _, _, _, _], _ => rfl

theorem Grid.length_toBytes (x : Grid) : x.toBytes.length = 16 := rfl

theorem dec_enc (k x : List Byte) (h : x.length = 16) : dec k (enc k x) = x := by
  rw [dec, enc, Grid.ofBytes_toBytes, decryptGrid_encryptGrid, Grid.toBytes_ofBytes x h]

theorem enc_dec (k y : List Byte) (h : y.length = 16) : enc k (dec k y) = y := by
  rw [dec, enc, Grid.ofBytes_toBytes, encryptGrid_decryptGrid, Grid.toBytes_ofBytes y h]

theorem length_enc (k x : List Byte) : (enc k x).length = 16 := rfl

theorem length_dec (k y : List Byte) : (dec k y).length = 16 := rfl

end Sys2Proof.Machine.Aes

namespace Sys2Proof.Machine

theorem length_onBlock (n : Nat) (f : Vector Byte n → Vector Byte n) (x : List Byte) :
    (onBlock n f x).length = x.length := by
  unfold onBlock
  split <;> simp_all

theorem onBlock_onBlock (n : Nat) (f g : Vector Byte n → Vector Byte n) (h : ∀ v, g (f v) = v)
    (x : List Byte) : onBlock n g (onBlock n f x) = x := by
  by_cases hx : x.length = n
  · have hf : onBlock n f x = (f ⟨x.toArray, by simpa using hx⟩).toList := by simp [onBlock, hx]
    have hl : (onBlock n f x).length = n := by rw [length_onBlock, hx]
    rw [onBlock, dif_pos hl]
    have : (⟨(onBlock n f x).toArray, by simpa using hl⟩ : Vector Byte n) = f ⟨x.toArray, by simpa using hx⟩ := by
      apply Vector.toList_inj.mp
      simp [hf]
    rw [this, h]
    simp [Vector.toList]
  · simp [onBlock, hx]

end Sys2Proof.Machine

namespace Sys2Proof.Config.Params

open Sys2Proof.Machine

theorem cipher_aes_block {p : Params} (hp : p.wf = true) (h : p.cipher = .aes) : p.blockBytes = 16 := by
  simp only [wf, cipherOk, h, Bool.and_eq_true, beq_iff_eq] at hp
  exact hp.2.1

/-- R14 law (a), first half. -/
theorem dec_enc {p : Params} (hp : p.wf = true) (k x : List Byte) (hx : x.length = p.blockBytes) :
    p.dec k (p.enc k x) = x := by
  cases h : p.cipher with
  | aes => simpa [dec, enc, h] using Aes.dec_enc k x (hx.trans (cipher_aes_block hp h))
  | external id => simpa [dec, enc, h] using onBlock_onBlock _ _ _ (Equiv.symm_apply_apply _) x

/-- R14 law (a), second half. -/
theorem enc_dec {p : Params} (hp : p.wf = true) (k y : List Byte) (hy : y.length = p.blockBytes) :
    p.enc k (p.dec k y) = y := by
  cases h : p.cipher with
  | aes => simpa [dec, enc, h] using Aes.enc_dec k y (hy.trans (cipher_aes_block hp h))
  | external id => simpa [dec, enc, h] using onBlock_onBlock _ _ _ (Equiv.apply_symm_apply _) y

/-- `Enc` returns a block of `B` bytes. -/
theorem length_enc {p : Params} (hp : p.wf = true) (k x : List Byte) (hx : x.length = p.blockBytes) :
    (p.enc k x).length = p.blockBytes := by
  cases h : p.cipher with
  | aes => rw [enc, h, cipher_aes_block hp h]; rfl
  | external id => simpa [enc, h, length_onBlock] using hx

/-- `Dec` returns a block of `B` bytes. -/
theorem length_dec {p : Params} (hp : p.wf = true) (k y : List Byte) (hy : y.length = p.blockBytes) :
    (p.dec k y).length = p.blockBytes := by
  cases h : p.cipher with
  | aes => rw [dec, h, cipher_aes_block hp h]; rfl
  | external id => simpa [dec, h, length_onBlock] using hy

end Sys2Proof.Config.Params
end

