-- ==== Sys2Proof/Laws/Commands.lean ====
section
/-! SUPPORT. The laws of the completions and of the five commands: what a completion leaves, the CBC
chaining, the result of each command, and one inversion lemma that says everything exec can answer. -/

namespace Sys2Proof.Machine

/-! ## Completions (R196, R197, R199) -/

/-- What the shared part of the three completions leaves. -/
theorem completed_finish (after : Fsm) (code : ErrCode) (out : List Byte) (s : State) :
    Completed after code out s (s.finish after code out) where
  fsm := rfl
  done := rfl
  err := rfl
  ent := rfl
  dstLen := rfl
  result := fun _ h => Buffer.byte_holding h
  unspecified := fun _ h => Buffer.byte_holding_beyond h
  frame := ⟨rfl, rfl, rfl, rfl, rfl, rfl, rfl, rfl, rfl, rfl, rfl, rfl⟩

theorem conclude_ok {r : Except ErrCode (List Byte)} {out : List Byte} (h : r = .ok out) (s : State) :
    conclude r s = .next (s.finish .idle .success out) := by rw [h]; rfl

theorem conclude_error {r : Except ErrCode (List Byte)} {code : ErrCode} (h : r = .error code) (s : State) :
    conclude r s = .next (s.finish .idle code []) := by rw [h]; rfl

theorem withDraw_none {s : State} (h : s.ent = .none) (n : Nat) (short : ErrCode)
    (use : List Byte → List Byte) : withDraw n short use s = .next (s.requestEntropy n) := by
  rw [withDraw, h]

theorem withDraw_pending {s : State} {m : Nat} {got : List Byte} (h : s.ent = .pending m got) (n : Nat)
    (short : ErrCode) (use : List Byte → List Byte) : withDraw n short use s = .next s := by
  rw [withDraw, h]

theorem withDraw_short {s : State} {r : List Byte} (h : s.ent = .answered r) {n : Nat} (hr : r.length < n)
    (short : ErrCode) (use : List Byte → List Byte) :
    withDraw n short use s = .next (s.finish .locked short []) := by
  simp only [withDraw, h, if_pos hr]
  rfl

theorem withDraw_full {s : State} {r : List Byte} (h : s.ent = .answered r) {n : Nat} (hr : n ≤ r.length)
    (short : ErrCode) (use : List Byte → List Byte) :
    withDraw n short use s = .next (s.finish .idle .success (use r)) := by
  simp only [withDraw, h, if_neg (Nat.not_lt.mpr hr)]
  rfl

/-! ## CBC (R141, R142) -/

@[simp] theorem length_cbcEncrypt (enc : List Byte → List Byte) (iv : List Byte) (ps : List (List Byte)) :
    (cbcEncrypt enc iv ps).length = ps.length := by
  induction ps generalizing iv with
  | nil => rfl
  | cons p ps ih => simp [cbcEncrypt, ih]

@[simp] theorem length_cbcDecrypt (dec : List Byte → List Byte) (iv : List Byte) (cs : List (List Byte)) :
    (cbcDecrypt dec iv cs).length = cs.length := by
  induction cs generalizing iv with
  | nil => rfl
  | cons c cs ih => simp [cbcDecrypt, ih]

/-- `C_i = Enc(P_i XOR C_{i-1})`. -/
theorem getElem?_cbcEncrypt (enc : List Byte → List Byte) (iv : List Byte) (ps : List (List Byte)) (i : Nat) :
    (cbcEncrypt enc iv ps)[i]? = ps[i]?.map fun p =>
      enc (xorBytes p (if i = 0 then iv else (cbcEncrypt enc iv ps).getD (i - 1) [])) := by
  induction ps generalizing iv i with
  | nil => simp [cbcEncrypt]
  | cons p ps ih =>
    cases i with
    | zero => simp [cbcEncrypt]
    | succ i =>
      simp only [cbcEncrypt, List.getElem?_cons_succ, Nat.add_sub_cancel, Nat.add_one_ne_zero, if_false]
      rw [ih]
      cases i with
      | zero => simp
      | succ i => simp

/-- `P_i = Dec(C_i) XOR C_{i-1}`. -/
theorem getElem?_cbcDecrypt (dec : List Byte → List Byte) (iv : List Byte) (cs : List (List Byte)) (i : Nat) :
    (cbcDecrypt dec iv cs)[i]? = cs[i]?.map fun c =>
      xorBytes (dec c) (if i = 0 then iv else cs.getD (i - 1) []) := by
  induction cs generalizing iv i with
  | nil => simp [cbcDecrypt]
  | cons c cs ih =>
    cases i with
    | zero => simp [cbcDecrypt]
    | succ i =>
      simp only [cbcDecrypt, List.getElem?_cons_succ, Nat.add_sub_cancel, Nat.add_one_ne_zero, if_false]
      rw [ih]
      cases i with
      | zero => simp
      | succ i => simp

section
variable {enc dec : List Byte → List Byte} {b : Nat}

/-- A cipher pair on blocks of `b` bytes: both keep the length. -/
abbrev KeepsLength (b : Nat) (f : List Byte → List Byte) : Prop := ∀ x, x.length = b → (f x).length = b

theorem length_of_mem_cbcEncrypt (he : KeepsLength b enc) {iv : List Byte} (hiv : iv.length = b)
    {ps : List (List Byte)} (hp : ∀ p ∈ ps, p.length = b) : ∀ c ∈ cbcEncrypt enc iv ps, c.length = b := by
  induction ps generalizing iv with
  | nil => simp [cbcEncrypt]
  | cons p ps ih =>
    have h1 : (enc (xorBytes p iv)).length = b := he _ (by simp [hp p (by simp), hiv])
    intro c hc
    rcases List.mem_cons.mp hc with rfl | hc
    · exact h1
    · exact ih h1 (fun q hq => hp q (by simp [hq])) c hc

theorem length_of_mem_cbcDecrypt (hd : KeepsLength b dec) {iv : List Byte} (hiv : iv.length = b)
    {cs : List (List Byte)} (hc : ∀ c ∈ cs, c.length = b) : ∀ p ∈ cbcDecrypt dec iv cs, p.length = b := by
  induction cs generalizing iv with
  | nil => simp [cbcDecrypt]
  | cons c cs ih =>
    intro p hp
    rcases List.mem_cons.mp hp with rfl | hp
    · simp [hd c (hc c (by simp)), hiv]
    · exact ih (hc c (by simp)) (fun q hq => hc q (by simp [hq])) p hp

theorem cbcDecrypt_cbcEncrypt (h : ∀ x, x.length = b → dec (enc x) = x) (he : KeepsLength b enc)
    {iv : List Byte} (hiv : iv.length = b) {ps : List (List Byte)} (hp : ∀ p ∈ ps, p.length = b) :
    cbcDecrypt dec iv (cbcEncrypt enc iv ps) = ps := by
  induction ps generalizing iv with
  | nil => rfl
  | cons p ps ih =>
    have hl : p.length = b := hp p (by simp)
    have hx : (xorBytes p iv).length = b := by simp [hl, hiv]
    rw [cbcEncrypt, cbcDecrypt, h _ hx, xorBytes_cancel (by omega),
      ih (he _ hx) fun q hq => hp q (by simp [hq])]

theorem cbcEncrypt_cbcDecrypt (h : ∀ x, x.length = b → enc (dec x) = x) (hd : KeepsLength b dec)
    {iv : List Byte} (hiv : iv.length = b) {cs : List (List Byte)} (hc : ∀ c ∈ cs, c.length = b) :
    cbcEncrypt enc iv (cbcDecrypt dec iv cs) = cs := by
  induction cs generalizing iv with
  | nil => rfl
  | cons c cs ih =>
    have hl : c.length = b := hc c (by simp)
    rw [cbcDecrypt, cbcEncrypt, xorBytes_cancel (by rw [hd c hl, hiv]), h c hl,
      ih hl fun q hq => hc q (by simp [hq])]

end

section
variable {cfg : Config.Params} (hc : cfg.wf = true) (k : List Byte)
include hc

theorem block_pos : 0 < cfg.blockBytes := by
  simp only [Config.Params.wf, Config.Params.blockOk, Bool.and_eq_true, decide_eq_true_eq] at hc
  omega

omit hc in
theorem whole_blocks {x : List Byte} (hx : x.length % cfg.blockBytes = 0) :
    x.length = x.length / cfg.blockBytes * cfg.blockBytes :=
  (Nat.div_mul_cancel (Nat.dvd_of_mod_eq_zero hx)).symm

theorem keepsLength_enc : KeepsLength cfg.blockBytes (cfg.enc k) :=
  fun x hx => Config.Params.length_enc hc k x hx

theorem keepsLength_dec : KeepsLength cfg.blockBytes (cfg.dec k) :=
  fun x hx => Config.Params.length_dec hc k x hx

theorem length_cbcEncryptBytes {iv x : List Byte} (hiv : iv.length = cfg.blockBytes)
    (hx : x.length % cfg.blockBytes = 0) : (cbcEncryptBytes cfg k iv x).length = x.length := by
  have hw := whole_blocks hx
  rw [cbcEncryptBytes, length_flatten_blocks (length_of_mem_cbcEncrypt (keepsLength_enc hc k) hiv
    fun p hp => length_of_mem_blocks hw hp), length_cbcEncrypt, length_blocks, ← hw]

theorem length_cbcDecryptBytes {iv x : List Byte} (hiv : iv.length = cfg.blockBytes)
    (hx : x.length % cfg.blockBytes = 0) : (cbcDecryptBytes cfg k iv x).length = x.length := by
  have hw := whole_blocks hx
  rw [cbcDecryptBytes, length_flatten_blocks (length_of_mem_cbcDecrypt (keepsLength_dec hc k) hiv
    fun p hp => length_of_mem_blocks hw hp), length_cbcDecrypt, length_blocks, ← hw]

omit hc in
/-- The blocks of an encryption, for a string of whole blocks. -/
theorem cbcEncryption_spec {iv x : List Byte} :
    ∃ cs, CbcEncryption (cfg.enc k) cfg.blockBytes iv x cs ∧ cbcEncryptBytes cfg k iv x = cs.flatten := by
  refine ⟨_, ⟨?_, ?_⟩, rfl⟩
  · rw [length_cbcEncrypt, length_blocks]
  · intro i hi
    rw [length_cbcEncrypt, length_blocks] at hi
    rw [getElem?_cbcEncrypt, getElem?_blocks _ _ _ _ hi]
    rfl

omit hc in
/-- The blocks of a decryption. -/
theorem cbcDecryption_spec {iv x : List Byte} :
    ∃ ps, CbcDecryption (cfg.dec k) cfg.blockBytes iv x ps ∧ cbcDecryptBytes cfg k iv x = ps.flatten := by
  refine ⟨_, ⟨?_, ?_⟩, rfl⟩
  · rw [length_cbcDecrypt, length_blocks]
  · intro i hi
    rw [length_cbcDecrypt, length_blocks] at hi
    rw [getElem?_cbcDecrypt, getElem?_blocks _ _ _ _ hi]
    simp only [Option.map_some, Option.some.injEq]
    congr 1
    split
    · rfl
    · rw [List.getD_eq_getElem?_getD, getElem?_blocks _ _ _ _ (by omega)]
      rfl

end

/-- Decryption never lengthens: each block is cut to its predecessor's length. -/
theorem length_flatten_cbcDecrypt_le {b : Nat} (dec : List Byte → List Byte) {iv : List Byte}
    (hiv : iv.length ≤ b) {cs : List (List Byte)} (hc : ∀ c ∈ cs, c.length ≤ b) :
    (cbcDecrypt dec iv cs).flatten.length ≤ cs.length * b := by
  induction cs generalizing iv with
  | nil => simp [cbcDecrypt]
  | cons c cs ih =>
    have := ih (hc c (by simp)) fun q hq => hc q (by simp [hq])
    simp only [cbcDecrypt, List.flatten_cons, List.length_append, length_xorBytes, List.length_cons,
      Nat.add_mul, Nat.one_mul]
    omega

theorem length_le_of_mem_blocks {b k : Nat} {p q : List Byte} (hq : q ∈ blocks b k p) : q.length ≤ b := by
  induction k generalizing p with
  | zero => simp [blocks] at hq
  | succ k ih =>
    rcases List.mem_cons.mp hq with rfl | hq
    · simp only [List.length_take]
      omega
    · exact ih hq

/-! ## How long a result is -/

theorem length_stripPadding_le {d out : List Byte} (h : stripPadding d = .ok out) : out.length ≤ d.length := by
  unfold stripPadding at h
  simp only at h
  split at h
  · cases h
  · split at h
    · cases h
      simp only [List.length_take]
      omega
    · cases h

theorem length_data_le (snap : Snapshot) : snap.data.length ≤ snap.length := by
  simp only [Snapshot.data, List.length_take]
  omega

theorem length_padResult_le {cfg : Config.Params} {snap : Snapshot} {out : List Byte}
    (h : padResult cfg snap = .ok out) : out.length ≤ cfg.bufBytes := by
  unfold padResult at h
  split at h
  · cases h
  · split at h
    · cases h
    · split at h
      · cases h
      · cases h
        have := length_data_le snap
        simp only [List.length_append, length_padBytes]
        omega

theorem length_unpadResult_le {cfg : Config.Params} {snap : Snapshot} {out : List Byte}
    (h : unpadResult cfg snap = .ok out) : out.length ≤ cfg.bufBytes := by
  unfold unpadResult at h
  split at h
  · cases h
  · split at h
    · cases h
    · split at h
      · cases h
      · have := length_stripPadding_le h
        have := length_data_le snap
        omega

theorem length_decryptResult_le {cfg : Config.Params} {snap : Snapshot} {out : List Byte}
    (h : decryptResult cfg snap = .ok out) : out.length ≤ cfg.bufBytes := by
  unfold decryptResult at h
  split at h
  · cases h
  · split at h
    · cases h
    · split at h
      · cases h
      · split at h
        · cases h
        · have h1 := length_stripPadding_le h
          have h2 := length_data_le snap
          have h3 := length_flatten_cbcDecrypt_le (b := cfg.blockBytes)
            (cfg.dec snap.selectedKey) (iv := snap.data.take cfg.blockBytes) (by simp)
            (cs := blocks cfg.blockBytes ((snap.data.drop cfg.blockBytes).length / cfg.blockBytes)
              (snap.data.drop cfg.blockBytes)) fun c hc => length_le_of_mem_blocks hc
          rw [length_blocks] at h3
          have h4 := Nat.div_mul_le_self (snap.data.drop cfg.blockBytes).length cfg.blockBytes
          rw [List.length_drop] at h3 h4
          rw [cbcDecryptBytes, List.length_drop] at h1
          omega

/-! ## The checks before a draw -/

theorem encryptDraw_ok {cfg : Config.Params} {snap : Snapshot} {n : Nat} (h : encryptDraw cfg snap = .ok n) :
    n = cfg.blockBytes ∧ snap.length ≤ cfg.bufBytes ∧ snap.keyLength ∈ cfg.keySizes ∧
      blobLength cfg snap.length ≤ cfg.bufBytes := by
  unfold encryptDraw at h
  split at h
  · cases h
  · split at h
    · cases h
    · split at h
      · cases h
      · rename_i h1 h2 h3
        cases h
        refine ⟨rfl, by omega, ?_, by omega⟩
        simpa [supportedKey] using h2

theorem randhexDraw_ok {cfg : Config.Params} {snap : Snapshot} {n : Nat} (h : randhexDraw cfg snap = .ok n) :
    n = snap.length ∧ 2 * snap.length ≤ cfg.bufBytes := by
  unfold randhexDraw at h
  split at h
  · cases h
  · cases h
    exact ⟨rfl, by omega⟩

theorem encryptDraw_error {cfg : Config.Params} {snap : Snapshot} {code : ErrCode}
    (h : encryptDraw cfg snap = .error code) : code = .lengthOutOfRange ∨ code = .invalidKeySize := by
  unfold encryptDraw at h
  split at h
  · cases h; simp
  · split at h
    · cases h; simp
    · split at h
      · cases h; simp
      · cases h

theorem randhexDraw_error {cfg : Config.Params} {snap : Snapshot} {code : ErrCode}
    (h : randhexDraw cfg snap = .error code) : code = .lengthOutOfRange := by
  unfold randhexDraw at h
  split at h <;> cases h
  rfl

theorem stripPadding_code {d : List Byte} {code : ErrCode} (h : stripPadding d = .error code) :
    code = .invalidPadding := by
  unfold stripPadding at h
  simp only at h
  split at h
  · cases h; rfl
  · split at h <;> cases h
    rfl

theorem padResult_error {cfg : Config.Params} {snap : Snapshot} {code : ErrCode}
    (h : padResult cfg snap = .error code) : code = .lengthOutOfRange ∨ code = .invalidBlockSize := by
  unfold padResult at h
  split at h
  · cases h; simp
  · split at h
    · cases h; simp
    · split at h <;> cases h
      simp

theorem unpadResult_error {cfg : Config.Params} {snap : Snapshot} {code : ErrCode}
    (h : unpadResult cfg snap = .error code) :
    code = .lengthOutOfRange ∨ code = .invalidBlockSize ∨ code = .invalidPadding := by
  unfold unpadResult at h
  split at h
  · cases h; simp
  · split at h
    · cases h; simp
    · split at h
      · cases h; simp
      · simp [stripPadding_code h]

theorem decryptResult_error {cfg : Config.Params} {snap : Snapshot} {code : ErrCode}
    (h : decryptResult cfg snap = .error code) :
    code = .lengthOutOfRange ∨ code = .invalidKeySize ∨ code = .malformedCiphertext ∨
      code = .invalidCiphertextLength ∨ code = .invalidPadding := by
  unfold decryptResult at h
  split at h
  · cases h; simp
  · split at h
    · cases h; simp
    · split at h
      · cases h; simp
      · split at h
        · cases h; simp
        · simp [stripPadding_code h]

/-! ## The results of the commands on good inputs -/

/-- The input bytes of a command are the snapshot's, where none is missing (R104). -/
theorem Snapshot.data_eq {snap : Snapshot} (h : snap.whole) : snap.data = snap.input := by
  rw [Snapshot.data, ← h, List.take_length]

/-- PAD of an input that fits with its padding (R122). -/
theorem padResult_ok {cfg : Config.Params} {snap : Snapshot} (h1 : 0 < snap.bs.toInt) (h2 : snap.bs.toInt ≤ 255)
    (h : snap.length + padLen snap.length snap.bs.toInt.toNat ≤ cfg.bufBytes) :
    padResult cfg snap = .ok (snap.data ++ padBytes (padLen snap.length snap.bs.toInt.toNat)) := by
  unfold padResult
  have : legalBlockSize snap.blockSize = true := by rw [legalBlockSize_iff]; exact ⟨h1, h2⟩
  rw [if_neg (by omega), this, if_neg (by simp), Snapshot.blockSize, if_neg (by omega)]

/-- The last byte of a string by its index. -/
theorem getLastD_eq (d : List Byte) : d.getLastD 0 = d.getD (d.length - 1) 0 := by
  cases d with
  | nil => rfl
  | cons x d => simp [List.getLastD_eq_getLast?, List.getLast?_eq_getElem?]

/-- The byte check of UNPAD and DECRYPT, byte by byte (R130). -/
theorem drop_eq_replicate_iff {d : List Byte} {n : Nat} (hn : n ≤ d.length) (h255 : n ≤ 255) :
    d.drop (d.length - n) = List.replicate n (BitVec.ofNat 8 n) ↔
      ∀ i, d.length - n ≤ i → i < d.length → (d.getD i 0).toNat = n := by
  have e : (BitVec.ofNat 8 n).toNat = n := by simp; omega
  constructor
  · intro h i h1 h2
    have := congrArg (fun l => l.getD (i - (d.length - n)) 0) h
    simp only [List.getD_eq_getElem?_getD, List.getElem?_drop] at this
    rw [show d.length - n + (i - (d.length - n)) = i from by omega, List.getElem?_replicate, if_pos (by omega)] at this
    rw [List.getD_eq_getElem?_getD, this]
    simpa using e
  · intro h
    apply List.ext_getElem
    · simp; omega
    · intro i h1 h2
      simp only [List.length_replicate] at h2
      have := h (d.length - n + i) (by omega) (by omega)
      rw [List.getD_eq_getElem?_getD, List.getElem?_eq_getElem (by omega)] at this
      rw [List.getElem_drop, List.getElem_replicate, ← BitVec.toNat_inj, e]
      simpa using this

/-- UNPAD of an input that ends in a valid padding (R130, R131). -/
theorem unpadResult_ok {cfg : Config.Params} {snap : Snapshot} {n : Nat} (hw : snap.whole) (hl : snap.length ≤ cfg.bufBytes)
    (h1 : 0 < snap.bs.toInt) (h2 : snap.bs.toInt ≤ 255) (hm : snap.length % snap.bs.toInt.toNat = 0)
    (he : EndsInPadding snap.input n) : unpadResult cfg snap = .ok (snap.input.take (snap.length - n)) := by
  have : legalBlockSize snap.blockSize = true := by rw [legalBlockSize_iff]; exact ⟨h1, h2⟩
  have hlen : snap.input.length = snap.length := hw
  have := he.1
  have := he.2.1
  unfold unpadResult
  rw [if_neg (by omega), ‹legalBlockSize _ = true›, if_neg (by simp), Snapshot.blockSize, if_neg (by omega), Snapshot.data_eq hw,
    stripPadding_ok he, hlen]

/-! ## Success, read backwards -/

/-- DST_LEN after a completion (R196). -/
theorem dstLen_finish {after : Fsm} {code : ErrCode} {out : List Byte} {s : State} (h : out.length ≤ 4096) :
    (s.finish after code out).dstLen.toNat = out.length := by
  show (BitVec.ofNat 32 out.length).toNat = _
  rw [BitVec.toNat_ofNat, Nat.mod_eq_of_lt (by omega)]

/-- The result string as the host reads it (R196). -/
theorem obuf_finish {after : Fsm} {code : ErrCode} {out : List Byte} {s : State} (h : out.length ≤ 4096) :
    (s.finish after code out).obuf.bytes (s.finish after code out).dstLen.toNat = out := by
  rw [dstLen_finish h]
  exact Buffer.bytes_holding _ _

/-- A command without a draw that ends with success has a result string. -/
theorem conclude_success {r : Except ErrCode (List Byte)} {s t : State} (h : conclude r s = .next t)
    (he : t.err = .success) (hr : r ≠ .error .success) : ∃ out, r = .ok out ∧ t = s.finish .idle .success out := by
  cases hc : r with
  | ok out =>
    rw [conclude_ok hc] at h
    cases h
    exact ⟨out, rfl, rfl⟩
  | error c =>
    rw [conclude_error hc] at h
    cases h
    exact absurd (by rw [hc, show c = .success from he]) hr

/-- What a successful PAD says of its snapshot (R122). -/
theorem padResult_inv {cfg : Config.Params} {snap : Snapshot} {out : List Byte} (h : padResult cfg snap = .ok out) :
    0 < snap.bs.toInt ∧ snap.bs.toInt ≤ 255 ∧ snap.length + padLen snap.length snap.bs.toInt.toNat ≤ cfg.bufBytes ∧
    out = snap.data ++ padBytes (padLen snap.length snap.bs.toInt.toNat) := by
  unfold padResult at h
  split at h
  · cases h
  split at h
  · cases h
  rename_i h2
  split at h
  · cases h
  rename_i h3
  cases h
  have := (legalBlockSize_iff snap.blockSize).mp (by simpa using h2)
  exact ⟨this.1, this.2, by simpa [Snapshot.blockSize] using h3, rfl⟩

/-- A string that ends in a valid padding is what comes before it, and the padding. -/
theorem EndsInPadding.split {d : List Byte} {n : Nat} (h : EndsInPadding d n) :
    d = d.take (d.length - n) ++ padBytes n := by
  conv => lhs; rw [← List.take_append_drop (d.length - n) d, h.2.2.2]
  rfl

/-- What a successful UNPAD says of its snapshot (R130). -/
theorem unpadResult_inv {cfg : Config.Params} {snap : Snapshot} {out : List Byte} (h : unpadResult cfg snap = .ok out) :
    0 < snap.bs.toInt ∧ snap.bs.toInt ≤ 255 ∧ snap.length ≤ cfg.bufBytes ∧ snap.length % snap.bs.toInt.toNat = 0 ∧
    ∃ n, EndsInPadding snap.data n ∧ out = snap.data.take (snap.data.length - n) := by
  unfold unpadResult at h
  split at h
  · cases h
  rename_i h1
  split at h
  · cases h
  rename_i h2
  split at h
  · cases h
  rename_i h3
  have := (legalBlockSize_iff snap.blockSize).mp (by simpa using h2)
  have hm : snap.length % snap.blockSize.toNat = 0 := by omega
  refine ⟨this.1, this.2, by omega, hm, ?_⟩
  by_cases he : ∃ n, EndsInPadding snap.data n
  · obtain ⟨n, hn⟩ := he
    rw [stripPadding_ok hn] at h
    cases h
    exact ⟨n, hn, rfl⟩
  · rw [stripPadding_error (by simpa using he)] at h
    cases h

/-- ENCRYPT draws where its checks pass (R145). -/
theorem encryptDraw_of {cfg : Config.Params} {snap : Snapshot} (hk : snap.keyLength ∈ cfg.keySizes)
    (h : blobLength cfg snap.length ≤ cfg.bufBytes) : encryptDraw cfg snap = .ok cfg.blockBytes := by
  unfold encryptDraw
  have : snap.length ≤ blobLength cfg snap.length := by unfold blobLength; omega
  have hs : supportedKey cfg snap = true := by simpa [supportedKey] using hk
  rw [if_neg (by omega), hs, if_neg (by simp), if_neg (by omega)]

/-- A padded string is whole blocks (R123). -/
theorem padded_mod {b : Nat} (hb : 0 < b) {x : List Byte} {l : Nat} (hx : x.length = l) :
    (x ++ padBytes (padLen l b)).length % b = 0 := by
  rw [List.length_append, length_padBytes, hx]
  exact add_padLen_mod hb l

/-- The length of ENCRYPT's blob (R145). -/
theorem length_encryptBlob {cfg : Config.Params} {snap : Snapshot} {r : List Byte} (hc : cfg.wf = true) (hw : snap.whole)
    (hr : r.length = cfg.blockBytes) : (encryptBlob cfg snap r).length = blobLength cfg snap.length := by
  have hb := block_pos hc
  unfold encryptBlob
  rw [Snapshot.data_eq hw, List.length_append, length_cbcEncryptBytes hc _ hr (padded_mod hb hw), List.length_append,
    length_padBytes, hr, hw, blobLength]
  omega

/-- What a successful ENCRYPT says (R145). -/
theorem encrypt_success {s t : State} {r : List Byte} (hr : s.ent = .answered r) (h : exec .encrypt s = .next t)
    (he : t.err = .success) : s.snap.keyLength ∈ s.cfg.keySizes ∧ blobLength s.cfg s.snap.length ≤ s.cfg.bufBytes ∧
      s.cfg.blockBytes ≤ r.length ∧ t = s.finish .idle .success (encryptBlob s.cfg s.snap r) := by
  have h' : execEncrypt s = .next t := h
  unfold execEncrypt at h'
  cases hd : encryptDraw s.cfg s.snap with
  | error c =>
    rw [hd] at h'
    cases h'
    rcases encryptDraw_error hd with hc | hc
    · exact absurd he (by rw [hc]; simp [State.completeError, State.finish])
    · exact absurd he (by rw [hc]; simp [State.completeError, State.finish])
  | ok n =>
    rw [hd] at h'
    obtain ⟨hn, _, h2, h3⟩ := encryptDraw_ok hd
    subst hn
    simp only at h'
    by_cases hl : r.length < s.cfg.blockBytes
    · rw [withDraw_short hr hl] at h'
      cases h'
      exact absurd he (by simp [State.finish])
    · rw [withDraw_full hr (by omega)] at h'
      cases h'
      exact ⟨h2, h3, by omega, rfl⟩

/-- DECRYPT where its checks before the padding pass (R150). -/
theorem decryptResult_strip {cfg : Config.Params} {snap : Snapshot} (hw : snap.whole) (h1 : snap.length ≤ cfg.bufBytes)
    (hk : snap.keyLength ∈ cfg.keySizes) (h2 : 2 * cfg.blockBytes ≤ snap.length)
    (h3 : (snap.length - cfg.blockBytes) % cfg.blockBytes = 0) :
    decryptResult cfg snap = stripPadding (cbcDecryptBytes cfg snap.selectedKey (snap.input.take cfg.blockBytes)
      (snap.input.drop cfg.blockBytes)) := by
  unfold decryptResult
  have : supportedKey cfg snap = true := by simpa [supportedKey] using hk
  rw [if_neg (by omega), this, if_neg (by simp), if_neg (by omega), if_neg (by omega), Snapshot.data_eq hw]

/-- RANDHEX as one equation (R175). -/
theorem exec_randhex_eq (s : State) : exec .randhex s =
    if s.cfg.bufBytes < 2 * s.snap.length then .next (s.finish .idle .lengthOutOfRange [])
    else if s.snap.length = 0 then .next (s.finish .idle .success [])
    else withDraw s.snap.length .entropySourceFailure hexString s := by
  show execRandhex s = _
  unfold execRandhex randhexDraw
  by_cases h : s.cfg.bufBytes < 2 * s.snap.length
  · rw [if_pos h, if_pos h]; rfl
  · rw [if_neg h, if_neg h]
    by_cases h0 : s.snap.length = 0
    · rw [if_pos h0, h0]; rfl
    · rw [if_neg h0]
      obtain ⟨k, hk⟩ : ∃ k, s.snap.length = k + 1 := ⟨s.snap.length - 1, by omega⟩
      rw [hk]; rfl

/-! ## Everything exec can answer -/

/-- The codes an ending of each command without entropy failure can report, apart from success. -/
def errorCodes : Instr → List ErrCode
  | .pad => [.lengthOutOfRange, .invalidBlockSize]
  | .unpad => [.lengthOutOfRange, .invalidBlockSize, .invalidPadding]
  | .encrypt => [.lengthOutOfRange, .invalidKeySize]
  | .decrypt => [.lengthOutOfRange, .invalidKeySize, .malformedCiphertext, .invalidCiphertextLength,
      .invalidPadding]
  | .randhex => [.lengthOutOfRange]

/-- The draw a command makes, and the code of its failure. -/
def drawOf (i : Instr) (cfg : Config.Params) (snap : Snapshot) : Option (Nat × ErrCode) :=
  match i with
  | .encrypt => (encryptDraw cfg snap).toOption.map fun n => (n, .insufficientEntropy)
  | .randhex => ((randhexDraw cfg snap).toOption.filter (0 < ·)).map fun n => (n, .entropySourceFailure)
  | .pad => none
  | .unpad => none
  | .decrypt => none

/-- The draw of the command a snapshot's word decodes to is the one its invariant speaks of. -/
theorem drawNeeded_eq {cfg : Config.Params} {snap : Snapshot} {i : Instr} (h : decode snap.cmd = .ok i) :
    drawNeeded cfg snap = (drawOf i cfg snap).map (·.1) := by
  unfold drawNeeded drawOf
  rw [h]
  cases i <;> simp [Function.comp_def]

/-- What a command that needs no draw ends with. -/
def directResult (i : Instr) (cfg : Config.Params) (snap : Snapshot) : Except ErrCode (List Byte) :=
  match i with
  | .pad => padResult cfg snap
  | .unpad => unpadResult cfg snap
  | .decrypt => decryptResult cfg snap
  | .encrypt => (encryptDraw cfg snap).map fun _ => []
  | .randhex => (randhexDraw cfg snap).map fun _ => []

/-- What a full draw is made into. -/
def drawResult (i : Instr) (cfg : Config.Params) (snap : Snapshot) (r : List Byte) : List Byte :=
  match i with
  | .encrypt => encryptBlob cfg snap r
  | .randhex => hexString r
  | .pad => []
  | .unpad => []
  | .decrypt => []

/-- A command is either one that ends at once with its direct result, or one that draws. -/
theorem exec_eq (i : Instr) (s : State) :
    exec i s = match drawOf i s.cfg s.snap with
      | none => conclude (directResult i s.cfg s.snap) s
      | some (n, short) => withDraw n short (drawResult i s.cfg s.snap) s := by
  cases i with
  | pad => rfl
  | unpad => rfl
  | decrypt => rfl
  | encrypt =>
    simp only [exec, execEncrypt, drawOf, directResult]
    cases h : encryptDraw s.cfg s.snap with
    | error c => rfl
    | ok n => rfl
  | randhex =>
    simp only [exec, execRandhex, drawOf, directResult]
    cases h : randhexDraw s.cfg s.snap with
    | error c => rfl
    | ok n =>
      cases n with
      | zero => rfl
      | succ n => rfl

theorem directResult_error {i : Instr} {cfg : Config.Params} {snap : Snapshot} {code : ErrCode}
    (h : directResult i cfg snap = .error code) : code ∈ errorCodes i := by
  cases i with
  | pad => simpa [errorCodes] using padResult_error h
  | unpad => simpa [errorCodes] using unpadResult_error h
  | decrypt => simpa [errorCodes] using decryptResult_error h
  | encrypt =>
    simp only [directResult] at h
    cases he : encryptDraw cfg snap with
    | error c => rw [he] at h; cases h; simpa [errorCodes] using encryptDraw_error he
    | ok n => rw [he] at h; cases h
  | randhex =>
    simp only [directResult] at h
    cases he : randhexDraw cfg snap with
    | error c => rw [he] at h; cases h; simpa [errorCodes] using randhexDraw_error he
    | ok n => rw [he] at h; cases h

theorem length_directResult_le {i : Instr} {cfg : Config.Params} {snap : Snapshot} {out : List Byte}
    (h : directResult i cfg snap = .ok out) : out.length ≤ cfg.bufBytes := by
  cases i with
  | pad => exact length_padResult_le h
  | unpad => exact length_unpadResult_le h
  | decrypt => exact length_decryptResult_le h
  | encrypt =>
    simp only [directResult] at h
    cases he : encryptDraw cfg snap <;> rw [he] at h <;> cases h
    simp
  | randhex =>
    simp only [directResult] at h
    cases he : randhexDraw cfg snap <;> rw [he] at h <;> cases h
    simp

theorem errorCodes_not_fatal {i : Instr} {code : ErrCode} (h : code ∈ errorCodes i) :
    code.fatal = false ∧ code ≠ .success := by
  cases i <;> simp only [errorCodes, List.mem_cons, List.not_mem_nil, or_false] at h <;>
    rcases h with rfl | rfl | rfl | rfl | rfl <;> simp [ErrCode.fatal]

theorem drawOf_short_fatal {i : Instr} {cfg : Config.Params} {snap : Snapshot} {n : Nat} {short : ErrCode}
    (h : drawOf i cfg snap = some (n, short)) :
    short.fatal = true ∧ short = (if i = .encrypt then .insufficientEntropy else .entropySourceFailure) ∧
      (i = .encrypt ∨ i = .randhex) := by
  cases i <;> simp only [drawOf, Option.map_eq_some_iff, Prod.mk.injEq, reduceCtorEq] at h
  · obtain ⟨_, _, _, rfl⟩ := h
    exact ⟨rfl, rfl, .inl rfl⟩
  · obtain ⟨_, _, _, rfl⟩ := h
    exact ⟨rfl, rfl, .inr rfl⟩

/-- What a draw of a command is: its size and its bounds (R35, R145, R175). -/
theorem drawOf_bounds {i : Instr} {cfg : Config.Params} {snap : Snapshot} {n : Nat} {short : ErrCode}
    (hc : cfg.wf = true) (h : drawOf i cfg snap = some (n, short)) :
    1 ≤ n ∧ n ≤ 2048 ∧
      ((i = .encrypt ∧ n = cfg.blockBytes ∧ blobLength cfg snap.length ≤ cfg.bufBytes) ∨
        (i = .randhex ∧ n = snap.length ∧ 2 * snap.length ≤ cfg.bufBytes)) := by
  simp only [Config.Params.wf, Config.Params.blockOk, Config.Params.bufOk, Bool.and_eq_true,
    decide_eq_true_eq] at hc
  cases i with
  | encrypt =>
    simp only [drawOf, Option.map_eq_some_iff, Prod.mk.injEq] at h
    obtain ⟨m, hm, hmn, _⟩ := h
    cases he : encryptDraw cfg snap with
    | error c => rw [he] at hm; cases hm
    | ok k =>
      rw [he] at hm
      cases hm
      have := encryptDraw_ok he
      exact ⟨by omega, by omega, .inl ⟨rfl, by omega, this.2.2.2⟩⟩
  | randhex =>
    simp only [drawOf, Option.map_eq_some_iff, Prod.mk.injEq, Option.filter_eq_some_iff] at h
    obtain ⟨m, ⟨hm, hpos⟩, hmn, _⟩ := h
    cases he : randhexDraw cfg snap with
    | error c => rw [he] at hm; cases hm
    | ok k =>
      rw [he] at hm
      cases hm
      have := randhexDraw_ok he
      have : 0 < m := by simpa using hpos
      exact ⟨by omega, by omega, .inr ⟨rfl, by omega, by omega⟩⟩
  | pad => cases h
  | unpad => cases h
  | decrypt => cases h

/-- A command that needs entropy asks for 1 to 2048 bytes, so its request fits ENT_LEN. -/
theorem drawNeeded_bounds {cfg : Config.Params} {snap : Snapshot} {n : Nat} (hc : cfg.wf = true)
    (h : drawNeeded cfg snap = some n) : 1 ≤ n ∧ n ≤ 2048 := by
  cases hd : decode snap.cmd with
  | error e => rw [drawNeeded, hd] at h; cases h
  | ok i =>
    rw [drawNeeded_eq hd, Option.map_eq_some_iff] at h
    obtain ⟨⟨m, short⟩, hdr, rfl⟩ := h
    have := drawOf_bounds hc hdr
    exact ⟨this.1, this.2.1⟩

/-- Everything exec can answer: a success, an error completion with a code of the command, a fatal
completion after a short draw, a request, or waiting. -/
theorem exec_cases {i : Instr} {s t : State} (h : exec i s = .next t) :
    (∃ out, t = s.finish .idle .success out ∧
      ((drawOf i s.cfg s.snap = none ∧ directResult i s.cfg s.snap = .ok out) ∨
        ∃ n short r, drawOf i s.cfg s.snap = some (n, short) ∧ s.ent = .answered r ∧ n ≤ r.length ∧
          out = drawResult i s.cfg s.snap r)) ∨
    (∃ code, t = s.finish .idle code [] ∧ code ∈ errorCodes i ∧ drawOf i s.cfg s.snap = none) ∨
    (∃ n short r, t = s.finish .locked short [] ∧ drawOf i s.cfg s.snap = some (n, short) ∧
      s.ent = .answered r ∧ r.length < n) ∨
    (∃ n short, t = s.requestEntropy n ∧ drawOf i s.cfg s.snap = some (n, short) ∧ s.ent = .none) ∨
    (∃ n short m got, t = s ∧ drawOf i s.cfg s.snap = some (n, short) ∧ s.ent = .pending m got) := by
  rw [exec_eq] at h
  cases hd : drawOf i s.cfg s.snap with
  | none =>
    rw [hd] at h
    simp only at h
    cases hr : directResult i s.cfg s.snap with
    | ok out =>
      rw [conclude_ok hr] at h
      cases h
      exact .inl ⟨out, rfl, .inl ⟨rfl, rfl⟩⟩
    | error code =>
      rw [conclude_error hr] at h
      cases h
      exact .inr (.inl ⟨code, rfl, directResult_error hr, rfl⟩)
  | some p =>
    obtain ⟨n, short⟩ := p
    rw [hd] at h
    simp only at h
    cases he : s.ent with
    | none =>
      rw [withDraw_none he] at h
      cases h
      exact .inr (.inr (.inr (.inl ⟨n, short, rfl, rfl, rfl⟩)))
    | pending m got =>
      rw [withDraw_pending he] at h
      cases h
      exact .inr (.inr (.inr (.inr ⟨n, short, m, got, rfl, rfl, rfl⟩)))
    | answered r =>
      by_cases hr : r.length < n
      · rw [withDraw_short he hr] at h
        cases h
        exact .inr (.inr (.inl ⟨n, short, r, rfl, rfl, rfl, hr⟩))
      · rw [withDraw_full he (by omega)] at h
        cases h
        exact .inl ⟨_, rfl, .inr ⟨n, short, r, rfl, rfl, by omega, rfl⟩⟩

/-- exec always answers a next state. -/
theorem exec_next (i : Instr) (s : State) : ∃ t, exec i s = .next t := by
  rw [exec_eq]
  cases drawOf i s.cfg s.snap with
  | none =>
    cases hr : directResult i s.cfg s.snap with
    | ok out => exact ⟨_, conclude_ok rfl s⟩
    | error code => exact ⟨_, conclude_error rfl s⟩
  | some p =>
    obtain ⟨n, short⟩ := p
    cases he : s.ent with
    | none => exact ⟨_, withDraw_none he _ _ _⟩
    | pending m got => exact ⟨_, withDraw_pending he _ _ _⟩
    | answered r =>
      by_cases hr : r.length < n
      · exact ⟨_, withDraw_short he hr _ _⟩
      · exact ⟨_, withDraw_full he (by omega) _ _⟩

end Sys2Proof.Machine
end

