-- ==== Sys2Proof/Laws/Decode.lean ====
section
/-! SUPPORT. The law of the decoder: which words decode to a command. -/

namespace Sys2Proof

/-- A word decodes to a command exactly if its number is the command's opcode (30_encoding.md R101). -/
theorem decode_iff (w : Word) (i : Instr) : decode w = .ok i ↔ w.toNat = (opcodeOf i).toNat := by
  have hr : rsvField w = 0 ↔ w.toNat < 256 := by
    rw [← BitVec.toNat_inj]
    have := w.isLt
    simp only [rsvField, BitVec.extractLsb'_toNat, Nat.shiftRight_eq_div_pow]
    simp
    omega
  have ho : ∀ c : Byte, opcField w = c ↔ w.toNat % 256 = c.toNat := by
    intro c
    rw [← BitVec.toNat_inj]
    simp [opcField, BitVec.extractLsb'_toNat]
  unfold decode
  by_cases h : rsvField w = 0
  · have hw := hr.mp h
    rw [if_neg (by simpa using h)]
    unfold decodeOpc
    simp only [ho]
    have hm : w.toNat % 256 = w.toNat := Nat.mod_eq_of_lt hw
    rw [hm]
    by_cases h1 : w.toNat = 1
    · rw [h1]; cases i <;> decide
    by_cases h2 : w.toNat = 2
    · rw [h2]; cases i <;> decide
    by_cases h3 : w.toNat = 3
    · rw [h3]; cases i <;> decide
    by_cases h4 : w.toNat = 4
    · rw [h4]; cases i <;> decide
    by_cases h5 : w.toNat = 5
    · rw [h5]; cases i <;> decide
    rw [if_neg (by exact h1), if_neg (by exact h2), if_neg (by exact h3), if_neg (by exact h4), if_neg (by exact h5)]
    simp only [reduceCtorEq, false_iff]
    cases i <;> assumption
  · rw [if_pos h]
    have : ¬ w.toNat < 256 := fun hh => h (hr.mpr hh)
    simp
    have := (opcodeOf i).isLt
    omega

end Sys2Proof
end

