-- ==== Sys2Proof/Laws/PerInstr.lean ====
section
/-! SUPPORT. Laws of every instruction as syntax, one lemma per constructor. -/

namespace Sys2Proof.Laws.ReservedZero

/-- A command is well-formed, the RSV field of its word is zero and its OPC field is its opcode
(30_encoding.md R100, R101). -/
def Statement (i : Instr) : Prop :=
  i.wf = true ∧ rsvField (encode i) = 0 ∧ opcField (encode i) = opcodeOf i

theorem pad : Statement .pad := by unfold Statement; decide

theorem unpad : Statement .unpad := by unfold Statement; decide

theorem encrypt : Statement .encrypt := by unfold Statement; decide

theorem decrypt : Statement .decrypt := by unfold Statement; decide

theorem randhex : Statement .randhex := by unfold Statement; decide

end Sys2Proof.Laws.ReservedZero
end

