-- ==== Sys2Proof/Laws/Step.lean ====
section
/-! SUPPORT. The laws of a step: it is the mover's turn on the state with that turn taken off the list, and
what the core's turn and an entropy cycle can do. -/

namespace Sys2Proof.Machine

/-- A step is the turn of the agent that moves. -/
theorem step_eq (s : State) : step s = takeTurn s.mover { s with turns := s.turns.tail } := by
  unfold step State.mover
  cases h : s.turns with
  | nil =>
    have e : { s with turns := [] } = s := by rw [← h]
    simp only [List.tail_nil, e]
  | cons t rest => rfl

/-- A run is its first step and the run from there. -/
theorem run_succ {s t : State} (h : step s = .next t) (k : Nat) :
    Host.Core.run Sys2Proof.core (k + 1) s = Host.Core.run Sys2Proof.core k t := by
  have hc : Sys2Proof.core.step s = .next t := h
  simp only [Host.Core.run, hc]

@[simp] theorem step_of_turn {s : State} {t : Turn} {rest : List Turn} (h : s.turns = t :: rest) :
    step s = takeTurn t { s with turns := rest } := by
  simp only [step, h]

theorem mover_of_turn {s : State} {t : Turn} {rest : List Turn} (h : s.turns = t :: rest) : s.mover = t := by
  simp only [State.mover, h]

/-- The access a step serves is the first of a host that moves and has not faulted. -/
theorem served_eq_some {s : State} {op : HostOp} :
    s.served = some op ↔ s.mover = .host ∧ s.hostFaulted = false ∧ ∃ rest, s.host = op :: rest := by
  unfold State.served
  split
  · rename_i h
    simp [h, List.head?_eq_some_iff]
  · rename_i h
    simp only [reduceCtorEq, false_iff]
    exact fun hc => h ⟨hc.1, hc.2.1⟩

theorem served_eq_none {s : State} :
    s.served = none ↔ s.mover ≠ .host ∨ s.hostFaulted = true ∨ s.host = [] := by
  unfold State.served
  split
  · rename_i h
    simp [h]
  · rename_i h
    rw [not_and_or, Bool.not_eq_false] at h
    exact iff_of_true rfl (h.imp_right .inl)

theorem coreTurn_ok {s : State} {i : Instr} (hb : s.fsm = .busy) (hd : decode s.snap.cmd = .ok i) :
    coreTurn s = exec i s := by
  simp only [coreTurn, hb, hd]

theorem coreTurn_illegal {s : State} {e : IllegalWord} (hb : s.fsm = .busy)
    (hd : decode s.snap.cmd = .error e) :
    coreTurn s = .next (s.finish .idle .illegalCommand []) := by
  simp only [coreTurn, hb, hd]
  rfl

theorem coreTurn_not_busy {s : State} (hb : s.fsm ≠ .busy) : coreTurn s = .next s := by
  unfold coreTurn
  cases h : s.fsm with
  | idle => rfl
  | busy => exact absurd h hb
  | locked => rfl

/-- A step with the core's turn first is exec of the decoded command. -/
theorem step_core {s : State} {i : Instr} {rest : List Turn} (ht : s.turns = .core :: rest)
    (hb : s.fsm = .busy) (hd : decode s.snap.cmd = .ok i) : step s = exec i { s with turns := rest } := by
  rw [step_of_turn ht]
  exact coreTurn_ok (s := { s with turns := rest }) hb hd

/-- Everything the core's turn can answer. -/
theorem coreTurn_cases {s t : State} (h : coreTurn s = .next t) :
    (s.fsm ≠ .busy ∧ t = s) ∨
    (s.fsm = .busy ∧ (∃ e, decode s.snap.cmd = .error e) ∧ t = s.finish .idle .illegalCommand []) ∨
    (s.fsm = .busy ∧ ∃ i, decode s.snap.cmd = .ok i ∧ exec i s = .next t) := by
  by_cases hb : s.fsm = .busy
  · cases hd : decode s.snap.cmd with
    | error e =>
      rw [coreTurn_illegal hb hd] at h
      cases h
      exact .inr (.inl ⟨hb, ⟨e, rfl⟩, rfl⟩)
    | ok i =>
      rw [coreTurn_ok hb hd] at h
      exact .inr (.inr ⟨hb, i, rfl, h⟩)
  · rw [coreTurn_not_busy hb] at h
    cases h
    exact .inl ⟨hb, rfl⟩

/-- The core's turn in short: nothing changes, the command ends, or it asks for entropy. -/
theorem coreTurn_effect {s t : State} (h : coreTurn s = .next t) :
    t = s ∨ (s.fsm = .busy ∧ ∃ out, t = s.finish .idle .success out) ∨
    (s.fsm = .busy ∧ ∃ code, code.fatal = false ∧ code ≠ .success ∧ t = s.finish .idle code []) ∨
    (s.fsm = .busy ∧ ∃ code, code.fatal = true ∧ t = s.finish .locked code []) ∨
    (s.fsm = .busy ∧ ∃ n, t = s.requestEntropy n) := by
  rcases coreTurn_cases h with ⟨_, rfl⟩ | ⟨hb, _, rfl⟩ | ⟨hb, i, _, he⟩
  · exact .inl rfl
  · exact .inr (.inr (.inl ⟨hb, _, rfl, by simp, rfl⟩))
  · rcases exec_cases he with ⟨out, rfl, _⟩ | ⟨code, rfl, hc, _⟩ | ⟨n, short, r, rfl, hd, _⟩ |
      ⟨n, _, rfl, _⟩ | ⟨_, _, _, _, rfl, _⟩
    · exact .inr (.inl ⟨hb, out, rfl⟩)
    · exact .inr (.inr (.inl ⟨hb, code, (errorCodes_not_fatal hc).1, (errorCodes_not_fatal hc).2, rfl⟩))
    · exact .inr (.inr (.inr (.inl ⟨hb, short, (drawOf_short_fatal hd).1, rfl⟩)))
    · exact .inr (.inr (.inr (.inr ⟨hb, n, rfl⟩)))
    · exact .inl rfl

theorem coreTurn_next (s : State) : ∃ t, coreTurn s = .next t := by
  by_cases hb : s.fsm = .busy
  · cases hd : decode s.snap.cmd with
    | error e => exact ⟨_, coreTurn_illegal hb hd⟩
    | ok i =>
      rw [coreTurn_ok hb hd]
      exact exec_next i s
  · exact ⟨_, coreTurn_not_busy hb⟩

/-- A step, agent by agent, on the state with the turn taken off the list. -/
theorem step_cases {s t : State} (h : step s = .next t) :
    (s.mover = .host ∧ t = { s with turns := s.turns.tail }.hostTurn) ∨
    (s.mover = .core ∧ coreTurn { s with turns := s.turns.tail } = .next t) ∨
    (∃ v x f, s.mover = .entropy v x f ∧ t = { s with turns := s.turns.tail }.entropyTurn v x f) ∨
    (s.mover = .reset ∧ t = { s with turns := s.turns.tail }.resetCore) ∨
    (s.mover = .powerOn ∧ t = { s with turns := s.turns.tail }.powerOn) := by
  rw [step_eq] at h
  cases hm : s.mover with
  | host =>
    rw [hm] at h
    cases h
    exact .inl ⟨rfl, rfl⟩
  | core =>
    rw [hm] at h
    exact .inr (.inl ⟨rfl, h⟩)
  | entropy v x f =>
    rw [hm] at h
    cases h
    exact .inr (.inr (.inl ⟨v, x, f, rfl, rfl⟩))
  | reset =>
    rw [hm] at h
    cases h
    exact .inr (.inr (.inr (.inl ⟨rfl, rfl⟩)))
  | powerOn =>
    rw [hm] at h
    cases h
    exact .inr (.inr (.inr (.inr ⟨rfl, rfl⟩)))

/-- A step that serves no access changes neither the accesses that wait nor the reply (R91). -/
theorem step_unserved {s t : State} (h : step s = .next t) (hs : s.served = none) :
    t.host = s.host ∧ t.reply = s.reply := by
  rcases step_cases h with ⟨hm, rfl⟩ | ⟨_, hc⟩ | ⟨_, _, _, _, rfl⟩ | ⟨_, rfl⟩ | ⟨_, rfl⟩
  · rcases served_eq_none.1 hs with hs | hs | hs
    · exact absurd hm hs
    · rw [State.hostTurn_faulted (by exact hs)]
      exact ⟨rfl, rfl⟩
    · rw [State.hostTurn_nil (by exact hs)]
      exact ⟨rfl, rfl⟩
  · rcases coreTurn_effect hc with rfl | ⟨_, _, rfl⟩ | ⟨_, _, _, _, rfl⟩ | ⟨_, _, _, rfl⟩ | ⟨_, _, rfl⟩ <;>
      exact ⟨rfl, rfl⟩
  · exact ⟨rfl, rfl⟩
  · exact ⟨rfl, rfl⟩
  · exact ⟨rfl, rfl⟩

theorem Ent.req_iff {e : Ent} : e.req = true ↔ ∃ n got, e = .pending n got := by
  cases e <;> simp [Ent.req]

/-- A cycle of the entropy port outside a transaction is ignored; inside one it ends it, adds a byte, or
does nothing. -/
theorem cycle_cases (v : Bool) (x : Byte) (f : Bool) (e : Ent) :
    ((∀ n got, e ≠ .pending n got) ∧ e.cycle v x f = e) ∨
    ∃ n got, e = .pending n got ∧ ((f = true ∧ e.cycle v x f = .answered got) ∨
      (f = false ∧ v = false ∧ e.cycle v x f = e) ∨
      (f = false ∧ v = true ∧ got.length + 1 < n ∧ e.cycle v x f = .pending n (got ++ [x])) ∨
      (f = false ∧ v = true ∧ n ≤ got.length + 1 ∧ e.cycle v x f = .answered (got ++ [x]))) := by
  cases e with
  | none => exact .inl ⟨by simp, rfl⟩
  | answered s => exact .inl ⟨by simp, rfl⟩
  | pending n got =>
    refine .inr ⟨n, got, rfl, ?_⟩
    cases f with
    | true => exact .inl ⟨rfl, rfl⟩
    | false =>
      cases v with
      | false => exact .inr (.inl ⟨rfl, rfl, rfl⟩)
      | true =>
        by_cases h : got.length + 1 < n
        · exact .inr (.inr (.inl ⟨rfl, rfl, h, by simp [Ent.cycle, h]⟩))
        · exact .inr (.inr (.inr ⟨rfl, rfl, by omega, by simp [Ent.cycle, h]⟩))

end Sys2Proof.Machine
end

