-- ==== Sys2Proof/Machine/HostProgram.lean ====
section
/-! DEFINITION. The host notation as data: each macro of 30_encoding.md R107 is the list of host accesses
it expands to, in the order the port receives them (R106, R108). `HostOp.write`, `HostOp.read` and
`HostOp.poll` are WR, RD and POLL. -/

namespace Sys2Proof.Machine.HostProgram

/-- `WR off, v`. -/
def wr (off : Offset) (v : Word) : HostOp := .write off 32 v

/-- `word_j`, packed from bytes `4j .. 4j+3` (20_memory.md R83); bytes past the end are 0x00 (R107 for
LOADBUF; the spec does not say it for SETKEY, log 18). -/
def wordOf (bytes : List Byte) (j : Nat) : Word :=
  packWord (bytes.getD (4 * j) 0) (bytes.getD (4 * j + 1) 0) (bytes.getD (4 * j + 2) 0)
    (bytes.getD (4 * j + 3) 0)

/-- `ceil(n / 4)`. -/
def words (n : Nat) : Nat := (n + 3) / 4

/-- `LOADBUF bytes`. An index past the buffer gives the offset that far past the window's base, modulo the
aperture (DESIGN CHOICE, log 21). -/
def loadBuf (bytes : List Byte) : List HostOp :=
  (List.range (words bytes.length)).map fun j => wr (BitVec.ofNat 14 (0x1000 + 4 * j)) (wordOf bytes j)

/-- `SETKEY k`. There is no KEY8: a key of more than 32 bytes goes on to the unmapped offsets from 0x040, which
answer ERROR (DESIGN CHOICE, log 21). The length is written modulo 2^32 (DESIGN CHOICE, log 22). -/
def setKey (k : List Byte) : List HostOp :=
  (List.range (words k.length)).map (fun j => wr (BitVec.ofNat 14 (0x020 + 4 * j)) (wordOf k j)) ++
    [wr 0x01C#14 (BitVec.ofNat 32 k.length)]

/-- `RUN opc`. -/
def run (opc : Word) : List HostOp := [wr 0x008#14 opc, .poll 0x00C#14 0x00000002#32 0x00000002#32]

/-- `ACK`. -/
def ack : List HostOp := [wr 0x00C#14 0x0000000A#32]

/-- `WR SRC_LEN, n`. R106 writes a word of 32 bits and the spec names none for an `n` of 2^32 or more: it is written
modulo 2^32 (DESIGN CHOICE, log 22). -/
def srcLen (n : Nat) : List HostOp := [wr 0x014#14 (BitVec.ofNat 32 n)]

/-- `PAD bs, bytes`. -/
def pad (bs : Word) (bytes : List Byte) : List HostOp :=
  loadBuf bytes ++ [wr 0x010#14 bs] ++ srcLen bytes.length ++ run (encode .pad)

/-- `UNPAD bs, bytes`. -/
def unpad (bs : Word) (bytes : List Byte) : List HostOp :=
  loadBuf bytes ++ [wr 0x010#14 bs] ++ srcLen bytes.length ++ run (encode .unpad)

/-- `ENCRYPT k, bytes`. -/
def encrypt (k bytes : List Byte) : List HostOp :=
  setKey k ++ loadBuf bytes ++ srcLen bytes.length ++ run (encode .encrypt)

/-- `DECRYPT k, bytes`. -/
def decrypt (k bytes : List Byte) : List HostOp :=
  setKey k ++ loadBuf bytes ++ srcLen bytes.length ++ run (encode .decrypt)

/-- `RANDHEX n`, with the word of `srcLen` for its `n` (log 22). -/
def randhex (n : Nat) : List HostOp := srcLen n ++ run (encode .randhex)

/-- `READBUF m`. An index past the buffer: as in `loadBuf` (DESIGN CHOICE, log 21). -/
def readBuf (m : Nat) : List HostOp :=
  (List.range (words m)).map fun j => .read (BitVec.ofNat 14 (0x2000 + 4 * j)) 32

end Sys2Proof.Machine.HostProgram
end

