-- ==== Sys2Proof/Tests/Slice0.lean ====
section
/-! SUPPORT. Tests: each expected value is from the spec (95_test_vectors.md, or the encodings of
30_encoding.md written out); and, for every statement with hypotheses, a witness that meets them. -/

namespace Sys2Proof.Tests

open Sys2Proof.Machine

/-! ## Helpers -/

/-- The bytes of a list of numbers. -/
def bytes (xs : List Nat) : List Byte := xs.map fun x => BitVec.ofNat 8 x

/-- A 32-byte key bank that begins with these bytes. -/
def bank (k : List Byte) : Vector Byte 32 := Vector.ofFn fun i => k.getD i 0

/-- A BUSY core that runs `cmd` on these inputs, as an acceptance leaves it. -/
def running (cmd len bs klen : Word) (key input : List Byte) : State :=
  { State.reset with
    fsm := .busy
    srcLen := len
    blksz := bs
    keyLen := klen
    keyb := bank key
    ibuf := .holding input 0
    snap := ⟨cmd, len, bs, klen, bank key, input⟩ }

/-- The same core with its entropy request answered. -/
def answered (r : List Byte) (s : State) : State := { s with ent := .answered r }

/-- STATUS and `OBUF[0 : DST_LEN]` after an outcome. -/
def finished (o : Outcome) : Option (Word × List Byte) :=
  match o with
  | .next t => some (t.statusWord, t.obuf.bytes t.dstLen.toNat)
  | .fault _ => none
  | .refused _ => none

/-- The request an outcome leaves outstanding. -/
def requested (o : Outcome) : Option (Bool × Option (BitVec 16) × Word) :=
  match o with
  | .next t => some (t.ent.req, t.ent.len, t.statusWord)
  | .fault _ => none
  | .refused _ => none

/-- "test". -/
def testText : List Byte := bytes [0x74, 0x65, 0x73, 0x74]

/-- K1 of vector A-2. -/
def k1 : List Byte :=
  bytes [0x2b, 0x7e, 0x15, 0x16, 0x28, 0xae, 0xd2, 0xa6, 0xab, 0xf7, 0x15, 0x88, 0x09, 0xcf, 0x4f, 0x3c]

/-- 00 01 .. 0f. -/
def draw16 : List Byte := bytes (List.range 16)

/-- The ciphertext block of E-3. -/
def c1 : List Byte :=
  bytes [0x63, 0x01, 0x99, 0xc5, 0xf2, 0x02, 0xcc, 0x71, 0x67, 0xbb, 0x84, 0xc6, 0xc7, 0x2b, 0x34, 0x9d]

/-! ## Well-formedness: an ill-formed parameter record for each check -/

theorem smoke_bufBytes_not_a_multiple : ({ Config.Params.standard with bufBytes := 100 }).wf = false := by decide
theorem smoke_bufBytes_too_small : ({ Config.Params.standard with bufBytes := 48 }).wf = false := by decide
theorem smoke_bufBytes_too_large : ({ Config.Params.standard with bufBytes := 4112 }).wf = false := by decide
theorem smoke_blockBytes_zero : (⟨4096, 0, [16], .external 0⟩ : Config.Params).wf = false := by decide
theorem smoke_blockBytes_256 : (⟨4096, 256, [16], .external 0⟩ : Config.Params).wf = false := by decide
theorem smoke_keySizes_empty : ({ Config.Params.standard with keySizes := [] }).wf = false := by decide
theorem smoke_keySizes_zero : (⟨4096, 16, [0], .external 0⟩ : Config.Params).wf = false := by decide
theorem smoke_keySizes_33 : (⟨4096, 16, [33], .external 0⟩ : Config.Params).wf = false := by decide
theorem smoke_aes_block : ({ Config.Params.standard with blockBytes := 8 }).wf = false := by decide
theorem smoke_aes_key : ({ Config.Params.standard with keySizes := [17] }).wf = false := by decide
theorem smoke_external_ok : (⟨64, 255, [1, 32], .external 7⟩ : Config.Params).wf = true := by decide

/-! ## Decoding: the words of R101 bit by bit, and illegal ones (X-1 to X-5) -/

theorem decode_pad_word : decode 0b00000000000000000000000000000001#32 = .ok .pad := by decide
theorem decode_unpad_word : decode 0b00000000000000000000000000000010#32 = .ok .unpad := by decide
theorem decode_encrypt_word : decode 0b00000000000000000000000000000011#32 = .ok .encrypt := by decide
theorem decode_decrypt_word : decode 0b00000000000000000000000000000100#32 = .ok .decrypt := by decide
theorem decode_randhex_word : decode 0b00000000000000000000000000000101#32 = .ok .randhex := by decide

theorem decode_illegal_words :
    decode 0x00000000#32 = .error .unknownOpcode ∧ decode 0x00000006#32 = .error .unknownOpcode ∧
    decode 0x000000FF#32 = .error .unknownOpcode ∧ decode 0x00000101#32 = .error .reservedBits ∧
    decode 0x80000005#32 = .error .reservedBits := by decide

/-- X-3: the illegal word completes with IllegalCommand; PAD is not run. -/
theorem test_illegal_word_x3 :
    finished (coreTurn (running 0x00000101#32 4 8 0 [] testText)) = some (0x902#32, []) := by decide

/-! ## PAD -/

/-- S-3: a full block of padding. -/
theorem test_pad_s3 :
    finished (exec .pad (running 1 8 8 0 [] (bytes [0x31, 0x32, 0x33, 0x34, 0x35, 0x36, 0x37, 0x38]))) =
      some (0x002#32, bytes [0x31, 0x32, 0x33, 0x34, 0x35, 0x36, 0x37, 0x38, 8, 8, 8, 8, 8, 8, 8, 8]) := by
  decide

/-- P-10, P-12, P-16: a negative block size, 256, and the capacity check before the block size check. -/
theorem test_pad_errors :
    finished (exec .pad (running 1 4 0x80000000#32 0 [] testText)) = some (0x102#32, []) ∧
    finished (exec .pad (running 1 4 0x100#32 0 [] testText)) = some (0x102#32, []) ∧
    finished (exec .pad (running 1 4097 0 0 [] testText)) = some (0x802#32, []) := by decide

/-! ## UNPAD -/

/-- U-4, U-15: a count above the block size is accepted. -/
theorem test_unpad_count_above_block :
    finished (exec .unpad (running 2 8 4 0 [] (bytes [0x61, 0x62, 6, 6, 6, 6, 6, 6]))) =
      some (0x002#32, bytes [0x61, 0x62]) ∧
    finished (exec .unpad (running 2 2 1 0 [] (bytes [2, 2]))) = some (0x002#32, []) := by decide

/-- U-5, U-6, U-8, U-9, U-11: last byte 0, above the length, a differing byte, not aligned, block size 0. -/
theorem test_unpad_errors :
    finished (exec .unpad (running 2 4 4 0 [] (bytes [0x61, 0x62, 0x63, 0]))) = some (0x202#32, []) ∧
    finished (exec .unpad (running 2 4 4 0 [] (bytes [0x61, 0x62, 0x63, 5]))) = some (0x202#32, []) ∧
    finished (exec .unpad (running 2 8 8 0 [] (bytes [0x74, 0x65, 0x73, 0x74, 4, 4, 3, 4]))) =
      some (0x202#32, []) ∧
    finished (exec .unpad (running 2 3 4 0 [] (bytes [0x61, 0x62, 0x63]))) = some (0x202#32, []) ∧
    finished (exec .unpad (running 2 0 0 0 [] [])) = some (0x102#32, []) := by decide

/-! ## ENCRYPT -/

/-- A-1: FIPS-197 appendix C.1. -/
theorem test_aes_a1 :
    Config.Params.standard.enc draw16
      (bytes [0x00, 0x11, 0x22, 0x33, 0x44, 0x55, 0x66, 0x77, 0x88, 0x99, 0xaa, 0xbb, 0xcc, 0xdd, 0xee, 0xff]) =
      bytes [0x69, 0xc4, 0xe0, 0xd8, 0x6a, 0x7b, 0x04, 0x30, 0xd8, 0xcd, 0xb7, 0x80, 0x70, 0xb4, 0xc5, 0x5a] := by
  decide +kernel

/-- E-3: the blob, and before it the request for 16 bytes. -/
theorem test_encrypt_e3 :
    requested (exec .encrypt (running 3 4 16 16 k1 testText)) = some (true, some 16#16, 0x001#32) ∧
    finished (exec .encrypt (answered draw16 (running 3 4 16 16 k1 testText))) =
      some (0x002#32, draw16 ++ c1) := by decide +kernel

/-- E-7, E-10, E-11, E-13: an unsupported key, the blob size, the key before the blob size, a short draw. -/
theorem test_encrypt_errors :
    finished (exec .encrypt (running 3 4 16 17 k1 testText)) = some (0x302#32, []) ∧
    finished (exec .encrypt (running 3 4080 16 16 k1 testText)) = some (0x802#32, []) ∧
    finished (exec .encrypt (running 3 4080 16 0 k1 testText)) = some (0x302#32, []) ∧
    finished (exec .encrypt (answered (bytes [1, 2, 3, 4, 5]) (running 3 4 16 16 k1 testText))) =
      some (0x706#32, []) := by decide

/-! ## DECRYPT -/

/-- D-1 and D-5: the blob of E-3, and the same with IV byte 15 changed so that it pads otherwise. -/
theorem test_decrypt_d1_d5 :
    finished (exec .decrypt (running 4 32 16 16 k1 (draw16 ++ c1))) = some (0x002#32, testText) ∧
    finished (exec .decrypt (running 4 32 16 16 k1 (draw16.take 15 ++ bytes [2] ++ c1))) =
      some (0x002#32, testText ++ List.replicate 11 0x0c#8) := by decide +kernel

/-- D-9, D-10, D-12: too short, not aligned, the key check first. -/
theorem test_decrypt_errors :
    finished (exec .decrypt (running 4 31 16 16 k1 (List.replicate 31 0))) = some (0x402#32, []) ∧
    finished (exec .decrypt (running 4 33 16 16 k1 (List.replicate 33 0))) = some (0x502#32, []) ∧
    finished (exec .decrypt (running 4 10 16 0 k1 (List.replicate 10 0))) = some (0x302#32, []) := by decide

/-! ## RANDHEX -/

/-- R-1, R-2: "DEAD0F", and the empty draw without a request. -/
theorem test_randhex_r1_r2 :
    requested (exec .randhex (running 5 3 16 0 [] (bytes [0, 0, 0]))) = some (true, some 3#16, 0x001#32) ∧
    finished (exec .randhex (answered (bytes [0xDE, 0xAD, 0x0F]) (running 5 3 16 0 [] (bytes [0, 0, 0])))) =
      some (0x002#32, bytes [0x44, 0x45, 0x41, 0x44, 0x30, 0x46]) ∧
    finished (exec .randhex (running 5 0 16 0 [] [])) = some (0x002#32, []) := by decide

/-- R-6, R-7, R-9: above the capacity, no wrap of 2n, a short draw. -/
theorem test_randhex_errors :
    finished (exec .randhex (running 5 2049 16 0 [] [])) = some (0x802#32, []) ∧
    finished (exec .randhex (running 5 0x80000000#32 16 0 [] [])) = some (0x802#32, []) ∧
    finished (exec .randhex (answered (bytes [1, 2]) (running 5 4 16 0 [] (bytes [0, 0, 0, 0])))) =
      some (0x606#32, []) := by decide

/-! ## Host port, macros -/

/-- H-2, H-3, H-4, H-5. -/
theorem test_registers_h2_to_h5 :
    ((State.reset.busWrite 0x000#14 32 0x12345678#32).busRead 0x000#14 32).reply =
      some (.data 0x50430700#32) ∧
    ((State.reset.busWrite 0x020#14 32 0x16157E2B#32).busRead 0x020#14 32).reply = some (.data 0#32) ∧
    ((State.reset.busWrite 0x004#14 32 0xFFFFFFFF#32).busRead 0x004#14 32).reply = some (.data 1#32) ∧
    ((State.reset.busWrite 0x010#14 32 0xDEADBEEF#32).busRead 0x010#14 32).reply =
      some (.data 0xDEADBEEF#32) := by decide

/-- H-6, H-8. -/
theorem test_bus_h6_h8 :
    (State.reset.busRead 0x002#14 32).reply = some .error ∧ (State.reset.busRead 0x040#14 32).reply = some .error ∧
    (State.reset.busRead 0x0FFC#14 32).reply = some .error ∧ (State.reset.busRead 0x3000#14 32).reply = some .error ∧
    (State.reset.busRead 0x000#14 16).reply = some .error ∧
    ((running 3 4 16 16 k1 testText).busWrite 0x014#14 32 9).srcLen = 4#32 ∧
    (((running 3 4 16 16 k1 testText).busWrite 0x014#14 32 9).busRead 0x00C#14 32).reply =
      some (.data 0x009#32) := by decide

/-- R81, I16: the host's program ends at its first ERROR; the core goes on and completes (P-1's PAD). -/
theorem test_bus_error_stops_the_host :
    let s := { running 1 4 8 0 [] testText with
      host := [.read 0x0FFC#14 32, .write 0x004#14 32 1], turns := [.host, .host, .core] }
    (match Host.Core.run Sys2Proof.core 3 s with
      | .next t => some (t.hostFaulted, t.irqEn, t.host.length, t.statusWord)
      | .fault _ => none
      | .refused _ => none) = some (true, false, 1, 0x002#32) := by decide

/-- The accesses of Program 1's first command, and of SETKEY K1 in Program 3. -/
theorem test_macros :
    HostProgram.pad 8 testText =
      [.write 0x1000#14 32 0x74736574#32, .write 0x010#14 32 8#32, .write 0x014#14 32 4#32,
        .write 0x008#14 32 1#32, .poll 0x00C#14 2#32 2#32] ∧
    HostProgram.setKey k1 =
      [.write 0x020#14 32 0x16157E2B#32, .write 0x024#14 32 0xA6D2AE28#32, .write 0x028#14 32 0x8815F7AB#32,
        .write 0x02C#14 32 0x3C4FCF09#32, .write 0x01C#14 32 0x10#32] ∧
    HostProgram.readBuf 6 = [.read 0x2000#14 32, .read 0x2004#14 32] := by decide

/-! ## Witnesses: concrete states and operands that meet the hypotheses of each statement -/

/-- An idle core with the text "test" in IBUF, SRC_LEN = 4 and key K1. -/
def ready : State :=
  { State.reset with srcLen := 4, keyLen := 16, keyb := bank k1, ibuf := .holding testText 0 }

/-- PAD of "test", running. -/
def padding : State := running 1 4 8 16 k1 testText

/-- ENCRYPT of "test", running. -/
def encrypting : State := running 3 4 16 16 k1 testText

/-- ENCRYPT of "test", waiting for entropy. -/
def waiting : State := { encrypting with ent := .pending 16 (bytes [1, 2]) }

/-- A core that an entropy failure has locked. -/
def locked : State := { ready with fsm := .locked, done := true, err := .insufficientEntropy }

theorem ready_inv : ready.Inv where
  cfg := by decide
  ibuf := by decide
  obuf := by decide
  dstLen := by decide
  failed := fun h => absurd rfl h
  busy := fun h => by cases h
  locked := by decide
  ent := trivial
  fresh := by decide

theorem padding_inv : padding.Inv where
  cfg := by decide
  ibuf := by decide
  obuf := by decide
  dstLen := by decide
  failed := fun h => absurd rfl h
  busy := fun _ => by decide
  locked := by decide
  ent := trivial
  fresh := by decide

theorem waiting_inv : waiting.Inv where
  cfg := by decide
  ibuf := by decide
  obuf := by decide
  dstLen := by decide
  failed := fun h => absurd rfl h
  busy := fun _ => by decide
  locked := by decide
  ent := ⟨rfl, by decide, by decide⟩
  fresh := by decide

theorem answered_inv : (answered draw16 encrypting).Inv where
  cfg := by decide
  ibuf := by decide
  obuf := by decide
  dstLen := by decide
  failed := fun h => absurd rfl h
  busy := fun _ => by decide
  locked := by decide
  ent := ⟨rfl, 16, by decide, by decide⟩
  fresh := by decide

theorem witness_EncodeAndDecodeAgree :
    Instr.pad.wf = true ∧ decode 0x5#32 = .ok .randhex ∧ decode 0x6#32 = .error .unknownOpcode := by decide

theorem witness_IllegalWordsCompleteWithIllegalCommand :
    ((running 0x100#32 4 8 0 [] testText).fsm = .busy ∧
      (running 0x100#32 4 8 0 [] testText).snap.cmd.toNat / 256 ≠ 0) ∧
    (running 0 4 8 0 [] testText).snap.cmd.toNat % 256 = 0 ∧
    6 ≤ (running 6 4 8 0 [] testText).snap.cmd.toNat % 256 ∧
    6 ≤ (running 0xFF#32 4 8 0 [] testText).snap.cmd.toNat % 256 := by decide

theorem witness_StepRunsTheDecodedCommand :
    padding.fsm = .busy ∧ decode padding.snap.cmd = .ok .pad ∧ padding.turns = [] ∧ padding.ent = .none ∧
    ({ padding with turns := [.core, .host] }).turns = .core :: [.host] := by decide

theorem witness_CommandWrittenIsTheCommandRun :
    let s := { ready with host := [.write 0x008#14 32 1], turns := [.host, .core] }
    s.fsm = .idle ∧ s.ent = .none ∧ s.hostFaulted = false ∧ s.host = .write 0x008#14 32 1#32 :: [] ∧
      s.turns = .host :: .core :: [] ∧ decode 1#32 = .ok .pad := by decide

theorem witness_CmdWriteIsAcceptedWhenIdle :
    ready.fsm = .idle ∧ padding.fsm ≠ .idle ∧ locked.fsm ≠ .idle := by decide

theorem witness_WritesWhileBusyAreDropped :
    padding.cfg.wf = true ∧ padding.fsm ≠ .idle ∧
    (∀ off ∈ [0x008#14, 0x010#14, 0x014#14, 0x01C#14, 0x020#14, 0x03C#14, 0x1000#14, 0x1FFC#14],
      off.toNat % 4 = 0 ∧ DroppedWhenNotIdle padding.cfg.bufBytes off) ∧
    (∀ off ∈ [0x000#14, 0x004#14, 0x00C#14, 0x018#14, 0x2000#14, 0x2FFC#14],
      off.toNat % 4 = 0 ∧ ¬ DroppedWhenNotIdle padding.cfg.bufBytes off) := by
  refine ⟨by decide, by decide, ?_, ?_⟩ <;>
    simp [DroppedWhenNotIdle, padding, running, State.reset, Config.Params.standard]

theorem witness_BadAccessesGetErrorWithoutEffect :
    let small : Config.Params := { Config.Params.standard with bufBytes := 64 }
    State.reset.cfg.wf = true ∧ small.wf = true ∧
    (∀ off ∈ [0x040#14, 0x0FFC#14, 0x1040#14, 0x1FFC#14, 0x2040#14, 0x2FFC#14, 0x3000#14, 0x3FFC#14],
      decodeAccess small.bufBytes off 32 = none) ∧
    (∀ off ∈ [0x000#14, 0x03C#14, 0x1000#14, 0x103C#14, 0x2000#14, 0x203C#14],
      (decodeAccess small.bufBytes off 32).isSome = true ∧ decodeAccess small.bufBytes (off + 2) 32 = none ∧
        decodeAccess small.bufBytes off 16 = none) := by
  refine ⟨by decide, by decide, ?_, ?_⟩ <;> simp [decodeAccess, placeOf]

theorem witness_HostWordsAreLittleEndian :
    ready.cfg.wf = true ∧ ready.fsm = .idle ∧ 4 * 0 < ready.cfg.bufBytes ∧ 4 * 1023 < ready.cfg.bufBytes := by
  decide

theorem witness_ConfigurationRegistersReadBack : ready.fsm = .idle := by decide

theorem witness_ReadsHaveNoSideEffect :
    padding.cfg.wf = true ∧ (0x1FFC#14).toNat < 0x2000 ∧ 0x3000 ≤ (0x3000#14).toNat ∧ ready.fsm = .idle := by
  decide

theorem witness_ReadsWhileBusy :
    padding.Inv ∧ padding.fsm = .busy ∧ 4 * 1023 < padding.cfg.bufBytes ∧ 7 < 8 :=
  ⟨padding_inv, by decide, by decide, by decide⟩

/-- The hypotheses of PadOutputLaws. -/
def PadFits (s : State) : Prop :=
  s.cfg.wf = true ∧ s.snap.whole ∧ 0 < s.snap.bs.toInt ∧ s.snap.bs.toInt ≤ 255 ∧
    s.snap.len.toNat + (s.snap.bs.toInt.toNat - s.snap.len.toNat % s.snap.bs.toInt.toNat) ≤ s.cfg.bufBytes

theorem witness_PadOutputLaws :
    PadFits (running 1 4 1 0 [] testText) ∧ PadFits (running 1 4 255 0 [] testText) ∧
    (running 1 4 1 0 [] testText).snap.len.toNat % (running 1 4 1 0 [] testText).snap.bs.toInt.toNat = 0 :=
  ⟨⟨by decide, by decide, by decide, by decide, by decide⟩,
    ⟨by decide, by decide, by decide, by decide, by decide⟩, by decide⟩

theorem witness_UnpadRunsAsSpecified :
    padding.snap.len.toNat ≤ padding.cfg.bufBytes ∧ padding.snap.whole ∧
    padding.cfg.bufBytes < (running 2 4097 8 0 [] []).snap.len.toNat := by decide

/-- The hypotheses of UnpadAcceptsCountsUpToTheLength. -/
def UnpadReads (s : State) : Prop :=
  s.snap.whole ∧ s.snap.len.toNat ≤ s.cfg.bufBytes ∧ 0 < s.snap.bs.toInt ∧ s.snap.bs.toInt ≤ 255 ∧
    s.snap.len.toNat % s.snap.bs.toInt.toNat = 0

theorem witness_UnpadAcceptsCountsUpToTheLength :
    (UnpadReads (running 2 2 1 0 [] (bytes [2, 2])) ∧ EndsInPadding (bytes [2, 2]) 2) ∧
    (UnpadReads (running 2 2 1 0 [] (bytes [2, 0])) ∧ ∀ n, ¬ EndsInPadding (bytes [2, 0]) n) := by
  refine ⟨⟨⟨by decide, by decide, by decide, by decide, by decide⟩, ?_⟩,
    ⟨by decide, by decide, by decide, by decide, by decide⟩, ?_⟩
  · unfold EndsInPadding
    decide
  · rintro n ⟨h1, h2, _, h4⟩
    have h2 : n ≤ 2 := h2
    have : n = 1 ∨ n = 2 := by omega
    rcases this with rfl | rfl
    · exact absurd h4 (by decide)
    · exact absurd h4 (by decide)

theorem witness_UnpadUndoesPad :
    ∃ t u : State, padding.cfg.wf = true ∧ padding.snap.whole ∧ exec .pad padding = .next t ∧
      t.err = .success ∧ u.cfg = padding.cfg ∧ u.snap.bs = padding.snap.bs ∧ u.snap.len = t.dstLen ∧
      u.snap.input = t.obuf.bytes t.dstLen.toNat :=
  ⟨padding.finish .idle .success (testText ++ bytes [4, 4, 4, 4]),
    running 2 8 8 16 k1 (testText ++ bytes [4, 4, 4, 4]), by decide, by decide, rfl, by decide, by decide,
    by decide, by decide, by decide⟩

theorem witness_PadUndoesUnpadUpToTheBlockSize :
    let s := running 2 8 8 16 k1 (testText ++ bytes [4, 4, 4, 4])
    ∃ t u v : State, s.cfg.wf = true ∧ s.snap.whole ∧ exec .unpad s = .next t ∧ t.err = .success ∧
      u.cfg = s.cfg ∧ u.snap.bs = s.snap.bs ∧ u.snap.len = t.dstLen ∧
      u.snap.input = t.obuf.bytes t.dstLen.toNat ∧ exec .pad u = .next v :=
  ⟨(running 2 8 8 16 k1 (testText ++ bytes [4, 4, 4, 4])).finish .idle .success testText, padding, _, by decide,
    by decide, rfl, by decide, by decide, by decide, by decide, by decide, rfl⟩

theorem witness_EncryptRunsAsSpecified :
    encrypting.cfg.wf = true ∧ encrypting.snap.len.toNat ≤ encrypting.cfg.bufBytes ∧ encrypting.snap.whole := by
  decide

theorem witness_EncryptOutputLaws :
    let s := answered draw16 encrypting
    s.cfg.wf = true ∧ s.snap.whole ∧ s.snap.klen.toNat ∈ s.cfg.keySizes ∧
      s.cfg.blockBytes + s.snap.len.toNat + (s.cfg.blockBytes - s.snap.len.toNat % s.cfg.blockBytes) ≤
        s.cfg.bufBytes ∧
      s.ent = .answered draw16 ∧ draw16.length = s.cfg.blockBytes := by decide

theorem witness_DecryptRunsAsSpecified :
    let s := running 4 32 16 16 k1 (draw16 ++ c1)
    s.cfg.wf = true ∧ s.snap.len.toNat ≤ s.cfg.bufBytes ∧ s.snap.whole := by decide +kernel

theorem witness_DecryptCompletesOnValidPadding :
    let s := running 4 32 16 16 k1 (draw16 ++ c1)
    s.cfg.wf = true ∧ s.snap.whole ∧ s.snap.len.toNat ≤ s.cfg.bufBytes ∧
      s.snap.klen.toNat ∈ s.cfg.keySizes ∧ 2 * s.cfg.blockBytes ≤ s.snap.len.toNat ∧
      s.snap.len.toNat % s.cfg.blockBytes = 0 ∧
      cbcDecryptBytes s.cfg (s.snap.key.toList.take s.snap.klen.toNat) (s.snap.input.take s.cfg.blockBytes)
        (s.snap.input.drop s.cfg.blockBytes) = testText ++ List.replicate 12 (BitVec.ofNat 8 12) := by
  decide +kernel

theorem witness_CbcDecryptionInvertsEncryption :
    Config.Params.standard.wf = true ∧ draw16.length = Config.Params.standard.blockBytes ∧
      (draw16 ++ c1).length % Config.Params.standard.blockBytes = 0 := by decide

theorem witness_DecryptUndoesEncrypt :
    let s := answered draw16 encrypting
    let t := s.finish .idle .success (encryptBlob s.cfg s.snap draw16)
    let u := running 4 32 16 16 k1 (draw16 ++ c1)
    s.cfg.wf = true ∧ s.snap.whole ∧ s.snap.klen.toNat ∈ s.cfg.keySizes ∧
      s.cfg.blockBytes + s.snap.len.toNat + (s.cfg.blockBytes - s.snap.len.toNat % s.cfg.blockBytes) ≤
        s.cfg.bufBytes ∧
      s.ent = .answered draw16 ∧ draw16.length = s.cfg.blockBytes ∧ exec .encrypt s = .next t ∧
      u.cfg = s.cfg ∧ u.snap.key = s.snap.key ∧ u.snap.klen = s.snap.klen ∧ u.snap.len = t.dstLen ∧
      u.snap.input = t.obuf.bytes t.dstLen.toNat :=
  ⟨by decide, by decide, by decide, by decide, by decide, by decide, rfl, by decide, by decide, by decide,
    by decide +kernel, by decide +kernel⟩

theorem witness_TamperingFlipsThePlaintext :
    0 + 1 < [draw16, c1].length ∧ [draw16, c1][0]? = some draw16 := by decide

theorem witness_RandhexOutputLaws :
    let s := answered (bytes [0xDE]) (running 5 1 16 0 [] [0])
    let full := answered (List.replicate 32 0xA5) { running 5 32 16 0 [] [] with
      cfg := { Config.Params.standard with bufBytes := 64 } }
    s.cfg.wf = true ∧ 0 < s.snap.len.toNat ∧ 2 * s.snap.len.toNat ≤ s.cfg.bufBytes ∧
      s.ent = .answered (bytes [0xDE]) ∧ (bytes [0xDE]).length = s.snap.len.toNat ∧
      full.cfg.wf = true ∧ 2 * full.snap.len.toNat = full.cfg.bufBytes ∧
      full.ent = .answered (List.replicate 32 0xA5) ∧ (List.replicate 32 0xA5#8).length = full.snap.len.toNat := by
  decide

theorem witness_ShortDrawLocksAndIsDiscarded :
    decode encrypting.snap.cmd = .ok .encrypt ∧ drawNeeded encrypting.cfg encrypting.snap = some 16 ∧
    (bytes []).length < 16 ∧ (draw16.take 15).length < 16 ∧
    decode (running 5 4 16 0 [] testText).snap.cmd = .ok .randhex ∧
    drawNeeded State.reset.cfg (running 5 4 16 0 [] testText).snap = some 4 := by decide

theorem witness_EntropyBytesAreCollectedInOrder :
    0 < 2 ∧ (([(true, 1), (false, 2)] : List (Bool × Byte)).filter fun c => c.1).length < 2 ∧
    2 ≤ (([(true, 1), (true, 2), (true, 3)] : List (Bool × Byte)).filter fun c => c.1).length := by decide

theorem witness_EntropyCycleTouchesOnlyTheTransaction :
    let s := { waiting with turns := [.entropy true 3 false] }
    s.turns = .entropy true 3 false :: [] ∧ s.ent = .pending 16 (bytes [1, 2]) ∧ padding.ent = .none ∧
    (bytes [1, 2]).length + 1 < 16 ∧ 16 ≤ (draw16.take 15).length + 1 := by decide

theorem witness_EntropyIsRequestedOnce :
    (∃ t, decode encrypting.snap.cmd = .ok .encrypt ∧ exec .encrypt encrypting = .next t ∧
      encrypting.ent = .none ∧ t.ent = .pending 16 []) ∧
    (∃ t, exec .encrypt (answered [] encrypting) = .next t ∧ (answered [] encrypting).ent = .answered []) ∧
    (∃ t, decode waiting.snap.cmd = .ok .encrypt ∧ exec .encrypt waiting = .next t ∧
      waiting.ent = .pending 16 (bytes [1, 2]) ∧ drawNeeded waiting.cfg waiting.snap ≠ none) ∧
    ∃ t, exec .pad { padding with ent := .pending 16 [] } = .next t ∧ drawNeeded padding.cfg padding.snap = none :=
  ⟨⟨_, by decide, rfl, by decide, by decide⟩, ⟨_, rfl, by decide⟩, ⟨_, by decide, rfl, by decide, by decide⟩,
    ⟨_, rfl, by decide⟩⟩

theorem witness_CommandsReportOnlyTheirCodes :
    ∃ t, exec .pad padding = .next t ∧ t.ent = .none := ⟨_, rfl, by decide⟩

theorem witness_ResultsDependOnSnapshotAndDraw :
    let s' := { padding with done := true, wbusy := true, dstLen := 7, draws := 9 }
    padding.cfg = s'.cfg ∧ padding.snap = s'.snap ∧ padding.ent = s'.ent ∧
      (∃ t, exec .pad padding = .next t ∧ t.ent = .none) ∧ ∃ t', exec .pad s' = .next t' :=
  ⟨by decide, by decide, by decide, ⟨_, rfl, by decide⟩, ⟨_, rfl⟩⟩

theorem witness_KeyIsNeverGivenBack :
    let s' : State := { padding with keyb := bank [], snap := { padding.snap with key := bank [] } }
    SameButKey padding s' ∧ padding.mover = .core ∧ padding.fsm = .busy ∧
      decode padding.snap.cmd ≠ .ok .encrypt ∧ decode padding.snap.cmd ≠ .ok .decrypt ∧
      ∃ t, step padding = .next t :=
  ⟨⟨bank [], bank [], rfl⟩, by decide, by decide, by decide, by decide, _, rfl⟩

theorem witness_OnlyResetLeavesLocked :
    locked.fsm = .locked ∧ locked.mover.isReset = false ∧ ∃ t, step locked = .next t :=
  ⟨by decide, by decide, _, rfl⟩

theorem witness_FsmTransitions :
    (∃ t, step { ready with host := [.write 0x008#14 32 1] } = .next t ∧ t.fsm ≠ ready.fsm) ∧
    (∃ t, step padding = .next t ∧ t.fsm ≠ padding.fsm) ∧
    (∃ t, step (answered [] encrypting) = .next t ∧ t.fsm ≠ encrypting.fsm) ∧
    (∃ t, step { locked with turns := [.reset] } = .next t ∧ t.fsm ≠ locked.fsm) :=
  ⟨⟨_, rfl, by decide⟩, ⟨_, rfl, by decide⟩, ⟨_, rfl, by decide⟩, ⟨_, rfl, by decide⟩⟩

theorem witness_FlagsChangeOnlyAsListed :
    (∃ t, step padding = .next t ∧ padding.done = false ∧ t.done = true) ∧
    (∃ t, step { locked with host := [.write 0x00C#14 32 2] } = .next t ∧ locked.done = true ∧ t.done = false) ∧
    (∃ t, step { locked with host := [.write 0x014#14 32 9] } = .next t ∧ locked.wbusy = false ∧
      t.wbusy = true) ∧
    (∃ t, step { locked with wbusy := true, host := [.write 0x00C#14 32 8] } = .next t ∧ t.wbusy = false) ∧
    (∃ t, step { locked with turns := [.reset] } = .next t ∧ t.err ≠ locked.err) ∧
    (∃ t, step { ready with done := true, host := [.write 0x008#14 32 5] } = .next t ∧ t.busy = true) ∧
    (∃ t, step (answered [] encrypting) = .next t ∧ encrypting.fatal = false ∧ t.fatal = true) ∧
    DroppedWhenNotIdle locked.cfg.bufBytes 0x014#14 :=
  ⟨⟨_, rfl, by decide, by decide⟩, ⟨_, rfl, by decide, by decide⟩, ⟨_, rfl, by decide, by decide⟩,
    ⟨_, rfl, by decide⟩, ⟨_, rfl, by decide⟩, ⟨_, rfl, by decide⟩, ⟨_, rfl, by decide, by decide⟩, by decide⟩

theorem witness_IrqFollowsDoneAndEnable :
    (∃ t, step { padding with irqEn := true } = .next t ∧ padding.mover = .core ∧ padding.fsm = .busy ∧
      t.fsm ≠ .busy ∧ t.irq = true) ∧
    (∃ t, step { locked with irqEn := true, host := [.write 0x00C#14 32 2] } = .next t) ∧
    (∃ t, step { locked with irqEn := true, host := [.write 0x004#14 32 0] } = .next t) ∧
    (0x2#32).getLsbD 1 = true ∧ (0x0#32).getLsbD 0 = false ∧ locked.mover = .host :=
  ⟨⟨_, rfl, by decide, by decide, by decide, by decide⟩, ⟨_, rfl⟩, ⟨_, rfl⟩, by decide, by decide, by decide⟩

theorem witness_InputsAreStableWhileBusy :
    (∃ t, step padding = .next t ∧ padding.mover = .core) ∧
    (∃ t, step { waiting with host := [.write 0x014#14 32 9] } = .next t ∧ waiting.fsm = .busy ∧ t.fsm = .busy) :=
  ⟨⟨_, rfl, by decide⟩, ⟨_, rfl, by decide, by decide⟩⟩

theorem witness_BuffersHaveOneWriter :
    (∃ t, step padding = .next t ∧ t.obuf ≠ padding.obuf) ∧
    (∃ t, step { ready with host := [.write 0x1FFC#14 32 9] } = .next t ∧ t.ibuf ≠ ready.ibuf) :=
  ⟨⟨_, rfl, by decide⟩, ⟨_, rfl, by decide⟩⟩

theorem witness_AccessesAreServedInPortOrder :
    ((∃ t, step padding = .next t) ∧ padding.served = none ∧ ready.mover = .host ∧ ready.hostFaulted = false) ∧
    ((∃ t, step ready = .next t) ∧ ready.served = none) ∧
    (let s := { ready with host := [.poll 0x00C#14 2 2] };
      (∃ t, step s = .next t ∧ t.reply = some (.data 0)) ∧ s.served = some (.poll 0x00C#14 2 2)) ∧
    (let s := { ready with host := [.poll 0x00E#14 2 2] };
      (∃ t, step s = .next t ∧ t.reply = some .error) ∧ s.served = some (.poll 0x00E#14 2 2)) ∧
    (let s := { ready with host := [.read 0x000#14 32, .write 0x010#14 32 3] };
      (∃ t, step s = .next t) ∧ s.served = some (.read 0x000#14 32)) ∧
    (let s := { ready with host := [.write 0x010#14 32 3] };
      (∃ t, step s = .next t) ∧ s.served = some (.write 0x010#14 32 3)) :=
  ⟨⟨⟨_, rfl⟩, by decide, by decide, by decide⟩, ⟨⟨_, rfl⟩, by decide⟩, ⟨⟨_, rfl, by decide⟩, by decide⟩,
    ⟨⟨_, rfl, by decide⟩, by decide⟩, ⟨⟨_, rfl⟩, by decide⟩, ⟨_, rfl⟩, by decide⟩

theorem witness_ResetTakesTheResetValues :
    ({ waiting with turns := [.reset, .host] }).turns = .reset :: [.host] := by decide

theorem witness_PowerOnLeavesBuffersUnspecified :
    ({ locked with turns := [.powerOn] }).turns = .powerOn :: [] := by decide

theorem witness_EnabledCommandCompletes :
    (padding.Inv ∧ padding.fsm = .busy ∧ padding.mover = .core ∧ drawNeeded padding.cfg padding.snap = none) ∧
    ((answered draw16 encrypting).Inv ∧ (answered draw16 encrypting).mover = .core) ∧
    (drawNeeded encrypting.cfg encrypting.snap = some 16 ∧ encrypting.ent = .none ∧ encrypting.mover = .core) :=
  ⟨⟨padding_inv, by decide, by decide, by decide⟩, ⟨answered_inv, by decide⟩, by decide, by decide, by decide⟩

theorem witness_UnansweredRequestStaysBusy :
    waiting.Inv ∧ waiting.ent = .pending 16 (bytes [1, 2]) ∧ ∀ t ∈ waiting.turns, t = .host ∨ t = .core :=
  ⟨waiting_inv, by decide, by decide⟩

theorem witness_BusyOrDoneAfterAcceptance :
    padding.Inv ∧ (∃ t, step padding = .next t) ∧ padding.fsm = .busy ∧ padding.mover.isReset = false ∧
      padding.mover ≠ .host := ⟨padding_inv, ⟨_, rfl⟩, by decide, by decide, by decide⟩

theorem witness_EveryStepKeepsTheInvariant :
    (waiting.Inv ∧ ∃ t, step waiting = .next t) ∧ (ready.Inv ∧ ∃ t, step ready = .next t) :=
  ⟨⟨waiting_inv, _, rfl⟩, ⟨ready_inv, _, rfl⟩⟩

theorem witness_EveryRunIsSafe : padding.Inv := padding_inv

theorem witness_EntropyPortShowsTheRequest :
    (waiting.Inv ∧ waiting.ent.req = true ∧ waiting.ent.len = some 16#16) ∧
    (∃ t, step { waiting with turns := [.entropy true 3 true] } = .next t ∧ t.ent.req = false) ∧
    (∃ t, step waiting = .next t ∧ t.ent.req = true) ∧
    ({ waiting with turns := [.reset] }).mover.isReset = true ∧
    (∃ t, step encrypting = .next t ∧ encrypting.ent.req = false ∧ t.ent.req = true) :=
  ⟨⟨waiting_inv, by decide, by decide⟩, ⟨_, rfl, by decide⟩, ⟨_, rfl, by decide⟩, by decide,
    ⟨_, rfl, by decide, by decide⟩⟩

theorem witness_BusErrorFaultsTheHostProgram :
    (let s := { ready with host := [.read 0x002#14 32, .read 0x000#14 32] };
      (∃ t, step s = .next t ∧ t.hostFaulted = true) ∧ s.cfg.wf = true ∧ s.hostFaulted = false ∧
        s.served = some (.read 0x002#14 32)) ∧
    (let s := { ready with host := [.write 0x3FFC#14 32 1] };
      (∃ t, step s = .next t ∧ t.hostFaulted = true) ∧ s.served = some (.write 0x3FFC#14 32 1)) ∧
    (let s := { ready with host := [.poll 0x040#14 2 2] };
      (∃ t, step s = .next t ∧ t.hostFaulted = true) ∧ s.served = some (.poll 0x040#14 2 2)) ∧
    (let s := { ready with reply := some .error, host := [.read 0x000#14 32] };
      (∃ t, step s = .next t) ∧ s.hostFaulted = true ∧ s.mover = .host) ∧
    (∃ t, step padding = .next t ∧ padding.mover ≠ .host) :=
  ⟨⟨⟨_, rfl, by decide⟩, by decide, by decide, by decide⟩, ⟨⟨_, rfl, by decide⟩, by decide⟩,
    ⟨⟨_, rfl, by decide⟩, by decide⟩, ⟨⟨_, rfl⟩, by decide, by decide⟩, ⟨_, rfl, by decide⟩⟩

theorem locked_inv : locked.Inv where
  cfg := by decide
  ibuf := by decide
  obuf := by decide
  dstLen := by decide
  failed := fun _ => rfl
  busy := fun h => by cases h
  locked := by decide
  ent := trivial
  fresh := by decide

theorem witness_ReadsWhileLocked :
    locked.Inv ∧ locked.fsm = .locked ∧ 4 * 0 < locked.cfg.bufBytes ∧ 4 * 1023 < locked.cfg.bufBytes :=
  ⟨locked_inv, by decide, by decide, by decide⟩

end Sys2Proof.Tests
end

section
/-! SUPPORT. The host's accesses to the registers: what a read or a write of each register is, as an equation
on the whole state (10_state.md R36, R39 to R49; 20_memory.md R80). -/

namespace Sys2Proof.Machine

/-! ## Register reads and writes -/

namespace State

/-- A read of STATUS returns the status word (R42). -/
theorem busRead_status (s : State) : s.busRead 0x00C#14 32 = { s with reply := some (.data s.statusWord) } :=
  busRead_of_place (decodeAccess_status _)

/-- A write to CMD in IDLE is an acceptance, answered OKAY (R36). -/
theorem busWrite_cmd_idle {s : State} (h : s.fsm = .idle) (w : Word) :
    s.busWrite 0x008#14 32 w = (s.accept w).answer .okay := by
  rw [busWrite_of_place (decodeAccess_cmd _), writePlace, whenIdle_idle h]

/-- A write to CMD in BUSY or LOCKED is dropped, answered OKAY (R240). -/
theorem busWrite_cmd_dropped {s : State} (h : s.fsm ≠ .idle) (w : Word) :
    s.busWrite 0x008#14 32 w = s.dropWrite.answer .okay := by
  rw [busWrite_of_place (decodeAccess_cmd _), writePlace, whenIdle_dropped h]

/-- A write to STATUS, in every state (R43). -/
theorem busWrite_status (s : State) (v : Word) : s.busWrite 0x00C#14 32 v = (s.writeStatus v).answer .okay :=
  busWrite_of_place (decodeAccess_status _)

/-- A write to CTRL, in every state (R40). -/
theorem busWrite_ctrl (s : State) (v : Word) : s.busWrite 0x004#14 32 v = (s.writeCtrl v).answer .okay :=
  busWrite_of_place (decodeAccess_ctrl _)

theorem busWrite_blksz {s : State} (h : s.fsm = .idle) (v : Word) :
    s.busWrite 0x010#14 32 v = { s with blksz := v, reply := some .okay } := by
  rw [busWrite_of_place (decodeAccess_blksz _), writePlace, whenIdle_idle h, answer]

theorem busWrite_srcLen {s : State} (h : s.fsm = .idle) (v : Word) :
    s.busWrite 0x014#14 32 v = { s with srcLen := v, reply := some .okay } := by
  rw [busWrite_of_place (decodeAccess_srcLen _), writePlace, whenIdle_idle h, answer]

theorem busWrite_keyLen {s : State} (h : s.fsm = .idle) (v : Word) :
    s.busWrite 0x01C#14 32 v = { s with keyLen := v, reply := some .okay } := by
  rw [busWrite_of_place (decodeAccess_keyLen _), writePlace, whenIdle_idle h, answer]

theorem busRead_ctrl (s : State) : s.busRead 0x004#14 32 = { s with reply := some (.data s.ctrlWord) } :=
  busRead_of_place (decodeAccess_ctrl _)

theorem busRead_blksz (s : State) : s.busRead 0x010#14 32 = { s with reply := some (.data s.blksz) } :=
  busRead_of_place (decodeAccess_blksz _)

theorem busRead_srcLen (s : State) : s.busRead 0x014#14 32 = { s with reply := some (.data s.srcLen) } :=
  busRead_of_place (decodeAccess_srcLen _)

theorem busRead_keyLen (s : State) : s.busRead 0x01C#14 32 = { s with reply := some (.data s.keyLen) } :=
  busRead_of_place (decodeAccess_keyLen _)

/-- CTRL reads as IRQ_EN in bit 0 (R40, R49). -/
theorem ctrlWord_eq (s : State) : s.ctrlWord = if s.irqEn then 1#32 else 0#32 := by
  unfold ctrlWord
  cases s.irqEn <;> rfl

end State

/-- Bit 0 of a word, written to CTRL, reads back alone (R40, R49). -/
theorem and_one_eq_ite (v : Word) : v &&& 1#32 = if v.getLsbD 0 then 1#32 else 0#32 := by
  rw [BitVec.and_one_eq_setWidth_ofBool_getLsbD]
  cases v.getLsbD 0 <;> rfl

/-- A flag after a write to STATUS, as the choice its bit makes (R43). -/
theorem and_not_eq_ite (flag bit : Bool) : (flag && !bit) = if bit then false else flag := by
  cases bit <;> simp

/-! ## The statements -/

/-- Settles O8: in IDLE the write is `accept`, in BUSY and LOCKED `dropWrite`. -/
theorem cmdWriteIsAcceptedWhenIdle : Obligations.CmdWriteIsAcceptedWhenIdle :=
  fun _ w => ⟨fun h => State.busWrite_cmd_idle h w, fun h => State.busWrite_cmd_dropped h w⟩

/-- Settles O10: each of the two flags is the choice its bit makes. -/
theorem statusWriteClearsDoneAndWbusy : Obligations.StatusWriteClearsDoneAndWbusy := by
  intro s v
  rw [State.busWrite_status, State.writeStatus, and_not_eq_ite, and_not_eq_ite, State.answer]

/-- Settles O13, register by register. -/
theorem configurationRegistersReadBack : Obligations.ConfigurationRegistersReadBack := by
  intro s v h
  refine ⟨State.busWrite_blksz h v, State.busWrite_srcLen h v, State.busWrite_keyLen h v, ?_,
    State.busWrite_ctrl s v, ?_⟩
  · rintro off (rfl | rfl | rfl)
    · rw [State.busWrite_blksz h, State.busRead_blksz]
    · rw [State.busWrite_srcLen h, State.busRead_srcLen]
    · rw [State.busWrite_keyLen h, State.busRead_keyLen]
  · rw [State.busRead_ctrl, State.busWrite_ctrl, State.ctrlWord_eq, and_one_eq_ite]
    rfl

/-- Settles O15, register by register. -/
theorem registerReadsReturnTheirValues : Obligations.RegisterReadsReturnTheirValues := by
  intro s
  refine ⟨State.busRead_of_place (decodeAccess_id _), ?_, State.busRead_of_place (decodeAccess_cmd _),
    State.busRead_blksz s, State.busRead_srcLen s, State.busRead_of_place (decodeAccess_dstLen _),
    State.busRead_keyLen s, fun k hk => State.busRead_of_place (decodeAccess_key _ hk)⟩
  rw [State.busRead_ctrl, State.ctrlWord_eq]

/-- Settles O14: the fields of the status word (`statusBits`), with BUSY and FATAL as views of `fsm`. -/
theorem statusReadShowsTheFlags : Obligations.StatusReadShowsTheFlags := by
  intro s
  obtain ⟨hbusy, hdone, hfatal, hwbusy, herr, hzero, hhigh⟩ :=
    statusBits s.err.code s.wbusy s.fatal s.done s.busy
  refine ⟨s.statusWord, by rw [State.busRead_status], ?_, hdone, ?_, hwbusy, ?_, hzero, hhigh⟩
  · rw [State.statusWord, hbusy, State.busy, beq_iff_eq]
  · rw [State.statusWord, hfatal, State.fatal, beq_iff_eq]
  · rw [State.statusWord, herr]
    cases s.err <;> rfl

/-- Settles O6: the host's step is the write to CMD, an acceptance since the core is in IDLE; the step after it
has the core's turn first and a BUSY core. -/
theorem commandWrittenIsTheCommandRun : Obligations.CommandWrittenIsTheCommandRun := by
  intro s w i ops rest hidle hent hfault hhost hturns hdec
  let accepted : State := ({ s with turns := .core :: rest, host := ops }.accept w).answer .okay
  have hstep : step s = .next accepted := by
    rw [step_of_turn hturns, takeTurn, State.hostTurn_write (by exact hfault) (by exact hhost),
      State.busWrite_cmd_idle (by exact hidle)]
  have hrun : step accepted = exec i { accepted with turns := rest } := step_core rfl rfl hdec
  exact ⟨accepted, _, hstep, rfl, hrun, rfl, rfl, rfl, rfl, hent⟩

end Sys2Proof.Machine
end

section
/-! SUPPORT. Everything a step can do, said once (`step_effect`): each statement about a step is then a case
analysis over `StepEffect` (00_scope.md R24; 10_state.md R33 to R37). -/

namespace Sys2Proof.Machine

/-! ## How the running command ends -/

/-- The FSM state that a completion with a code leaves (R196, R197, R199). -/
def ErrCode.after (code : ErrCode) : Fsm := if code.fatal then .locked else .idle

theorem ErrCode.after_of_fatal {code : ErrCode} (h : code.fatal = true) : code.after = .locked := if_pos h

theorem ErrCode.after_of_not_fatal {code : ErrCode} (h : code.fatal = false) : code.after = .idle := by
  rw [ErrCode.after, h, if_neg Bool.false_ne_true]

@[simp] theorem ErrCode.after_ne_busy (code : ErrCode) : code.after ≠ .busy := by
  unfold ErrCode.after
  split <;> simp

@[simp] theorem ErrCode.after_eq_locked {code : ErrCode} : code.after = .locked ↔ code.fatal = true := by
  unfold ErrCode.after
  split <;> simp [*]

/-- A state without a request outstanding, where the running command needs no draw (R35). -/
theorem State.Inv.no_request {s : State} (hi : s.Inv) (h : drawNeeded s.cfg s.snap = none) : s.ent.req = false := by
  have hent := hi.ent
  unfold entropyMatches at hent
  split at hent
  · next he => rw [he]; rfl
  · next he => simp [h] at hent
  · next he => rw [he]; rfl

/-- The answer the running command has is of at most the bytes it needs (R15, R171). -/
theorem State.Inv.answer_le {s : State} (hi : s.Inv) {r : List Byte} (he : s.ent = .answered r) {n : Nat}
    (hn : drawNeeded s.cfg s.snap = some n) : r.length ≤ n := by
  have hent := hi.ent
  rw [entropyMatches, he] at hent
  obtain ⟨_, m, hm, hle⟩ := hent
  rw [hn] at hm
  cases hm
  exact hle

/-- The running command's input bytes are all there, where SRC_LEN is within the capacity (R34). -/
theorem State.Inv.whole {s : State} (hi : s.Inv) (hb : s.fsm = .busy) (hl : s.snap.length ≤ s.cfg.bufBytes) :
    s.snap.whole := by
  obtain ⟨_, _, _, hsnap⟩ := hi.busy hb
  rw [hsnap] at hl ⊢
  have hmin : min s.srcLen.toNat s.cfg.bufBytes = s.srcLen.toNat := Nat.min_eq_left hl
  simp [Snapshot.whole, State.takeSnapshot, Snapshot.length, hmin]

/-- What is made of a full draw fits OBUF (R145, R175). -/
theorem length_drawResult_le {i : Instr} {cfg : Config.Params} {snap : Snapshot} {n : Nat} {short : ErrCode}
    {r : List Byte} (hc : cfg.wf = true) (hw : snap.length ≤ cfg.bufBytes → snap.whole)
    (hd : drawOf i cfg snap = some (n, short)) (hr : r.length = n) :
    (drawResult i cfg snap r).length ≤ cfg.bufBytes := by
  obtain ⟨_, _, ⟨rfl, hn, hblob⟩ | ⟨rfl, hn, hlen⟩⟩ := drawOf_bounds hc hd
  · have hl : snap.length ≤ blobLength cfg snap.length := by unfold blobLength; omega
    rw [drawResult, length_encryptBlob hc (hw (hl.trans hblob)) (hr.trans hn)]
    exact hblob
  · rw [drawResult, length_hexString, hr, hn]
    exact hlen

/-- What the running command of `s` can end with, a code and a result string. -/
structure Ending (s : State) (code : ErrCode) (out : List Byte) : Prop where
  /-- only a success has a result string (R197, R199) -/
  failed : code ≠ .success → out = []
  /-- the result string fits OBUF (R46) -/
  fits : s.Inv → out.length ≤ s.cfg.bufBytes
  /-- no command ends while its entropy request is outstanding (R35, R247) -/
  answered : s.Inv → s.ent.req = false

theorem ending_error {s : State} (code : ErrCode) (h : s.Inv → s.ent.req = false) : Ending s code [] :=
  ⟨fun _ => rfl, fun _ => Nat.zero_le _, h⟩

/-- The core's turn: nothing changes, the command ends, or it asks for the bytes it needs (R35, R102). -/
theorem coreTurn_ends {s t : State} (h : coreTurn s = .next t) :
    t = s ∨
    (s.fsm = .busy ∧ ∃ code out, Ending s code out ∧ t = s.finish code.after code out) ∨
    (s.fsm = .busy ∧ ∃ n, drawNeeded s.cfg s.snap = some n ∧ s.ent = .none ∧ t = s.requestEntropy n) := by
  rcases coreTurn_cases h with ⟨_, rfl⟩ | ⟨hb, ⟨e, hd⟩, rfl⟩ | ⟨hb, i, hd, he⟩
  · exact .inl rfl
  · have hn : drawNeeded s.cfg s.snap = none := by rw [drawNeeded, hd]
    exact .inr (.inl ⟨hb, .illegalCommand, [], ending_error _ fun hi => hi.no_request hn, rfl⟩)
  · have hneeded := drawNeeded_eq (cfg := s.cfg) hd
    rcases exec_cases he with ⟨out, rfl, ⟨hdr, hr⟩ | ⟨n, short, r, hdr, hans, hle, rfl⟩⟩ | ⟨code, rfl, hc, hdr⟩ |
      ⟨n, short, r, rfl, hdr, hans, _⟩ | ⟨n, short, rfl, hdr, hent⟩ | ⟨_, _, _, _, rfl, _⟩
    · rw [hdr] at hneeded
      exact .inr (.inl ⟨hb, .success, out,
        ⟨absurd rfl, fun _ => length_directResult_le hr, fun hi => hi.no_request hneeded⟩, rfl⟩)
    · rw [hdr] at hneeded
      refine .inr (.inl ⟨hb, .success, _, ⟨absurd rfl, fun hi => ?_, fun _ => by rw [hans]; rfl⟩, rfl⟩)
      exact length_drawResult_le hi.cfg (hi.whole hb) hdr (le_antisymm (hi.answer_le hans hneeded) hle)
    · rw [hdr] at hneeded
      rw [← ErrCode.after_of_not_fatal (errorCodes_not_fatal hc).1]
      exact .inr (.inl ⟨hb, code, [], ending_error _ fun hi => hi.no_request hneeded, rfl⟩)
    · rw [← ErrCode.after_of_fatal (drawOf_short_fatal hdr).1]
      exact .inr (.inl ⟨hb, short, [], ending_error _ fun _ => by rw [hans]; rfl, rfl⟩)
    · rw [hdr] at hneeded
      exact .inr (.inr ⟨hb, n, hneeded, hent, rfl⟩)
    · exact .inl rfl

/-! ## What a step can do -/

/-- What a step from `s` to `t` does. -/
inductive StepEffect (s t : State) : Prop
  /-- nothing of the core but the count of free values changes: the host reads, polls, is refused a write or has
  nothing to do, or the core has nothing to do -/
  | outside (reply : Option Reply) (host : List HostOp) (draws : Nat)
      (no_reset : s.mover.isReset = false)
      (no_write : ∀ off size v, s.served = some (.write off size v) →
        decodeAccess s.cfg.bufBytes off size = none)
      (draws_le : s.draws ≤ draws)
      (eq : t = { s with reply := reply, host := host, turns := s.turns.tail, draws := draws })
  /-- the host writes a mapped location -/
  | write (off : Offset) (v : Word) (p : Place)
      (served : s.served = some (.write off 32 v))
      (place : decodeAccess s.cfg.bufBytes off 32 = some p)
      (eq : t = { s.writePlace p v with reply := some .okay, host := s.host.tail, turns := s.turns.tail })
  /-- the running command ends -/
  | ends (code : ErrCode) (out : List Byte)
      (mover : s.mover = .core) (busy : s.fsm = .busy)
      (ending : Ending { s with turns := s.turns.tail } code out)
      (eq : t = { s with turns := s.turns.tail }.finish code.after code out)
  /-- the running command asks for entropy -/
  | request (n : Nat)
      (mover : s.mover = .core) (busy : s.fsm = .busy)
      (needed : drawNeeded s.cfg s.snap = some n) (ent : s.ent = .none)
      (eq : t = { s with turns := s.turns.tail }.requestEntropy n)
  /-- a cycle of the entropy port -/
  | entropy (v : Bool) (x : Byte) (f : Bool)
      (mover : s.mover = .entropy v x f)
      (eq : t = { s with turns := s.turns.tail }.entropyTurn v x f)
  /-- a reset -/
  | reset (mover : s.mover = .reset) (eq : t = { s with turns := s.turns.tail }.resetCore)
  /-- power is applied -/
  | powerOn (mover : s.mover = .powerOn) (eq : t = { s with turns := s.turns.tail }.powerOn)

/-- A write looks at the core only, not at the accesses that wait or the turns. -/
theorem State.writePlace_outside (p : Place) (v : Word) (s : State) (host : List HostOp) (turns : List Turn) :
    { s with host := host, turns := turns }.writePlace p v =
      { s.writePlace p v with host := host, turns := turns } := by
  by_cases h : s.fsm = .idle
  · cases p <;> simp only [State.writePlace, State.whenIdle, if_pos h] <;> rfl
  · cases p <;> simp only [State.writePlace, State.whenIdle, if_neg h] <;> rfl

/-- What the host's turn can do, in a step (R81, R91). -/
theorem hostStep_effect {s t : State} (hm : s.mover = .host)
    (ht : t = { s with turns := s.turns.tail }.hostTurn) : StepEffect s t := by
  have no_reset : s.mover.isReset = false := by rw [hm]; rfl
  rcases State.hostTurn_cases { s with turns := s.turns.tail } with
    ⟨hnone, heq⟩ | ⟨hf, off, size, rest, r, d, heq, hd, hhost⟩ | ⟨hf, off, size, v, rest, hhost, hbad, heq⟩ |
      ⟨hf, off, v, rest, p, hhost, hp, heq⟩
  · have hs : s.served = none := served_eq_none.2 (.inr hnone.symm)
    exact .outside s.reply s.host s.draws no_reset (by simp [hs]) le_rfl (ht.trans heq)
  · refine .outside r rest d no_reset (fun off' size' v' hs => ?_) hd (ht.trans heq)
    obtain ⟨_, _, rest', hw⟩ := served_eq_some.1 hs
    rcases hhost with hhost | ⟨_, _, _, hhost, _⟩ <;> cases hw.symm.trans hhost
  · refine .outside (some .error) rest s.draws no_reset (fun off' size' v' hs => ?_) le_rfl (ht.trans heq)
    obtain ⟨_, _, rest', hw⟩ := served_eq_some.1 hs
    cases hw.symm.trans hhost
    exact hbad
  · have hrest : rest = s.host.tail := by rw [show s.host = _ from hhost, List.tail_cons]
    subst hrest
    refine .write off v p (served_eq_some.2 ⟨hm, hf, _, hhost⟩) hp (ht.trans (heq.trans ?_))
    exact congrArg (State.answer .okay) (State.writePlace_outside p v s _ _)

/-- Every step is one of these. -/
theorem step_effect {s t : State} (h : step s = .next t) : StepEffect s t := by
  rcases step_cases h with ⟨hm, ht⟩ | ⟨hm, hc⟩ | ⟨v, x, f, hm, ht⟩ | ⟨hm, ht⟩ | ⟨hm, ht⟩
  · exact hostStep_effect hm ht
  · rcases coreTurn_ends hc with ht | ⟨hb, code, out, he, ht⟩ | ⟨hb, n, hn, hent, ht⟩
    · have hs : s.served = none := served_eq_none.2 (.inl (by simp [hm]))
      exact .outside s.reply s.host s.draws (by rw [hm]; rfl) (by simp [hs]) le_rfl ht
    · exact .ends code out hm hb he ht
    · exact .request n hm hb hn hent ht
  · exact .entropy v x f hm ht
  · exact .reset hm ht
  · exact .powerOn hm ht

end Sys2Proof.Machine
end

section
/-! SUPPORT. The invariant of every reachable state is kept by every step (10_state.md R33 to R37, R46, R50, R51;
60_exceptions.md R196 to R199; 42_random.md R171): one lemma per named operation, assembled over `StepEffect`. -/

namespace Sys2Proof.Machine

namespace State.Inv

variable {s : State} (hi : s.Inv)
include hi

/-- An entropy transaction exists only while a command runs (R35). -/
theorem ent_none (h : s.fsm ≠ .busy) : s.ent = .none := by
  have hent := hi.ent
  unfold entropyMatches at hent
  split at hent
  · assumption
  · exact absurd hent.1 h
  · exact absurd hent.1 h

/-- The invariant does not speak of what lies outside the core, and free values may be drawn at any time. -/
theorem outside (reply : Option Reply) (host : List HostOp) (turns : List Turn) {draws : Nat}
    (h : s.draws ≤ draws) : State.Inv { s with reply := reply, host := host, turns := turns, draws := draws } where
  cfg := hi.cfg
  ibuf := hi.ibuf
  obuf := hi.obuf
  dstLen := hi.dstLen
  failed := hi.failed
  busy := hi.busy
  locked := hi.locked
  ent := hi.ent
  fresh := ⟨hi.fresh.1.trans_le h, hi.fresh.2.1.trans_le h, hi.fresh.2.2⟩

/-- A completion keeps the invariant (R196, R197, R199). -/
theorem finish {code : ErrCode} {out : List Byte} (he : Ending s code out) :
    (s.finish code.after code out).Inv where
  cfg := hi.cfg
  ibuf := hi.ibuf
  obuf := Buffer.holding_wf (he.fits hi) _
  dstLen := by
    have hfits := he.fits hi
    rw [dstLen_finish (hfits.trans (bufBytes_bounds hi.cfg).2.1)]
    exact hfits
  failed := fun h => by rw [he.failed h]; rfl
  busy := fun h => absurd h code.after_ne_busy
  locked := ErrCode.after_eq_locked
  ent := trivial
  fresh := ⟨hi.fresh.1.trans (Nat.lt_succ_self _), Nat.lt_succ_self _, hi.fresh.1.ne⟩

/-- Asking for the bytes the command needs keeps the invariant (R35). -/
theorem requestEntropy {n : Nat} (hb : s.fsm = .busy) (hn : drawNeeded s.cfg s.snap = some n) :
    (s.requestEntropy n).Inv :=
  { hi with ent := ⟨hb, hn, (drawNeeded_bounds hi.cfg hn).1⟩ }

/-- A cycle of the entropy port keeps the invariant (R171). -/
theorem entropyTurn (v : Bool) (x : Byte) (f : Bool) : (s.entropyTurn v x f).Inv := by
  suffices hent : entropyMatches (s.entropyTurn v x f) from { hi with ent := hent }
  have hent := hi.ent
  unfold entropyMatches at hent ⊢
  rcases cycle_cases v x f s.ent with ⟨_, heq⟩ | ⟨n, got, he, hcase⟩
  · rw [State.entropyTurn_ent, heq]
    exact hent
  · rw [he] at hent
    obtain ⟨hb, hn, hlt⟩ := hent
    rw [State.entropyTurn_ent]
    rcases hcase with ⟨_, heq⟩ | ⟨_, _, heq⟩ | ⟨_, _, hmore, heq⟩ | ⟨_, _, _, heq⟩
    · rw [heq]
      exact ⟨hb, n, hn, hlt.le⟩
    · rw [heq, he]
      exact ⟨hb, hn, hlt⟩
    · rw [heq]
      exact ⟨hb, hn, by rw [List.length_append]; exact hmore⟩
    · rw [heq]
      exact ⟨hb, n, hn, by rw [List.length_append]; exact hlt⟩

/-- Reset keeps the invariant (R231). -/
theorem resetCore : s.resetCore.Inv where
  cfg := hi.cfg
  ibuf := hi.ibuf
  obuf := Buffer.holding_wf (Nat.zero_le _) _
  dstLen := Nat.zero_le _
  failed := fun h => absurd rfl h
  busy := fun h => by cases h
  locked := by simp [ErrCode.fatal]
  ent := trivial
  fresh := ⟨hi.fresh.1.trans (Nat.lt_succ_self _), Nat.lt_succ_self _, hi.fresh.1.ne⟩

/-- Power-on keeps the invariant (R232). -/
theorem powerOn : s.powerOn.Inv :=
  { hi.resetCore with
    ibuf := Buffer.holding_wf (Nat.zero_le _) _
    fresh := ⟨Nat.lt_succ_self _, by simp, by simp⟩
    busy := fun h => by cases h }

/-- An acceptance in IDLE keeps the invariant: the snapshot is that of the live inputs (R34, R36). -/
theorem accept (h : s.fsm = .idle) (w : Word) : (s.accept w).Inv where
  cfg := hi.cfg
  ibuf := hi.ibuf
  obuf := hi.obuf
  dstLen := Nat.zero_le _
  failed := fun h => absurd rfl h
  busy := fun _ => ⟨rfl, rfl, rfl, rfl⟩
  locked := by simp [ErrCode.fatal]
  ent := by
    rw [entropyMatches, State.accept_ent, hi.ent_none (by simp [h])]
    trivial
  fresh := hi.fresh

/-- Flags that are not part of a running command may change, and DONE may be cleared (R40, R43, R240). -/
theorem flags (irqEn wbusy : Bool) {done : Bool} (h : s.done = false → done = false) :
    State.Inv { s with irqEn := irqEn, done := done, wbusy := wbusy } :=
  { hi with
    busy := fun hb => by
      obtain ⟨hdone, hrest⟩ := hi.busy hb
      exact ⟨h hdone, hrest⟩ }

/-- In IDLE the inputs may change, IBUF within its canonical form (R44 to R50). -/
theorem inputs (h : s.fsm = .idle) (blksz srcLen keyLen : Word) (keyb : Vector Byte 32) {ibuf : Buffer}
    (hwf : ibuf.wf s.cfg.bufBytes) (hfill : ibuf.fill = s.ibuf.fill) :
    State.Inv { s with blksz := blksz, srcLen := srcLen, keyLen := keyLen, keyb := keyb, ibuf := ibuf } :=
  { hi with
    ibuf := hwf
    busy := fun hb => by cases h.symm.trans hb
    ent := by
      rw [entropyMatches, hi.ent_none (by simp [h])]
      trivial
    fresh := by
      rw [hfill]
      exact hi.fresh }

/-- A write to a mapped location keeps the invariant (R36, R240). -/
theorem writePlace {off : Offset} {p : Place} (hp : decodeAccess s.cfg.bufBytes off 32 = some p) (v : Word) :
    (s.writePlace p v).Inv := by
  rcases s.writePlace_cases p v with ⟨_, h⟩ | ⟨_, h⟩ | ⟨_, h⟩ | ⟨_, h, _⟩ | ⟨hidle, _, h⟩ | ⟨hidle, _, h⟩ |
    ⟨hidle, _, h⟩ | ⟨hidle, _, h⟩ | ⟨hidle, k, _, h⟩ | ⟨hidle, a, hpa, h⟩
  · rw [h]
    exact hi
  · rw [h]
    exact hi.flags _ _ id
  · rw [h]
    exact hi.flags _ _ fun hd => by rw [hd, Bool.false_and]
  · rw [h]
    exact hi.flags _ _ id
  · rw [h]
    exact hi.accept hidle v
  · rw [h]
    exact hi.inputs hidle v s.srcLen s.keyLen s.keyb hi.ibuf rfl
  · rw [h]
    exact hi.inputs hidle s.blksz v s.keyLen s.keyb hi.ibuf rfl
  · rw [h]
    exact hi.inputs hidle s.blksz s.srcLen v s.keyb hi.ibuf rfl
  · rw [h]
    exact hi.inputs hidle s.blksz s.srcLen s.keyLen (storeKey s.keyb k v) hi.ibuf rfl
  · have hfits : a + 3 < s.cfg.bufBytes := by
      obtain ⟨_, halign, hat⟩ := decodeAccess_at hp
      rw [hpa] at hat
      obtain ⟨_, _, ha⟩ := hat
      have := bufBytes_bounds hi.cfg
      omega
    rw [h]
    exact hi.inputs hidle s.blksz s.srcLen s.keyLen s.keyb (Buffer.storeWord_wf hi.ibuf hfits v) rfl

end State.Inv

/-- A write changes no build parameter. -/
theorem State.writePlace_cfg (p : Place) (v : Word) (s : State) : (s.writePlace p v).cfg = s.cfg := by
  rcases s.writePlace_cases p v with ⟨_, h⟩ | ⟨_, h⟩ | ⟨_, h⟩ | ⟨_, h, _⟩ | ⟨_, _, h⟩ | ⟨_, _, h⟩ |
    ⟨_, _, h⟩ | ⟨_, _, h⟩ | ⟨_, _, _, h⟩ | ⟨_, _, _, h⟩ <;> rw [h] <;> rfl

/-- Settles O54: each effect of a step is a named operation that keeps the invariant, on the state with the turn
taken off the list. -/
theorem everyStepKeepsTheInvariant : Obligations.EveryStepKeepsTheInvariant := by
  intro s t hi h
  have hi' : State.Inv { s with turns := s.turns.tail } := hi.outside _ _ _ le_rfl
  cases step_effect h with
  | outside reply host draws _ _ hd heq =>
    subst heq
    exact ⟨hi.outside _ _ _ hd, rfl⟩
  | write off v p _ hp heq =>
    subst heq
    exact ⟨(hi.writePlace hp v).outside _ _ _ le_rfl, State.writePlace_cfg p v s⟩
  | ends code out _ _ he heq =>
    subst heq
    exact ⟨hi'.finish he, rfl⟩
  | request n _ hb hn _ heq =>
    subst heq
    exact ⟨hi'.requestEntropy hb hn, rfl⟩
  | entropy v x f _ heq =>
    subst heq
    exact ⟨hi'.entropyTurn v x f, rfl⟩
  | reset _ heq =>
    subst heq
    exact ⟨hi'.resetCore, rfl⟩
  | powerOn _ heq =>
    subst heq
    exact ⟨hi'.powerOn, rfl⟩

end Sys2Proof.Machine
end

section
/-! SUPPORT. What a step does to `fsm`, the flags, the interrupt and the running command's inputs, from
`step_effect` (10_state.md R33, R37, R52, R53). -/

namespace Sys2Proof.Machine

/-! ## Which location a write reaches -/

/-- Two accesses that reach one location have one offset (R38). -/
theorem decodeAccess_inj {b : Nat} {off off' : Offset} {p : Place} (h : decodeAccess b off 32 = some p)
    (h' : decodeAccess b off' 32 = some p) : off = off' := by
  obtain ⟨_, halign, hat⟩ := decodeAccess_at h
  obtain ⟨_, halign', hat'⟩ := decodeAccess_at h'
  apply BitVec.eq_of_toNat_eq
  cases p <;> simp only [Place.at] at hat hat' <;> omega

/-- The locations whose writes are dropped while BUSY or LOCKED (R240). -/
def Place.Dropped : Place → Prop
  | .cmd | .blksz | .srcLen | .keyLen | .key _ | .ibuf _ => True
  | .id | .ctrl | .status | .dstLen | .obuf _ => False

theorem droppedWhenNotIdle_of_place {b : Nat} {off : Offset} {p : Place} (hp : decodeAccess b off 32 = some p)
    (h : p.Dropped) : DroppedWhenNotIdle b off := by
  obtain ⟨_, halign, hat⟩ := decodeAccess_at hp
  refine ⟨halign, ?_⟩
  cases p <;> simp only [Place.Dropped, Place.at] at h hat <;> omega

/-- With legal parameters the windows do not meet, so an offset whose writes are dropped leads to a location whose
writes are dropped. -/
theorem exists_place_of_dropped {b : Nat} {off : Offset} (hb : b ≤ 4096) (h : DroppedWhenNotIdle b off) :
    ∃ p, decodeAccess b off 32 = some p ∧ p.Dropped := by
  have hgood : ¬ BadAccess b off 32 := by omega
  obtain ⟨_, halign, p, hat⟩ := exists_at_of_not_bad hgood
  refine ⟨p, decodeAccess_of_at hb halign hat, ?_⟩
  cases p <;> simp only [Place.Dropped, Place.at] at hat ⊢ <;> omega

namespace State

/-- A write to such a location while BUSY or LOCKED is dropped (R240). -/
theorem writePlace_dropped {s : State} {p : Place} (h : s.fsm ≠ .idle) (hp : p.Dropped) (v : Word) :
    s.writePlace p v = s.dropWrite := by
  cases p
  case id | ctrl | status | dstLen | obuf => exact hp.elim
  all_goals rw [writePlace, whenIdle_dropped h]

/-- A write while BUSY or LOCKED changes IRQ_EN, DONE and WBUSY at most (R240). -/
theorem writePlace_not_idle {s : State} (h : s.fsm ≠ .idle) (p : Place) (v : Word) :
    ∃ irqEn done wbusy, s.writePlace p v = { s with irqEn := irqEn, done := done, wbusy := wbusy } := by
  cases p <;> simp only [writePlace, whenIdle_dropped h] <;> exact ⟨_, _, _, rfl⟩

end State

/-! ## What causes a change of the flags (R53) -/

/-- The running command completes. -/
def Completes (s t : State) : Prop := s.mover = .core ∧ s.fsm = .busy ∧ t.fsm ≠ .busy

/-- The step accepts a command. -/
def Accepts (s : State) : Prop := s.fsm = .idle ∧ ∃ v, s.served = some (.write 0x008#14 32 v)

/-- The step writes STATUS with a bit set. -/
def WritesStatus (s : State) (bit : Nat) : Prop :=
  ∃ v, s.served = some (.write 0x00C#14 32 v) ∧ v.getLsbD bit = true

/-- The step drops a write. -/
def DropsWrite (s : State) : Prop :=
  s.fsm ≠ .idle ∧ ∃ off v, s.served = some (.write off 32 v) ∧ DroppedWhenNotIdle s.cfg.bufBytes off

section
variable {s t : State} (h : step s = .next t)
include h

/-- A completion is one of the endings of the command. -/
theorem step_of_completes (hc : Completes s t) :
    ∃ (code : ErrCode) (out : List Byte), t = { s with turns := s.turns.tail }.finish code.after code out := by
  obtain ⟨hm, hb, hne⟩ := hc
  cases step_effect h with
  | outside _ _ _ _ _ _ heq => exact absurd (heq ▸ hb) hne
  | write _ _ _ hs => cases hm.symm.trans (served_eq_some.1 hs).1
  | ends code out _ _ _ heq => exact ⟨code, out, heq⟩
  | request _ _ _ _ _ heq => exact absurd (heq ▸ hb) hne
  | entropy _ _ _ hm' => cases hm.symm.trans hm'
  | reset hm' => cases hm.symm.trans hm'
  | powerOn hm' => cases hm.symm.trans hm'

/-- A step that serves a write to a mapped location leaves what that write leaves. -/
theorem step_of_write {off : Offset} {v : Word} {p : Place} (hs : s.served = some (.write off 32 v))
    (hp : decodeAccess s.cfg.bufBytes off 32 = some p) :
    t = { s.writePlace p v with reply := some .okay, host := s.host.tail, turns := s.turns.tail } := by
  have hm : s.mover = .host := (served_eq_some.1 hs).1
  cases step_effect h with
  | outside _ _ _ _ no_write => cases (no_write _ _ _ hs).symm.trans hp
  | write _ _ _ hs' hp' heq =>
    cases hs.symm.trans hs'
    cases hp.symm.trans hp'
    exact heq
  | ends _ _ hm' => cases hm.symm.trans hm'
  | request _ hm' => cases hm.symm.trans hm'
  | entropy _ _ _ hm' => cases hm.symm.trans hm'
  | reset hm' => cases hm.symm.trans hm'
  | powerOn hm' => cases hm.symm.trans hm'

/-- A reset step leaves the reset values; IBUF and the count of free values are another matter at power-on. -/
theorem step_of_reset (hr : s.mover.isReset = true) :
    ∃ ibuf draws, t = { { s with turns := s.turns.tail }.resetCore with ibuf := ibuf, draws := draws } := by
  cases step_effect h with
  | outside _ _ _ no_reset => simp [no_reset] at hr
  | write _ _ _ hs => rw [(served_eq_some.1 hs).1] at hr; cases hr
  | ends _ _ hm => rw [hm] at hr; cases hr
  | request _ hm => rw [hm] at hr; cases hr
  | entropy _ _ _ hm => rw [hm] at hr; cases hr
  | reset _ heq => exact ⟨_, _, heq⟩
  | powerOn _ heq => exact ⟨_, _, heq⟩

theorem step_of_accepts (ha : Accepts s) :
    ∃ w, s.served = some (.write 0x008#14 32 w) ∧
      t = { s.accept w with reply := some .okay, host := s.host.tail, turns := s.turns.tail } := by
  obtain ⟨hidle, w, hs⟩ := ha
  refine ⟨w, hs, ?_⟩
  rw [step_of_write h hs (decodeAccess_cmd _), State.writePlace, State.whenIdle_idle hidle]

end

/-- A step that is no completion, acceptance or reset keeps `fsm` and ERR, DONE but for a STATUS write, and WBUSY
but for a STATUS write and a dropped write. -/
structure FlagsKept (s t : State) : Prop where
  fsm : t.fsm = s.fsm
  err : t.err = s.err
  done : t.done = s.done ∨ t.done = false ∧ WritesStatus s 1
  wbusy : t.wbusy = s.wbusy ∨ t.wbusy = false ∧ WritesStatus s 3 ∨ t.wbusy = true ∧ DropsWrite s

/-- What a write to a mapped location does to the flags (R36, R40, R43, R240). -/
theorem write_cause {s : State} {off : Offset} {v : Word} {p : Place} (hs : s.served = some (.write off 32 v))
    (hp : decodeAccess s.cfg.bufBytes off 32 = some p) : Accepts s ∨ FlagsKept s (s.writePlace p v) := by
  rcases s.writePlace_cases p v with ⟨_, h⟩ | ⟨_, h⟩ | ⟨rfl, h⟩ | ⟨hne, h, hdrop⟩ | ⟨hidle, rfl, _⟩ | ⟨_, _, h⟩ |
    ⟨_, _, h⟩ | ⟨_, _, h⟩ | ⟨_, _, _, h⟩ | ⟨_, _, _, h⟩
  · rw [h]
    exact .inr ⟨rfl, rfl, .inl rfl, .inl rfl⟩
  · rw [h]
    exact .inr ⟨rfl, rfl, .inl rfl, .inl rfl⟩
  · rw [decodeAccess_inj hp (decodeAccess_status _)] at hs
    rw [h]
    refine .inr ⟨rfl, rfl, ?_, ?_⟩
    · cases hbit : v.getLsbD 1 with
      | false => exact .inl (by rw [State.writeStatus_done, hbit, Bool.not_false, Bool.and_true])
      | true => exact .inr ⟨by rw [State.writeStatus_done, hbit, Bool.not_true, Bool.and_false], v, hs, hbit⟩
    · cases hbit : v.getLsbD 3 with
      | false => exact .inl (by rw [State.writeStatus_wbusy, hbit, Bool.not_false, Bool.and_true])
      | true =>
        exact .inr (.inl ⟨by rw [State.writeStatus_wbusy, hbit, Bool.not_true, Bool.and_false], v, hs, hbit⟩)
  · have hdropped : p.Dropped := by
      rcases hdrop with rfl | rfl | rfl | rfl | ⟨_, rfl⟩ | ⟨_, rfl⟩ <;> exact trivial
    rw [h]
    exact .inr ⟨rfl, rfl, .inl rfl, .inr (.inr ⟨rfl, hne, off, v, hs, droppedWhenNotIdle_of_place hp hdropped⟩)⟩
  · rw [decodeAccess_inj hp (decodeAccess_cmd _)] at hs
    exact .inl ⟨hidle, v, hs⟩
  all_goals
    rw [h]
    exact .inr ⟨rfl, rfl, .inl rfl, .inl rfl⟩

/-- What a step does to the flags has one of these causes (R53). -/
theorem step_cause {s t : State} (h : step s = .next t) :
    Completes s t ∨ Accepts s ∨ s.mover.isReset = true ∨ FlagsKept s t := by
  cases step_effect h with
  | outside _ _ _ _ _ _ heq =>
    subst heq
    exact .inr (.inr (.inr ⟨rfl, rfl, .inl rfl, .inl rfl⟩))
  | write off v p hs hp heq =>
    subst heq
    rcases write_cause hs hp with ha | ⟨hfsm, herr, hdone, hwbusy⟩
    · exact .inr (.inl ha)
    · exact .inr (.inr (.inr ⟨hfsm, herr, hdone, hwbusy⟩))
  | ends code _ hm hb _ heq =>
    subst heq
    exact .inl ⟨hm, hb, code.after_ne_busy⟩
  | request _ _ _ _ _ heq =>
    subst heq
    exact .inr (.inr (.inr ⟨rfl, rfl, .inl rfl, .inl rfl⟩))
  | entropy _ _ _ _ heq =>
    subst heq
    exact .inr (.inr (.inr ⟨rfl, rfl, .inl rfl, .inl rfl⟩))
  | reset hm _ => exact .inr (.inr (.inl (by rw [hm]; rfl)))
  | powerOn hm _ => exact .inr (.inr (.inl (by rw [hm]; rfl)))

section
variable {s t : State} (h : step s = .next t)
include h

theorem flags_of_completes (hc : Completes s t) :
    t.busy = false ∧ t.done = true ∧ t.fatal = t.err.fatal ∧ t.wbusy = s.wbusy := by
  obtain ⟨code, out, rfl⟩ := step_of_completes h hc
  refine ⟨by simp [State.busy], rfl, ?_, rfl⟩
  simp [State.fatal, beq_eq_decide]

theorem flags_of_accepts (ha : Accepts s) :
    t.busy = true ∧ t.done = false ∧ t.fatal = false ∧ t.err = .success ∧ t.wbusy = s.wbusy := by
  obtain ⟨w, _, rfl⟩ := step_of_accepts h ha
  exact ⟨rfl, rfl, rfl, rfl, rfl⟩

theorem flags_of_reset (hr : s.mover.isReset = true) :
    t.busy = false ∧ t.done = false ∧ t.fatal = false ∧ t.wbusy = false ∧ t.err = .success := by
  obtain ⟨ibuf, draws, rfl⟩ := step_of_reset h hr
  exact ⟨rfl, rfl, rfl, rfl, rfl⟩

theorem done_of_writesStatus (hw : WritesStatus s 1) : t.done = false := by
  obtain ⟨v, hs, hbit⟩ := hw
  simp [step_of_write h hs (decodeAccess_status _), State.writePlace, hbit]

theorem wbusy_of_writesStatus (hw : WritesStatus s 3) : t.wbusy = false := by
  obtain ⟨v, hs, hbit⟩ := hw
  simp [step_of_write h hs (decodeAccess_status _), State.writePlace, hbit]

theorem wbusy_of_dropsWrite (hc : s.cfg.wf = true) (hd : DropsWrite s) : t.wbusy = true := by
  obtain ⟨hne, off, v, hs, hoff⟩ := hd
  obtain ⟨p, hp, hdropped⟩ := exists_place_of_dropped (bufBytes_bounds hc).2.1 hoff
  simp [step_of_write h hs hp, State.writePlace_dropped hne hdropped]

/-- Each flag changes for one of its causes only (R53). -/
theorem flag_changes :
    (t.busy = s.busy ∨ (t.busy = true ∧ Accepts s) ∨ (t.busy = false ∧ (Completes s t ∨ s.mover.isReset = true))) ∧
    (t.done = s.done ∨ (t.done = true ∧ Completes s t) ∨
      (t.done = false ∧ (WritesStatus s 1 ∨ Accepts s ∨ s.mover.isReset = true))) ∧
    (t.fatal = s.fatal ∨ (t.fatal = true ∧ Completes s t) ∨ (t.fatal = false ∧ s.mover.isReset = true)) ∧
    (t.wbusy = s.wbusy ∨ (t.wbusy = true ∧ DropsWrite s) ∨
      (t.wbusy = false ∧ (WritesStatus s 3 ∨ s.mover.isReset = true))) ∧
    (t.err = s.err ∨ Completes s t ∨ Accepts s ∨ s.mover.isReset = true) := by
  rcases step_cause h with hc | ha | hr | ⟨hfsm, herr, hdone, hwbusy⟩
  · obtain ⟨hbusy, hdone, _, hwbusy⟩ := flags_of_completes h hc
    have hfatal' : s.fatal = false := by rw [State.fatal, hc.2.1]; rfl
    cases hfatal : t.fatal <;> simp [hc, hbusy, hdone, hwbusy, hfatal']
  · obtain ⟨hbusy, hdone, hfatal, herr, hwbusy⟩ := flags_of_accepts h ha
    have hfatal' : s.fatal = false := by rw [State.fatal, ha.1]; rfl
    simp [ha, hbusy, hdone, hwbusy, hfatal, hfatal']
  · obtain ⟨hbusy, hdone, hfatal, hwbusy, herr⟩ := flags_of_reset h hr
    simp [hr, hbusy, hdone, hwbusy, hfatal]
  · have hbusy : t.busy = s.busy := by rw [State.busy, hfsm, State.busy]
    have hfatal : t.fatal = s.fatal := by rw [State.fatal, hfsm, State.fatal]
    refine ⟨.inl hbusy, ?_, .inl hfatal, ?_, .inl herr⟩
    · exact hdone.imp_right fun ⟨hd, hw⟩ => .inr ⟨hd, .inl hw⟩
    · rcases hwbusy with hw | ⟨hw, hs⟩ | ⟨hw, hd⟩
      · exact .inl hw
      · exact .inr (.inr ⟨hw, .inl hs⟩)
      · exact .inr (.inl ⟨hw, hd⟩)

end

/-- What a flag's three ways of changing say of a rise and of a fall. -/
theorem rise_and_fall {a b : Bool} {rise fall : Prop} (h : b = a ∨ (b = true ∧ rise) ∨ (b = false ∧ fall)) :
    (a = false → b = true → rise) ∧ (a = true → b = false → fall) := by
  rcases h with rfl | ⟨rfl, hr⟩ | ⟨rfl, hf⟩
  · exact ⟨fun h0 h1 => absurd h1 (by simp [h0]), fun h1 h0 => absurd h1 (by simp [h0])⟩
  · exact ⟨fun _ _ => hr, fun _ h0 => absurd h0 (by simp)⟩
  · exact ⟨fun _ h1 => absurd h1 (by simp), fun _ _ => hf⟩

/-! ## The statements -/

/-- Settles O42: what each cause leaves, and for each flag what its change was caused by (`flag_changes`). -/
theorem flagsChangeOnlyAsListed : Obligations.FlagsChangeOnlyAsListed := by
  intro s t h
  obtain ⟨hbusy, hdone, hfatal, hwbusy, herr⟩ := flag_changes h
  have haccepts (ha : Accepts s) : t.busy = true ∧ t.done = false ∧ t.err = .success ∧ t.wbusy = s.wbusy := by
    obtain ⟨hb, hd, _, he, hw⟩ := flags_of_accepts h ha
    exact ⟨hb, hd, he, hw⟩
  exact ⟨flags_of_completes h, haccepts, done_of_writesStatus h, wbusy_of_writesStatus h, wbusy_of_dropsWrite h,
    flags_of_reset h, (rise_and_fall hbusy).1, (rise_and_fall hbusy).2, (rise_and_fall hdone).1,
    (rise_and_fall hdone).2, (rise_and_fall hfatal).1, (rise_and_fall hfatal).2, (rise_and_fall hwbusy).1,
    (rise_and_fall hwbusy).2, herr.resolve_left⟩

/-- Settles O41: `fsm` changes by a completion, whose code says which state it leaves, by an acceptance or by a reset
(`step_cause`). -/
theorem fsmTransitions : Obligations.FsmTransitions := by
  intro s t h hne
  rcases step_cause h with hc | ha | hr | hk
  · obtain ⟨code, out, rfl⟩ := step_of_completes h hc
    obtain ⟨hm, hb, _⟩ := hc
    cases hfatal : code.fatal with
    | false => exact .inr (.inl ⟨hb, ErrCode.after_of_not_fatal hfatal, hm, rfl, hfatal⟩)
    | true => exact .inr (.inr (.inl ⟨hb, ErrCode.after_of_fatal hfatal, hm, rfl, hfatal⟩))
  · obtain ⟨w, hs, rfl⟩ := step_of_accepts h ha
    exact .inl ⟨ha.1, rfl, w, hs, rfl⟩
  · obtain ⟨ibuf, draws, rfl⟩ := step_of_reset h hr
    exact .inr (.inr (.inr ⟨rfl, hr⟩))
  · exact absurd hk.fsm hne

theorem irq_of_not_done {s : State} (h : s.done = false) : s.irq = false := by
  rw [State.irq, h, Bool.and_false]

/-- Settles O43: IRQ is up exactly where IRQ_EN and DONE are, so each clause says what its cause leaves in DONE or in
IRQ_EN. -/
theorem irqFollowsDoneAndEnable : Obligations.IrqFollowsDoneAndEnable := by
  intro s t h
  refine ⟨?_, ?_, ?_, ?_, ?_, ?_⟩
  · rw [State.irq, Bool.and_eq_true]
  · intro hm hb hne
    obtain ⟨code, out, rfl⟩ := step_of_completes h ⟨hm, hb, hne⟩
    exact Bool.and_true _
  · intro hm hidle hb
    rcases step_cause h with hc | ha | hr | hk
    · cases hm.symm.trans hc.1
    · exact irq_of_not_done (flags_of_accepts h ha).2.1
    · rw [hm] at hr
      cases hr
    · cases hidle.symm.trans (hk.fsm.symm.trans hb)
  · intro hr
    exact irq_of_not_done (flags_of_reset h hr).2.1
  · intro v hs hbit
    exact irq_of_not_done (done_of_writesStatus h ⟨v, hs, hbit⟩)
  · intro v hs hbit
    rw [step_of_write h hs (decodeAccess_ctrl _)]
    show (v.getLsbD 0 && s.done) = false
    rw [hbit, Bool.false_and]

/-- Settles O44: the core's turn writes no input, a write to a BUSY core changes flags at most, and a reset is
neither. -/
theorem inputsAreStableWhileBusy : Obligations.InputsAreStableWhileBusy := by
  intro s t h hcase
  have hreset : s.mover.isReset = false := by
    by_contra hr
    obtain ⟨ibuf, draws, rfl⟩ := step_of_reset h (Bool.not_eq_false _ ▸ hr)
    rcases hcase with hm | ⟨_, hb⟩
    · rw [hm] at hr
      exact hr rfl
    · cases hb
  cases step_effect h with
  | outside _ _ _ _ _ _ heq => exact heq ▸ ⟨rfl, rfl, rfl, rfl, rfl, rfl⟩
  | write off v p hs _ heq =>
    have hne : s.fsm ≠ .idle := by
      rcases hcase with hm | ⟨hb, _⟩
      · cases hm.symm.trans (served_eq_some.1 hs).1
      · simp [hb]
    obtain ⟨irqEn, done, wbusy, hw⟩ := State.writePlace_not_idle hne p v
    rw [heq, hw]
    exact ⟨rfl, rfl, rfl, rfl, rfl, rfl⟩
  | ends _ _ _ _ _ heq => exact heq ▸ ⟨rfl, rfl, rfl, rfl, rfl, rfl⟩
  | request _ _ _ _ _ heq => exact heq ▸ ⟨rfl, rfl, rfl, rfl, rfl, rfl⟩
  | entropy _ _ _ _ heq => exact heq ▸ ⟨rfl, rfl, rfl, rfl, rfl, rfl⟩
  | reset hm => rw [hm] at hreset; cases hreset
  | powerOn hm => rw [hm] at hreset; cases hreset

end Sys2Proof.Machine
end

section
/-! SUPPORT. What a command leaves is a function of the snapshot and the draw (10_state.md R34; 60_exceptions.md
R198), and the outputs of the entropy port (10_state.md R61; 42_random.md R171). -/

namespace Sys2Proof.Machine

/-! ## A command's result is a function of what it reads -/

/-- What a command reads decides what it does, in every state: the completion it ends in, or that a request is
outstanding afterwards (R34, R35). -/
theorem exec_uniform (i : Instr) (cfg : Config.Params) (snap : Snapshot) (ent : Ent) :
    (∃ after code out, ∀ s : State, s.cfg = cfg → s.snap = snap → s.ent = ent →
      exec i s = .next (s.finish after code out)) ∨
    (∃ n got, ∀ s : State, s.cfg = cfg → s.snap = snap → s.ent = ent →
      ∃ t, exec i s = .next t ∧ t.ent = .pending n got) := by
  cases hd : drawOf i cfg snap with
  | none =>
    cases hr : directResult i cfg snap with
    | ok out =>
      exact .inl ⟨_, _, out, fun s hc hs _ => by rw [exec_eq, hc, hs, hd]; exact conclude_ok hr s⟩
    | error code =>
      exact .inl ⟨_, code, _, fun s hc hs _ => by rw [exec_eq, hc, hs, hd]; exact conclude_error hr s⟩
  | some draw =>
    obtain ⟨n, short⟩ := draw
    have hexec (s : State) (hc : s.cfg = cfg) (hs : s.snap = snap) :
        exec i s = withDraw n short (drawResult i cfg snap) s := by rw [exec_eq, hc, hs, hd]
    cases ent with
    | none =>
      exact .inr ⟨n, [], fun s hc hs he => ⟨_, (hexec s hc hs).trans (withDraw_none he _ _ _), rfl⟩⟩
    | pending m got =>
      exact .inr ⟨m, got, fun s hc hs he => ⟨s, (hexec s hc hs).trans (withDraw_pending he _ _ _), he⟩⟩
    | answered r =>
      by_cases hr : r.length < n
      · exact .inl ⟨_, short, _, fun s hc hs he => (hexec s hc hs).trans (withDraw_short he hr _ _)⟩
      · exact .inl ⟨_, _, _, fun s hc hs he =>
          (hexec s hc hs).trans (withDraw_full he (Nat.not_lt.1 hr) _ _)⟩

/-- Two buffers that hold one result string read alike over its length (R196). -/
theorem Buffer.byte_holding_alike (out : List Byte) (d d' : Nat) {a : Nat}
    (ha : a < (BitVec.ofNat 32 out.length).toNat) : (holding out d).byte a = (holding out d').byte a := by
  have hlt : a < out.length := by
    rw [BitVec.toNat_ofNat] at ha
    exact ha.trans_le (Nat.mod_le _ _)
  rw [byte_holding hlt, byte_holding hlt]

/-- Settles O38: both commands end in the same completion, or both wait for entropy. -/
theorem resultsDependOnSnapshotAndDraw : Obligations.ResultsDependOnSnapshotAndDraw := by
  intro i s s' t t' hcfg hsnap hent h h'
  rcases exec_uniform i s'.cfg s'.snap s'.ent with ⟨after, code, out, hrun⟩ | ⟨n, got, hrun⟩
  · cases h.symm.trans (hrun s hcfg hsnap hent)
    cases h'.symm.trans (hrun s' rfl rfl rfl)
    exact ⟨rfl, fun _ => ⟨rfl, rfl, rfl, rfl, rfl, fun a ha => Buffer.byte_holding_alike out _ _ ha⟩⟩
  · obtain ⟨u, hu, he⟩ := hrun s hcfg hsnap hent
    obtain ⟨u', hu', he'⟩ := hrun s' rfl rfl rfl
    cases h.symm.trans hu
    cases h'.symm.trans hu'
    refine ⟨he.trans he'.symm, fun hnone => ?_⟩
    cases he.symm.trans hnone

/-! ## The entropy port -/

/-- No cycle of the entropy port makes a request; one ends a request with an answer or keeps it with its length
(R171). -/
theorem cycle_req (v : Bool) (x : Byte) (f : Bool) (e : Ent) :
    (e.req = false → (e.cycle v x f).req = false) ∧
    (e.req = true → ((e.cycle v x f).req = true ∧ (e.cycle v x f).len = e.len) ∨
      ((e.cycle v x f).req = false ∧ ∃ r, e.cycle v x f = .answered r)) := by
  rcases cycle_cases v x f e with ⟨_, heq⟩ | ⟨n, got, rfl, ⟨_, heq⟩ | ⟨_, _, heq⟩ | ⟨_, _, _, heq⟩ | ⟨_, _, _, heq⟩⟩
  · rw [heq]
    exact ⟨id, fun h => .inl ⟨h, rfl⟩⟩
  · rw [heq]
    exact ⟨fun _ => rfl, fun _ => .inr ⟨rfl, got, rfl⟩⟩
  · rw [heq]
    exact ⟨id, fun h => .inl ⟨h, rfl⟩⟩
  · rw [heq]
    exact ⟨id, fun _ => .inl ⟨rfl, rfl⟩⟩
  · rw [heq]
    exact ⟨fun _ => rfl, fun _ => .inr ⟨rfl, _, rfl⟩⟩

/-- In a state that meets the invariant ENT_LEN is the number of bytes the command needs (R61). -/
theorem State.Inv.entLen {s : State} (hi : s.Inv) (h : s.ent.req = true) :
    ∃ w n, s.ent.len = some w ∧ drawNeeded s.cfg s.snap = some n ∧ w.toNat = n := by
  obtain ⟨n, got, he⟩ := Ent.req_iff.1 h
  have hent := hi.ent
  rw [entropyMatches, he] at hent
  obtain ⟨_, hn, _⟩ := hent
  have hle := (drawNeeded_bounds hi.cfg hn).2
  refine ⟨BitVec.ofNat 16 n, n, by rw [he]; rfl, hn, ?_⟩
  rw [BitVec.toNat_ofNat, Nat.mod_eq_of_lt (by omega)]

/-- ENT_REQ rises only in the turn of a BUSY core (R35). -/
theorem req_rises {s t : State} (h : step s = .next t) (hs : s.ent.req = false) (ht : t.ent.req = true) :
    s.mover = .core ∧ s.fsm = .busy := by
  cases step_effect h with
  | outside _ _ _ _ _ _ heq =>
    subst heq
    cases hs.symm.trans ht
  | write _ v p _ _ heq =>
    subst heq
    rw [← State.writePlace_ent p v s] at hs
    cases hs.symm.trans ht
  | ends _ _ hm hb => exact ⟨hm, hb⟩
  | request _ hm hb => exact ⟨hm, hb⟩
  | entropy v x f _ heq =>
    subst heq
    cases ((cycle_req v x f s.ent).1 hs).symm.trans ht
  | reset _ heq =>
    subst heq
    cases ht
  | powerOn _ heq =>
    subst heq
    cases ht

/-- A request is held until its answer or a reset (R171). -/
theorem req_held {s t : State} (hi : s.Inv) (h : step s = .next t) (hs : s.ent.req = true) :
    (t.ent.req = true ∧ t.ent.len = s.ent.len) ∨ (t.ent.req = false ∧ s.mover.isReset = true) ∨
    (t.ent.req = false ∧ (∃ r, t.ent = .answered r) ∧ ∃ v x f, s.mover = .entropy v x f) := by
  cases step_effect h with
  | outside _ _ _ _ _ _ heq =>
    subst heq
    exact .inl ⟨hs, rfl⟩
  | write _ v p _ _ heq =>
    have hent : t.ent = s.ent := heq ▸ State.writePlace_ent p v s
    rw [hent]
    exact .inl ⟨hs, rfl⟩
  | ends _ _ _ _ he =>
    have hanswered : s.ent.req = false := he.answered (hi.outside _ _ _ le_rfl)
    cases hs.symm.trans hanswered
  | request _ _ _ _ hnone =>
    rw [hnone] at hs
    cases hs
  | entropy v x f hm heq =>
    subst heq
    rcases (cycle_req v x f s.ent).2 hs with hheld | ⟨hreq, hr⟩
    · exact .inl hheld
    · exact .inr (.inr ⟨hreq, hr, v, x, f, hm⟩)
  | reset hm heq =>
    subst heq
    exact .inr (.inl ⟨rfl, by rw [hm]; rfl⟩)
  | powerOn hm heq =>
    subst heq
    exact .inr (.inl ⟨rfl, by rw [hm]; rfl⟩)

/-- Settles O56: the length shown is that of the invariant, which the step keeps. -/
theorem entropyPortShowsTheRequest : Obligations.EntropyPortShowsTheRequest := fun s t hi h =>
  ⟨req_rises h, (everyStepKeepsTheInvariant s t hi h).1.entLen, req_held hi h⟩

end Sys2Proof.Machine
end

section
/-! SUPPORT. What an access of the host returns and leaves: refused accesses (20_memory.md R81, R82), the packing of
the windows and of the key bank (R83), and reads without side effect (R88). -/

namespace Sys2Proof.Machine

/-! ## Refused accesses (R81, R82) -/

/-- An access that is not refused reaches a location (R38). -/
theorem exists_decodeAccess_of_not_bad {b : Nat} {off : Offset} {size : Nat} (hb : b ≤ 4096)
    (h : ¬ BadAccess b off size) : ∃ p, decodeAccess b off size = some p := by
  obtain ⟨rfl, halign, p, hat⟩ := exists_at_of_not_bad h
  exact ⟨p, decodeAccess_of_at hb halign hat⟩

theorem decodeAccess_eq_none_iff {b : Nat} {off : Offset} {size : Nat} (hb : b ≤ 4096) :
    decodeAccess b off size = none ↔ BadAccess b off size := by
  refine ⟨fun hnone => ?_, decodeAccess_none_of_bad hb⟩
  by_contra hgood
  obtain ⟨p, hp⟩ := exists_decodeAccess_of_not_bad hb hgood
  cases hnone.symm.trans hp

/-- Settles O11: a refused access reaches no location, every other one reaches one. -/
theorem badAccessesGetErrorWithoutEffect : Obligations.BadAccessesGetErrorWithoutEffect := by
  intro s off size v hc bad
  have hb : s.cfg.bufBytes ≤ 4096 := (bufBytes_bounds hc).2.1
  refine ⟨fun hbad => ?_, fun hgood => ?_⟩
  · have hnone := decodeAccess_none_of_bad hb hbad
    exact ⟨State.busRead_of_none hnone, State.busWrite_of_none hnone⟩
  · obtain ⟨p, hp⟩ := exists_decodeAccess_of_not_bad hb hgood
    exact ⟨⟨s.readPlace p, by rw [State.busRead_of_place hp]⟩, by rw [State.busWrite_of_place hp, State.answer_reply]⟩

/-! ## Packing (R83) -/

/-- The word at an index of a buffer, in the spec's own words. -/
theorem Buffer.word_eq_or (b : Buffer) (a : Nat) :
    b.word a = (b.byte a).setWidth 32 ||| (b.byte (a + 1)).setWidth 32 <<< 8 |||
      (b.byte (a + 2)).setWidth 32 <<< 16 ||| (b.byte (a + 3)).setWidth 32 <<< 24 :=
  packWord_eq_or _ _ _ _

theorem Buffer.byte_storeWord_inside (b : Buffer) (a : Nat) (v : Word) {i : Nat} (h : i < 4) :
    (b.storeWord a v).byte (a + i) = (v >>> (8 * i)).setWidth 8 := by
  rw [byte_storeWord, if_pos (by omega), Nat.add_sub_cancel_left, wordByte_eq_shift]

theorem Buffer.byte_storeWord_outside (b : Buffer) {a : Nat} (v : Word) {c : Nat} (h : c < a ∨ a + 4 ≤ c) :
    (b.storeWord a v).byte c = b.byte c := by
  rw [byte_storeWord, if_neg (by omega)]

namespace State

theorem busWrite_ibuf {s : State} (h : s.fsm = .idle) {off : Offset} {size a : Nat}
    (hp : decodeAccess s.cfg.bufBytes off size = some (.ibuf a)) (v : Word) :
    s.busWrite off size v = { s with ibuf := s.ibuf.storeWord a v, reply := some .okay } := by
  rw [busWrite_of_place hp, writePlace, whenIdle_idle h, answer]

theorem busWrite_key {s : State} (h : s.fsm = .idle) {off : Offset} {size k : Nat}
    (hp : decodeAccess s.cfg.bufBytes off size = some (.key k)) (v : Word) :
    s.busWrite off size v = { s with keyb := storeKey s.keyb k v, reply := some .okay } := by
  rw [busWrite_of_place hp, writePlace, whenIdle_idle h, answer]

end State

/-- Settles O12: both windows read as packed words, and a stored word is unpacked into its four bytes. -/
theorem hostWordsAreLittleEndian : Obligations.HostWordsAreLittleEndian := by
  intro s j v hc hj packed
  have hb : s.cfg.bufBytes ≤ 4096 := (bufBytes_bounds hc).2.1
  have hpacked (b : Buffer) : b.word (4 * j) = packed b := b.word_eq_or (4 * j)
  refine ⟨?_, fun hidle => ⟨?_, ?_, fun k hk => ?_⟩⟩
  · rw [State.busRead_of_place (decodeAccess_ibuf hb hj), State.readPlace, hpacked]
  · rw [State.busRead_of_place (decodeAccess_obuf hb hj), State.readPlace, if_pos hidle, hpacked]
  · exact ⟨_, State.busWrite_ibuf hidle (decodeAccess_ibuf hb hj) v,
      fun i hi => Buffer.byte_storeWord_inside _ _ v hi, fun a ha => Buffer.byte_storeWord_outside _ v ha⟩
  · refine ⟨_, State.busWrite_key hidle (decodeAccess_key _ hk) v, fun a ha => ?_⟩
    rw [getElem_storeKey _ _ _ ha, wordByte_eq_shift]

/-! ## Reads without side effect (R88) -/

/-- Only an OBUF read while BUSY or LOCKED draws a free value (R241). -/
theorem State.readDraws_eq_zero {s : State} {p : Place} (h : s.fsm = .idle ∨ ∀ a, p ≠ .obuf a) :
    s.readDraws p = 0 := by
  cases p with
  | obuf a => exact if_pos (h.resolve_right fun hne => hne a rfl)
  | _ => rfl

theorem State.readPlace_reply (p : Place) (s : State) (r : Option Reply) :
    { s with reply := r }.readPlace p = s.readPlace p := by
  cases p <;> rfl

/-- A read that draws no free value changes the reply alone. -/
theorem State.busRead_of_no_draw {s : State} {off : Offset} {size : Nat} {p : Place}
    (hp : decodeAccess s.cfg.bufBytes off size = some p) (h : s.readDraws p = 0) :
    s.busRead off size = { s with reply := some (.data (s.readPlace p)) } := by
  rw [busRead_of_place hp, h, Nat.add_zero]

/-- Such a read, made again, changes nothing. -/
theorem State.busRead_again {s : State} {off : Offset} {size : Nat} {p : Place}
    (hp : decodeAccess s.cfg.bufBytes off size = some p) (h : s.readDraws p = 0) :
    (s.busRead off size).busRead off size = s.busRead off size := by
  rw [busRead_of_no_draw hp h, busRead_of_no_draw (by exact hp) (by exact h),
    readPlace_reply p s (some (.data (s.readPlace p)))]

/-- Settles O16: a refused read is refused again, and one outside the OBUF window, or in IDLE, draws no free
value. -/
theorem readsHaveNoSideEffect : Obligations.ReadsHaveNoSideEffect := by
  intro s off size hc t
  refine ⟨State.busRead_eq off size s, fun hsteady => ?_⟩
  cases hp : decodeAccess s.cfg.bufBytes off size with
  | none =>
    have ht : t = { s with reply := some .error } := State.busRead_of_none hp
    rw [ht, State.busRead_of_none (by exact hp)]
  | some p =>
    refine State.busRead_again hp (State.readDraws_eq_zero (hsteady.imp_right fun hoff a hobuf => ?_))
    subst hobuf
    obtain ⟨_, _, hlow, hhigh, _⟩ := decodeAccess_at hp
    have := (bufBytes_bounds hc).2.1
    omega

end Sys2Proof.Machine
end

section
/-! SUPPORT. Which step writes the buffers and DST_LEN (20_memory.md R86), and what a step of the host leaves: its
accesses are served in port order (R91) and an ERROR reply faults its program (R81). -/

namespace Sys2Proof.Machine

/-! ## Who writes OBUF, IBUF and DST_LEN (R86) -/

/-- A write changes OBUF never, IBUF in IDLE through its window only, and DST_LEN by an acceptance only. -/
theorem State.writePlace_buffers (p : Place) (v : Word) (s : State) :
    (s.writePlace p v).obuf = s.obuf ∧
    ((s.writePlace p v).ibuf = s.ibuf ∨ s.fsm = .idle ∧ ∃ a, p = .ibuf a) ∧
    ((s.writePlace p v).dstLen = s.dstLen ∨ s.fsm = .idle ∧ (s.writePlace p v).fsm = .busy) := by
  by_cases hidle : s.fsm = .idle
  · cases p with
    | cmd =>
      rw [writePlace, whenIdle_idle hidle]
      exact ⟨rfl, .inl rfl, .inr ⟨hidle, rfl⟩⟩
    | ibuf a =>
      rw [writePlace, whenIdle_idle hidle]
      exact ⟨rfl, .inr ⟨hidle, a, rfl⟩, .inl rfl⟩
    | _ => simp [writePlace, whenIdle_idle hidle]
  · obtain ⟨irqEn, done, wbusy, h⟩ := writePlace_not_idle hidle p v
    rw [h]
    exact ⟨rfl, .inl rfl, .inl rfl⟩

/-- Settles O45, effect by effect of a step. -/
theorem buffersHaveOneWriter : Obligations.BuffersHaveOneWriter := by
  intro s t h
  cases step_effect h with
  | outside _ _ _ _ _ _ heq => exact heq ▸ ⟨absurd rfl, absurd rfl, absurd rfl⟩
  | write off v p hs hp heq =>
    subst heq
    obtain ⟨hobuf, hibuf, hdst⟩ := s.writePlace_buffers p v
    refine ⟨absurd hobuf, fun hne => .inl ?_, fun hne => .inr (.inl ?_)⟩
    · obtain ⟨hidle, a, rfl⟩ := hibuf.resolve_left hne
      obtain ⟨_, _, hlow, hhigh, _⟩ := decodeAccess_at hp
      exact ⟨hidle, off, v, hs, hlow, hhigh⟩
    · exact ⟨(served_eq_some.1 hs).1, hdst.resolve_left hne⟩
  | ends _ _ hm hb _ heq =>
    subst heq
    exact ⟨fun _ => .inl ⟨hm, hb, rfl⟩, absurd rfl, fun _ => .inl ⟨hm, hb, rfl⟩⟩
  | request _ _ _ _ _ heq => exact heq ▸ ⟨absurd rfl, absurd rfl, absurd rfl⟩
  | entropy _ _ _ _ heq => exact heq ▸ ⟨absurd rfl, absurd rfl, absurd rfl⟩
  | reset hm heq =>
    subst heq
    exact ⟨fun _ => .inr (by rw [hm]; rfl), absurd rfl, fun _ => .inr (.inr (by rw [hm]; rfl))⟩
  | powerOn hm _ =>
    exact ⟨fun _ => .inr (by rw [hm]; rfl), fun _ => .inr hm, fun _ => .inr (.inr (by rw [hm]; rfl))⟩

/-! ## The step of the host (R91) -/

theorem pollGoesOn_iff {mask value : Word} {r : Option Reply} :
    State.pollGoesOn mask value r = true ↔ ∃ w, r = some (.data w) ∧ w &&& mask ≠ value := by
  unfold State.pollGoesOn
  split <;> simp

section
variable {s t : State} (h : step s = .next t)
include h

theorem step_of_host (hm : s.mover = .host) : t = { s with turns := s.turns.tail }.hostTurn := by
  rw [step_eq, hm] at h
  cases h
  rfl

/-- A host that serves no access has only used up its turn. -/
theorem step_host_unserved (hm : s.mover = .host) (hs : s.served = none) : t = { s with turns := s.turns.tail } := by
  rw [step_of_host h hm]
  rcases served_eq_none.1 hs with hne | hf | hh
  · exact absurd hm hne
  · exact State.hostTurn_faulted hf
  · exact State.hostTurn_nil hh

theorem step_serves_read {off : Offset} {size : Nat} (hs : s.served = some (.read off size)) :
    s.host = .read off size :: t.host ∧
    t = { s.busRead off size with host := s.host.tail, turns := s.turns.tail } := by
  obtain ⟨hm, hf, rest, hh⟩ := served_eq_some.1 hs
  have ht : t = { s.busRead off size with host := s.host.tail, turns := s.turns.tail } := by
    rw [step_of_host h hm, State.hostTurn_read (by exact hf) (by exact hh), hh]
    exact State.busRead_outside off size s rest s.turns.tail
  exact ⟨by rw [ht, hh]; rfl, ht⟩

theorem step_serves_write {off : Offset} {size : Nat} {v : Word} (hs : s.served = some (.write off size v)) :
    s.host = .write off size v :: t.host ∧
    t = { s.busWrite off size v with host := s.host.tail, turns := s.turns.tail } := by
  obtain ⟨hm, hf, rest, hh⟩ := served_eq_some.1 hs
  have ht : t = { s.busWrite off size v with host := s.host.tail, turns := s.turns.tail } := by
    rw [step_of_host h hm, State.hostTurn_write (by exact hf) (by exact hh), hh]
    exact State.busWrite_outside off size v s rest s.turns.tail
  exact ⟨by rw [ht, hh]; rfl, ht⟩

/-- A POLL is a read that stays first while it goes on (R106). -/
theorem step_serves_poll {off : Offset} {mask value : Word} (hs : s.served = some (.poll off mask value)) :
    t = { s.busRead off 32 with
      host := if State.pollGoesOn mask value (s.busRead off 32).reply then s.host else s.host.tail
      turns := s.turns.tail } := by
  obtain ⟨hm, hf, rest, hh⟩ := served_eq_some.1 hs
  have hread : { s with turns := s.turns.tail }.busRead off 32 =
      { s.busRead off 32 with host := s.host, turns := s.turns.tail } :=
    State.busRead_outside off 32 s s.host s.turns.tail
  rw [step_of_host h hm, State.hostTurn_poll (by exact hf) (by exact hh), hread, hh]
  cases State.pollGoesOn mask value (s.busRead off 32).reply <;> rfl

end

/-- Settles O46: a step of the host is its turn, kind of access by kind of access; no other step touches what waits
or the reply. -/
theorem accessesAreServedInPortOrder : Obligations.AccessesAreServedInPortOrder := by
  intro s t h
  refine ⟨fun hm hf => if_pos ⟨hm, hf⟩, step_unserved h, fun hs hm => step_host_unserved h hm hs,
    fun _ _ => step_serves_read h, fun _ _ _ => step_serves_write h, fun off mask value hs => ?_⟩
  obtain ⟨_, _, rest, hh⟩ := served_eq_some.1 hs
  have ht := step_serves_poll h hs
  rw [← pollGoesOn_iff, show t.reply = (s.busRead off 32).reply by rw [ht]]
  refine ⟨by rw [ht], fun hgo => ?_, fun hstop => ?_⟩
  · rw [ht]
    exact if_pos hgo
  · rw [ht, if_neg hstop, hh, List.tail_cons]

/-! ## The host program's fault (R81) -/

/-- The access is refused where the port serves it. -/
def HostOp.Refused (bufBytes : Nat) : HostOp → Prop
  | .read off size => BadAccess bufBytes off size
  | .write off size _ => BadAccess bufBytes off size
  | .poll off _ _ => BadAccess bufBytes off 32

namespace State

theorem hostFaulted_busRead_iff {s : State} (hc : s.cfg.wf = true) (off : Offset) (size : Nat) :
    (s.busRead off size).hostFaulted = true ↔ BadAccess s.cfg.bufBytes off size := by
  rw [hostFaulted_busRead, Option.isNone_iff_eq_none, decodeAccess_eq_none_iff (bufBytes_bounds hc).2.1]

theorem hostFaulted_busWrite_iff {s : State} (hc : s.cfg.wf = true) (off : Offset) (size : Nat) (v : Word) :
    (s.busWrite off size v).hostFaulted = true ↔ BadAccess s.cfg.bufBytes off size := by
  rw [hostFaulted_busWrite, Option.isNone_iff_eq_none, decodeAccess_eq_none_iff (bufBytes_bounds hc).2.1]

end State

section
variable {s t : State} (hc : s.cfg.wf = true) (h : step s = .next t)
include hc h

/-- The access served faults the host's program exactly where it is refused. -/
theorem hostFaulted_of_served {op : HostOp} (hs : s.served = some op) :
    t.hostFaulted = true ↔ op.Refused s.cfg.bufBytes := by
  cases op with
  | read off size =>
    rw [(step_serves_read h hs).2]
    exact State.hostFaulted_busRead_iff hc off size
  | write off size v =>
    rw [(step_serves_write h hs).2]
    exact State.hostFaulted_busWrite_iff hc off size v
  | poll off mask value =>
    rw [step_serves_poll h hs]
    exact State.hostFaulted_busRead_iff hc off 32

/-- A refused access leaves the ERROR reply, and is off the list. -/
theorem step_serves_refused {op : HostOp} (hs : s.served = some op) (hr : op.Refused s.cfg.bufBytes) :
    t = { s with turns := s.turns.tail, host := s.host.tail, reply := some .error } := by
  have hb : s.cfg.bufBytes ≤ 4096 := (bufBytes_bounds hc).2.1
  cases op with
  | read off size =>
    rw [(step_serves_read h hs).2, State.busRead_of_none (decodeAccess_none_of_bad hb hr)]
  | write off size v =>
    rw [(step_serves_write h hs).2, State.busWrite_of_none (decodeAccess_none_of_bad hb hr)]
  | poll off mask value =>
    rw [step_serves_poll h hs, State.busRead_of_none (decodeAccess_none_of_bad hb hr)]
    rfl

/-- A program that has not faulted faults in the step that serves it a refused access. -/
theorem hostFaulted_iff_refused (hf : s.hostFaulted = false) :
    t.hostFaulted = true ↔ ∃ op, s.served = some op ∧ op.Refused s.cfg.bufBytes := by
  cases hs : s.served with
  | none =>
    have hkept : t.hostFaulted = s.hostFaulted := by
      rw [State.hostFaulted, (step_unserved h hs).2, State.hostFaulted]
    simp [hkept, hf]
  | some op => simp [hostFaulted_of_served hc h hs]

end

/-! ## The core does not see the reply (R81) -/

theorem conclude_reply {result : Except ErrCode (List Byte)} {s t : State} (h : conclude result s = .next t)
    (r : Option Reply) : conclude result { s with reply := r } = .next { t with reply := r } := by
  cases result with
  | ok out =>
    cases h
    rfl
  | error code =>
    cases h
    rfl

theorem withDraw_reply {n : Nat} {short : ErrCode} {use : List Byte → List Byte} {s t : State}
    (h : withDraw n short use s = .next t) (r : Option Reply) :
    withDraw n short use { s with reply := r } = .next { t with reply := r } := by
  obtain ⟨e, he⟩ : ∃ e, s.ent = e := ⟨_, rfl⟩
  cases e with
  | none =>
    cases (withDraw_none he n short use).symm.trans h
    exact withDraw_none (by exact he) n short use
  | pending m got =>
    cases (withDraw_pending he n short use).symm.trans h
    exact withDraw_pending (by exact he) n short use
  | answered a =>
    by_cases ha : a.length < n
    · cases (withDraw_short he ha short use).symm.trans h
      exact withDraw_short (by exact he) ha short use
    · cases (withDraw_full he (Nat.not_lt.1 ha) short use).symm.trans h
      exact withDraw_full (by exact he) (Nat.not_lt.1 ha) short use

theorem exec_reply {i : Instr} {s t : State} (h : exec i s = .next t) (r : Option Reply) :
    exec i { s with reply := r } = .next { t with reply := r } := by
  rw [exec_eq] at h ⊢
  cases hd : drawOf i s.cfg s.snap with
  | none =>
    rw [hd] at h
    exact conclude_reply h r
  | some draw =>
    rw [hd] at h
    exact withDraw_reply h r

theorem coreTurn_reply {s t : State} (h : coreTurn s = .next t) (r : Option Reply) :
    coreTurn { s with reply := r } = .next { t with reply := r } := by
  rcases coreTurn_cases h with ⟨hb, rfl⟩ | ⟨hb, ⟨e, hd⟩, rfl⟩ | ⟨hb, i, hd, he⟩
  · exact coreTurn_not_busy hb
  · exact coreTurn_illegal hb hd
  · rw [coreTurn_ok (by exact hb) (by exact hd)]
    exact exec_reply he r

/-- A step that is not the host's goes on as if the reply were another. -/
theorem step_reply {s t : State} (h : step s = .next t) (hm : s.mover ≠ .host) (r : Option Reply) :
    step { s with reply := r } = .next { t with reply := r } := by
  have hstep : step { s with reply := r } =
      takeTurn s.mover { s with turns := s.turns.tail, reply := r } := step_eq _
  rw [hstep]
  rcases step_cases h with ⟨hm', _⟩ | ⟨hm', hcore⟩ | ⟨_, _, _, hm', rfl⟩ | ⟨hm', rfl⟩ | ⟨hm', rfl⟩
  · exact absurd hm' hm
  · rw [hm']
    exact coreTurn_reply hcore r
  all_goals
    rw [hm']
    rfl

/-- Settles O57: the fault is the refusal of the access served, and it is the reply alone, which no step but the
host's looks at. -/
theorem busErrorFaultsTheHostProgram : Obligations.BusErrorFaultsTheHostProgram := by
  intro s t hc h bad
  refine ⟨State.hostFaulted_iff, fun hf => ?_, fun hf ht => ?_, fun hf => ?_, step_reply h⟩
  · rw [hostFaulted_iff_refused hc h hf]
    constructor
    · rintro ⟨op, hs, hr⟩
      cases op with
      | read off size => exact .inl ⟨off, size, hs, hr⟩
      | write off size v => exact .inr (.inl ⟨off, size, v, hs, hr⟩)
      | poll off mask value => exact .inr (.inr ⟨off, mask, value, hs, hr⟩)
    · rintro (⟨off, size, hs, hr⟩ | ⟨off, size, v, hs, hr⟩ | ⟨off, mask, value, hs, hr⟩) <;> exact ⟨_, hs, hr⟩
  · obtain ⟨op, hs, hr⟩ := (hostFaulted_iff_refused hc h hf).1 ht
    exact step_serves_refused hc h hs hr
  · have hs : s.served = none := served_eq_none.2 (.inr (.inl hf))
    obtain ⟨hhost, hreply⟩ := step_unserved h hs
    exact ⟨by rw [State.hostFaulted, hreply]; exact hf, hhost, fun hm => step_host_unserved h hm hs⟩

end Sys2Proof.Machine
end

section
/-! SUPPORT. The command encoding: the decoder is the inverse of the encoder, and no word outside R101 decodes
(30_encoding.md R100 to R103). -/

namespace Sys2Proof

/-- RSV is zero, so the word of a command is its opcode as a number (R100). -/
@[simp] theorem toNat_encode (i : Instr) : (encode i).toNat = (opcodeOf i).toNat :=
  (BitVec.toNat_append 0#24 (opcodeOf i)).trans (by simp)

theorem decode_eq_ok_iff_encode {w : Word} {i : Instr} : decode w = .ok i ↔ encode i = w := by
  rw [decode_iff, ← BitVec.toNat_inj, toNat_encode, eq_comm]

theorem decode_encode (i : Instr) : decode (encode i) = .ok i := decode_eq_ok_iff_encode.2 rfl

theorem opcodeOf_bounds (i : Instr) : 1 ≤ (opcodeOf i).toNat ∧ (opcodeOf i).toNat ≤ 5 := by
  cases i <;> decide

/-- A word with a nonzero RSV, with OPC 0x00 or with OPC 0x06 to 0xFF is illegal (R102, R103). -/
theorem decode_illegal {w : Word} (h : w.toNat / 256 ≠ 0 ∨ w.toNat % 256 = 0 ∨ 6 ≤ w.toNat % 256) :
    ∃ e, decode w = .error e := by
  cases hd : decode w with
  | error e => exact ⟨e, rfl⟩
  | ok i =>
    have hw : w.toNat = (opcodeOf i).toNat := (decode_iff w i).1 hd
    have hi := opcodeOf_bounds i
    omega

end Sys2Proof

namespace Sys2Proof.Machine

/-! ## The default turn (R24) -/

/-- A BUSY core that does not wait for entropy moves where no turn is arranged. -/
theorem State.defaultTurn_core {s : State} (hb : s.fsm = .busy) (he : ∀ n got, s.ent ≠ .pending n got) :
    s.defaultTurn = .core := by
  have hreq : ¬ s.ent.req = true := fun h =>
    let ⟨n, got, hp⟩ := Ent.req_iff.1 h
    he n got hp
  simp [State.defaultTurn, State.coreEnabled, State.busy, hb, hreq]

theorem step_of_no_turn {s : State} (h : s.turns = []) : step s = takeTurn s.defaultTurn s := by
  simp only [step, h]

/-! ## The statements -/

/-- Settles O3: a word decodes to a command exactly where it is the command's encoding. -/
theorem encodeAndDecodeAgree : Obligations.EncodeAndDecodeAgree := by
  intro i w _
  refine ⟨decode_encode i, decode_eq_ok_iff_encode.1, ?_⟩
  rintro e he j rfl
  cases (decode_encode j).symm.trans he

/-- Settles O2: the one word that decodes to a command is its encoding, which is the match word of its row. -/
theorem decodeIsTheOpcodeMap : Obligations.DecodeIsTheOpcodeMap := by
  intro w i
  rw [decode_eq_ok_iff_encode, eq_comm]
  cases i <;> exact Iff.rfl

/-- Settles O4: an illegal word does not decode, and then the core's turn is the error completion. -/
theorem illegalWordsCompleteWithIllegalCommand : Obligations.IllegalWordsCompleteWithIllegalCommand := by
  intro s hb hw
  obtain ⟨e, hd⟩ := decode_illegal hw
  exact ⟨_, coreTurn_illegal hb hd, completed_finish .idle .illegalCommand [] s⟩

/-- Settles O1: each word is the match word of its row in the opcode map. -/
theorem commandWordsDecode : Obligations.CommandWordsDecode :=
  ⟨(decodeIsTheOpcodeMap _ .pad).2 rfl, (decodeIsTheOpcodeMap _ .unpad).2 rfl,
    (decodeIsTheOpcodeMap _ .encrypt).2 rfl, (decodeIsTheOpcodeMap _ .decrypt).2 rfl,
    (decodeIsTheOpcodeMap _ .randhex).2 rfl, by decide, by decide⟩

/-- Settles O5: the turn is the core's, arranged or by default, and a BUSY core's turn is exec of the command
decoded. -/
theorem stepRunsTheDecodedCommand : Obligations.StepRunsTheDecodedCommand := by
  intro s i hb hd
  refine ⟨fun rest ht => step_core ht hb hd, fun ht he => ?_⟩
  rw [step_of_no_turn ht, State.defaultTurn_core hb he]
  exact coreTurn_ok hb hd

end Sys2Proof.Machine
end

section
/-! SUPPORT. PAD and UNPAD: each check of theirs as an equation on the result, the laws of a padded string, and what a
command without a draw completes with (40_padding.md R120 to R132). -/

namespace Sys2Proof.Machine

/-! ## A command without a draw completes with its direct result (R196, R197) -/

section
variable {i : Instr} {s t : State} {out : List Byte} (hd : drawOf i s.cfg s.snap = none) (h : exec i s = .next t)
include hd h

theorem completed_of_ok (hr : directResult i s.cfg s.snap = .ok out) : Completed .idle .success out s t := by
  rw [exec_eq, hd] at h
  cases (conclude_ok hr s).symm.trans h
  exact completed_finish .idle .success out s

theorem completed_of_error {code : ErrCode} (hr : directResult i s.cfg s.snap = .error code) :
    Completed .idle code [] s t := by
  rw [exec_eq, hd] at h
  cases (conclude_error hr s).symm.trans h
  exact completed_finish .idle code [] s

/-- No failing check reports the code of success, so a success has a result string. -/
theorem exists_result_of_success (he : t.err = .success) :
    ∃ out, directResult i s.cfg s.snap = .ok out ∧ Completed .idle .success out s t := by
  cases hr : directResult i s.cfg s.snap with
  | ok out => exact ⟨out, rfl, completed_of_ok hd h hr⟩
  | error code =>
    have hcode : t.err = code := (completed_of_error hd h hr).err
    exact absurd (hcode.symm.trans he) (errorCodes_not_fatal (directResult_error hr)).2

end

section
variable {after : Fsm} {code : ErrCode} {out : List Byte} {s t : State} (h : Completed after code out s t)
  (hlen : out.length ≤ 4096)
include h hlen

/-- A result string that fits OBUF has its length in DST_LEN. -/
theorem Completed.toNat_dstLen : t.dstLen.toNat = out.length := by
  rw [h.dstLen, BitVec.toNat_ofNat, Nat.mod_eq_of_lt (by omega)]

/-- The host reads the result string in the first DST_LEN bytes of OBUF. -/
theorem Completed.bytes_obuf : t.obuf.bytes t.dstLen.toNat = out := by
  rw [h.toNat_dstLen hlen]
  refine List.ext_getElem (by simp) fun i _ hi => ?_
  rw [Buffer.getElem_bytes, h.result i hi]

/-- A command that is given what is in OBUF, DST_LEN bytes of it, reads the result string. -/
theorem Completed.read_back {snap : Snapshot} (hsnap : snap.len = t.dstLen)
    (hin : snap.input = t.obuf.bytes t.dstLen.toNat) : snap.input = out ∧ snap.whole := by
  rw [h.bytes_obuf hlen] at hin
  exact ⟨hin, by rw [Snapshot.whole, hin, Snapshot.length, hsnap, h.toNat_dstLen hlen]⟩

end

theorem length_directResult_le_4096 {i : Instr} {cfg : Config.Params} {snap : Snapshot} {out : List Byte}
    (hc : cfg.wf = true) (hr : directResult i cfg snap = .ok out) : out.length ≤ 4096 :=
  (length_directResult_le hr).trans (bufBytes_bounds hc).2.1

/-! ## The laws of a padded string (R123, R124) -/

@[simp] theorem length_padded (b : Nat) (p : List Byte) :
    (padded b p).length = p.length + padLen p.length b := by
  rw [padded, List.length_append, length_padBytes]

@[simp] theorem take_padded (b : Nat) (p : List Byte) : (padded b p).take p.length = p := List.take_left

theorem endsInPadding_padded {b : Nat} (hb : 0 < b) (h255 : b ≤ 255) (p : List Byte) :
    EndsInPadding (padded b p) (padLen p.length b) :=
  endsInPadding_append (padLen_pos hb _) ((padLen_le _ _).trans h255)

/-- A count of at most the block size is the one PAD chooses (R132 (b)). -/
theorem padded_take_of_endsInPadding {b n : Nat} {d : List Byte} (he : EndsInPadding d n) (hnb : n ≤ b)
    (hm : d.length % b = 0) : padded b (d.take (d.length - n)) = d := by
  have ⟨hn, hnd, _, _⟩ := he
  have hlen : (d.take (d.length - n)).length = d.length - n := by simp
  rw [padded, hlen, padLen_sub hn hnb hnd hm]
  exact he.split.symm

/-- A valid padding byte by byte: its count is the last byte (R130). -/
theorem endsInPadding_iff {d : List Byte} {n : Nat} :
    EndsInPadding d n ↔ (d.getD (d.length - 1) 0).toNat = n ∧ n ≠ 0 ∧ n ≤ d.length ∧
      ∀ i, d.length - n ≤ i → i < d.length → (d.getD i 0).toNat = n := by
  rw [← getLastD_eq]
  constructor
  · intro h
    have ⟨h1, h2, h255, hrep⟩ := h
    exact ⟨h.last, by omega, h2, (drop_eq_replicate_iff h2 h255).1 hrep⟩
  · rintro ⟨hlast, h0, h2, hall⟩
    have h255 : n ≤ 255 := by
      have := (d.getLastD 0).isLt
      omega
    exact ⟨by omega, h2, h255, (drop_eq_replicate_iff h2 h255).2 hall⟩

/-! ## The checks of PAD and UNPAD in order (R122, R130) -/

section
variable {cfg : Config.Params} {snap : Snapshot}

theorem not_legalBlockSize_iff (b : Int) : (!legalBlockSize b) = true ↔ b ≤ 0 ∨ 255 < b := by
  rw [Bool.not_eq_true', ← Bool.not_eq_true, legalBlockSize_iff]
  omega

theorem padResult_of_long (hl : cfg.bufBytes < snap.length) : padResult cfg snap = .error .lengthOutOfRange :=
  if_pos hl

theorem unpadResult_of_long (hl : cfg.bufBytes < snap.length) : unpadResult cfg snap = .error .lengthOutOfRange :=
  if_pos hl

section
variable (hl : snap.length ≤ cfg.bufBytes)
include hl

theorem padResult_of_illegal (hb : snap.bs.toInt ≤ 0 ∨ 255 < snap.bs.toInt) :
    padResult cfg snap = .error .invalidBlockSize := by
  rw [padResult, Snapshot.blockSize, if_neg (Nat.not_lt.2 hl), if_pos ((not_legalBlockSize_iff _).2 hb)]

theorem unpadResult_of_illegal (hb : snap.bs.toInt ≤ 0 ∨ 255 < snap.bs.toInt) :
    unpadResult cfg snap = .error .invalidBlockSize := by
  rw [unpadResult, Snapshot.blockSize, if_neg (Nat.not_lt.2 hl), if_pos ((not_legalBlockSize_iff _).2 hb)]

variable (hb : ¬ (snap.bs.toInt ≤ 0 ∨ 255 < snap.bs.toInt))
include hb

theorem padResult_of_no_room (hfit : cfg.bufBytes < snap.length + padLen snap.length snap.bs.toInt.toNat) :
    padResult cfg snap = .error .lengthOutOfRange := by
  rw [padResult, Snapshot.blockSize, if_neg (Nat.not_lt.2 hl), if_neg (by rwa [not_legalBlockSize_iff]), if_pos hfit]

/-- UNPAD rejects a length that is no multiple of the block size, and a string without a valid padding, the empty one
included. -/
theorem unpadResult_of_no_padding (hw : snap.whole)
    (h : snap.length % snap.bs.toInt.toNat ≠ 0 ∨ ∀ n, ¬ EndsInPadding snap.input n) :
    unpadResult cfg snap = .error .invalidPadding := by
  rw [unpadResult, Snapshot.blockSize, if_neg (Nat.not_lt.2 hl), if_neg (by rwa [not_legalBlockSize_iff])]
  by_cases hlen : snap.length = 0 ∨ snap.length % snap.bs.toInt.toNat ≠ 0
  · exact if_pos hlen
  · obtain ⟨-, hmul⟩ := not_or.1 hlen
    rw [if_neg hlen, Snapshot.data_eq hw, stripPadding_error (h.resolve_left hmul)]

end

/-- PAD of an input that is all there and fits with its padding. -/
theorem padResult_eq_padded (hw : snap.whole) (h1 : 0 < snap.bs.toInt) (h255 : snap.bs.toInt ≤ 255)
    (hfit : snap.length + padLen snap.length snap.bs.toInt.toNat ≤ cfg.bufBytes) :
    padResult cfg snap = .ok (padded snap.bs.toInt.toNat snap.input) := by
  rw [padResult_ok h1 h255 hfit, Snapshot.data_eq hw, padded, hw]

section
variable (hw : snap.whole) (h1 : 0 < snap.bs.toInt) (h255 : snap.bs.toInt ≤ 255)
include hw h1 h255

/-- UNPAD of a padded string: it is whole blocks and ends in a valid padding (R132 (a)). -/
theorem unpadResult_of_padded {p : List Byte} (hl : snap.input.length ≤ cfg.bufBytes)
    (hin : snap.input = padded snap.bs.toInt.toNat p) : unpadResult cfg snap = .ok p := by
  have hb : 0 < snap.bs.toInt.toNat := by omega
  have hlen : snap.length = p.length + padLen p.length snap.bs.toInt.toNat := by rw [← hw, hin, length_padded]
  have hmul : snap.length % snap.bs.toInt.toNat = 0 := by rw [hlen, add_padLen_mod hb]
  have hpad : EndsInPadding snap.input (padLen p.length snap.bs.toInt.toNat) :=
    hin ▸ endsInPadding_padded hb (by omega) p
  rw [unpadResult_ok hw (hw ▸ hl) h1 h255 hmul hpad, hlen, Nat.add_sub_cancel, hin, take_padded]

/-- PAD of what is in front of a padding of at most a block adds that padding (R132 (b)). -/
theorem padResult_of_unpadded {d : List Byte} {n : Nat} (hl : d.length ≤ cfg.bufBytes) (he : EndsInPadding d n)
    (hnb : n ≤ snap.bs.toInt.toNat) (hm : d.length % snap.bs.toInt.toNat = 0)
    (hin : snap.input = d.take (d.length - n)) : padResult cfg snap = .ok d := by
  have hback : padded snap.bs.toInt.toNat snap.input = d := hin ▸ padded_take_of_endsInPadding he hnb hm
  have hfit : snap.length + padLen snap.length snap.bs.toInt.toNat ≤ cfg.bufBytes := by
    rw [← hw, ← length_padded, hback]
    exact hl
  rw [padResult_eq_padded hw h1 h255 hfit, hback]

end

end

/-! ## The statements -/

/-- Settles O18: one equation on the result for each outcome of the checks. -/
theorem padRunsAsSpecified : Obligations.PadRunsAsSpecified := by
  intro s
  obtain ⟨t, ht⟩ := exec_next .pad s
  refine ⟨t, ht, ?_⟩
  intro len b n
  split_ifs with hlong hb hfit
  · exact completed_of_error rfl ht (padResult_of_long hlong)
  · exact completed_of_error rfl ht (padResult_of_illegal (Nat.not_lt.1 hlong) hb)
  · exact completed_of_error rfl ht (padResult_of_no_room (Nat.not_lt.1 hlong) hb hfit)
  · exact completed_of_ok rfl ht (padResult_ok (by omega) (by omega) (Nat.not_lt.1 hfit))

/-- Settles O19: the result is the padded input, whose laws are those of the pad length. -/
theorem padOutputLaws : Obligations.PadOutputLaws := by
  intro s hc hw len b h1 h255 hfit
  have hin : s.snap.input.length = len := hw
  have hb : 0 < b := by omega
  have hpos : 1 ≤ padLen len b := padLen_pos hb len
  have hle : padLen len b ≤ b := padLen_le len b
  have hout : (padded b s.snap.input).length = len + padLen len b := by rw [length_padded, hin]
  have hr : padResult s.cfg s.snap = .ok (padded b s.snap.input) := padResult_eq_padded hw h1 h255 hfit
  obtain ⟨t, ht⟩ := exec_next .pad s
  have hcomp := completed_of_ok rfl ht hr
  refine ⟨t, _, ht, hcomp, hcomp.toNat_dstLen (length_directResult_le_4096 (i := .pad) hc hr), hout, ?_, by omega,
    by omega, ?_, fun hm => ?_, padLen len b, ?_, hle⟩
  · rw [hout, add_padLen_mod hb]
  · rw [← hin, take_padded]
  · rw [hout, padLen, hm, Nat.sub_zero]
  · rw [← hin]
    exact endsInPadding_padded hb (by omega) _

/-- Settles O20: the count and the byte check are whether the input ends in a valid padding (`endsInPadding_iff`). -/
theorem unpadRunsAsSpecified : Obligations.UnpadRunsAsSpecified := by
  intro s hwhole
  obtain ⟨t, ht⟩ := exec_next .unpad s
  refine ⟨t, ht, ?_⟩
  intro len b d n
  split_ifs with hlong hb hlen hn
  · exact completed_of_error rfl ht (unpadResult_of_long hlong)
  · exact completed_of_error rfl ht (unpadResult_of_illegal (Nat.not_lt.1 hlong) hb)
  all_goals
    have hw : d.length = len := hwhole (Nat.not_lt.1 hlong)
    have hreject (h : len % b.toNat ≠ 0 ∨ ∀ m, ¬ EndsInPadding d m) : Completed .idle .invalidPadding [] s t :=
      completed_of_error rfl ht (unpadResult_of_no_padding (Nat.not_lt.1 hlong) hb hw h)
  · refine hreject (hlen.symm.imp_right fun h0 m he => ?_)
    obtain ⟨h1, hle, -, -⟩ := he
    omega
  · refine hreject (.inr fun m he => ?_)
    obtain ⟨hlast, h0, hle, -⟩ := endsInPadding_iff.1 he
    rw [hw] at hlast hle
    omega
  · refine ⟨fun ⟨i, hi, hilen, hne⟩ => hreject (.inr fun m he => ?_), fun hall => ?_⟩
    · obtain ⟨hlast, -, -, hbytes⟩ := endsInPadding_iff.1 he
      rw [hw] at hlast hbytes
      obtain rfl : n = m := hlast
      exact hne (hbytes i hi hilen)
    · have he : EndsInPadding d n := by
        rw [endsInPadding_iff, hw]
        exact ⟨rfl, by omega, by omega, hall⟩
      exact completed_of_ok rfl ht
        (unpadResult_ok hw (Nat.not_lt.1 hlong) (by omega) (by omega) (not_not.1 (not_or.1 hlen).2) he)

/-- Settles O21: UNPAD accepts exactly where the input ends in a valid padding, whatever its count. -/
theorem unpadAcceptsCountsUpToTheLength : Obligations.UnpadAcceptsCountsUpToTheLength := by
  intro s hw hl h1 h255 hm
  obtain ⟨t, ht⟩ := exec_next .unpad s
  refine ⟨t, ht, fun n he => ?_, fun hno => ?_⟩
  · exact completed_of_ok rfl ht (unpadResult_ok hw hl h1 h255 hm he)
  · exact completed_of_error rfl ht (unpadResult_of_no_padding hl (by omega) hw (.inr hno))

/-- Settles O22: UNPAD reads the padded input, which it undoes (`unpadResult_of_padded`). -/
theorem unpadUndoesPad : Obligations.UnpadUndoesPad := by
  intro s t u hc hw ht he hcfg hbs hlen hin
  obtain ⟨out, hr, hcomp⟩ := exists_result_of_success rfl ht he
  obtain ⟨h1, h255, hfit, -⟩ := padResult_inv hr
  cases hr.symm.trans (padResult_eq_padded hw h1 h255 hfit)
  obtain ⟨huin, huw⟩ := hcomp.read_back (length_directResult_le_4096 hc hr) hlen hin
  have hul : u.snap.input.length ≤ u.cfg.bufBytes := by
    rw [huin, hcfg]
    exact length_directResult_le hr
  rw [← hbs] at h1 h255 huin
  obtain ⟨v, hv⟩ := exec_next .unpad u
  exact ⟨v, hv, completed_of_ok rfl hv (unpadResult_of_padded huw h1 h255 hul huin)⟩

/-- Settles O23: PAD adds at most a block, and it adds the count removed where that is at most a block
(`padResult_of_unpadded`). -/
theorem padUndoesUnpadUpToTheBlockSize : Obligations.PadUndoesUnpadUpToTheBlockSize := by
  intro s t u v hc hw ht he hcfg hbs hlen hin hv
  obtain ⟨q, hr, hcomp⟩ := exists_result_of_success rfl ht he
  obtain ⟨h1, h255, hl, hmul, n, hpad, rfl⟩ := unpadResult_inv hr
  obtain ⟨huin, huw⟩ := hcomp.read_back (length_directResult_le_4096 hc hr) hlen hin
  have hdst := hcomp.toNat_dstLen (length_directResult_le_4096 hc hr)
  rw [Snapshot.data_eq hw] at hpad huin hdst
  rw [← hbs] at h1 h255 hmul ⊢
  have hd : s.snap.input.length = s.snap.len.toNat := hw
  have ⟨hn, hnd, _, _⟩ := hpad
  have hcount : s.snap.len.toNat - t.dstLen.toNat = n := by
    rw [hdst, List.length_take]
    omega
  refine ⟨by omega, ?_⟩
  rw [hcount]
  constructor
  · rintro ⟨hve, hback⟩
    obtain ⟨out, hur, hucomp⟩ := exists_result_of_success rfl hv hve
    obtain ⟨-, -, hfit, -⟩ := padResult_inv hur
    cases hur.symm.trans (padResult_eq_padded huw h1 h255 hfit)
    rw [hucomp.bytes_obuf (length_directResult_le_4096 (hcfg ▸ hc) hur)] at hback
    have hgrow := congrArg List.length hback
    have hle := padLen_le u.snap.input.length u.snap.bs.toInt.toNat
    rw [length_padded, huin, List.length_take] at hgrow
    rw [huin, List.length_take] at hle
    omega
  · intro hnb
    have hur : padResult u.cfg u.snap = .ok s.snap.input :=
      padResult_of_unpadded huw h1 h255 (by rw [hcfg, hw]; exact hl) hpad hnb (hw ▸ hmul) huin
    have hucomp := completed_of_ok rfl hv hur
    exact ⟨hucomp.err, hucomp.bytes_obuf (length_directResult_le_4096 (i := .pad) (hcfg ▸ hc) hur)⟩

end Sys2Proof.Machine
end

section
/-! SUPPORT. ENCRYPT and DECRYPT: CBC on byte strings, what a change of a block does, each check of theirs as an equation on
the result, and the blob that the one writes and the other reads (41_cbc.md R140 to R154). -/

namespace Sys2Proof.Machine

/-! ## The two directions of CBC undo each other (R142) -/

section
variable {cfg : Config.Params} (hc : cfg.wf = true) (k : List Byte) {iv x : List Byte}
  (hiv : iv.length = cfg.blockBytes) (hx : x.length % cfg.blockBytes = 0)
include hc hiv hx

/-- An encryption cut into blocks is the chain it was joined from. -/
theorem blocks_cbcEncryptBytes : blocks cfg.blockBytes (x.length / cfg.blockBytes) (cbcEncryptBytes cfg k iv x) =
    cbcEncrypt (cfg.enc k) iv (blocks cfg.blockBytes (x.length / cfg.blockBytes) x) := by
  have hmem := length_of_mem_cbcEncrypt (keepsLength_enc hc k) hiv
    fun _ => length_of_mem_blocks (whole_blocks hx)
  simpa [cbcEncryptBytes] using blocks_flatten hmem

/-- A decryption cut into blocks is the chain it was joined from. -/
theorem blocks_cbcDecryptBytes : blocks cfg.blockBytes (x.length / cfg.blockBytes) (cbcDecryptBytes cfg k iv x) =
    cbcDecrypt (cfg.dec k) iv (blocks cfg.blockBytes (x.length / cfg.blockBytes) x) := by
  have hmem := length_of_mem_cbcDecrypt (keepsLength_dec hc k) hiv
    fun _ => length_of_mem_blocks (whole_blocks hx)
  simpa [cbcDecryptBytes] using blocks_flatten hmem

theorem cbcDecryptBytes_cbcEncryptBytes : cbcDecryptBytes cfg k iv (cbcEncryptBytes cfg k iv x) = x := by
  have hw := whole_blocks hx
  rw [cbcDecryptBytes, length_cbcEncryptBytes hc k hiv hx, blocks_cbcEncryptBytes hc k hiv hx,
    cbcDecrypt_cbcEncrypt (Config.Params.dec_enc hc k) (keepsLength_enc hc k) hiv fun _ => length_of_mem_blocks hw,
    flatten_blocks hw]

theorem cbcEncryptBytes_cbcDecryptBytes : cbcEncryptBytes cfg k iv (cbcDecryptBytes cfg k iv x) = x := by
  have hw := whole_blocks hx
  rw [cbcEncryptBytes, length_cbcDecryptBytes hc k hiv hx, blocks_cbcDecryptBytes hc k hiv hx,
    cbcEncrypt_cbcDecrypt (Config.Params.enc_dec hc k) (keepsLength_dec hc k) hiv fun _ => length_of_mem_blocks hw,
    flatten_blocks hw]

end

/-! ## A changed ciphertext block (R153) -/

section
variable (dec : List Byte → List Byte) (iv c : List Byte) (cs : List (List Byte)) {i : Nat}

/-- The block after the changed one is XORed with the new block in place of the old one. -/
theorem getElem?_cbcDecrypt_set_succ (hi : i < cs.length) :
    (cbcDecrypt dec iv (cs.set i c))[i + 1]? = cs[i + 1]?.map fun y => xorBytes (dec y) c := by
  simp [getElem?_cbcDecrypt, hi]

/-- A change of block `i` changes what is XORed in at block `i + 1` only. -/
theorem chained_set_ne {j : Nat} (hj : j ≠ i + 1) :
    (if j = 0 then iv else (cs.set i c).getD (j - 1) []) = if j = 0 then iv else cs.getD (j - 1) [] := by
  split_ifs with h0
  · rfl
  · rw [List.getD_eq_getElem?_getD, List.getElem?_set_ne (by omega), List.getD_eq_getElem?_getD]

/-- The changed block itself is decrypted and XORed with what stood before it. -/
theorem getElem?_cbcDecrypt_set_self (hi : i < cs.length) :
    (cbcDecrypt dec iv (cs.set i c))[i]? = some (xorBytes (dec c) (if i = 0 then iv else cs.getD (i - 1) [])) := by
  rw [getElem?_cbcDecrypt, List.getElem?_set_self hi, Option.map_some, chained_set_ne iv c cs (by omega)]

/-- No other block is decrypted from the changed one. -/
theorem getElem?_cbcDecrypt_set_ne {j : Nat} (hj : j ≠ i) (hj' : j ≠ i + 1) :
    (cbcDecrypt dec iv (cs.set i c))[j]? = (cbcDecrypt dec iv cs)[j]? := by
  rw [getElem?_cbcDecrypt, List.getElem?_set_ne hj.symm, chained_set_ne iv c cs hj', getElem?_cbcDecrypt]

end

/-! ## The checks of ENCRYPT and DECRYPT in order (R145, R150) -/

theorem block_le_255 {cfg : Config.Params} (hc : cfg.wf = true) : cfg.blockBytes ≤ 255 := by
  simp only [Config.Params.wf, Config.Params.blockOk, Bool.and_eq_true, decide_eq_true_eq] at hc
  omega

/-- A valid padding behind any string is removed. -/
theorem stripPadding_append_padBytes {p : List Byte} {n : Nat} (hn : 1 ≤ n) (h255 : n ≤ 255) :
    stripPadding (p ++ padBytes n) = .ok p := by
  have he : EndsInPadding (p ++ padBytes n) n := endsInPadding_append hn h255
  rw [stripPadding_ok he, List.length_append, length_padBytes, Nat.add_sub_cancel, List.take_left]

section
variable {cfg : Config.Params} {snap : Snapshot}

theorem not_supportedKey_iff : (!supportedKey cfg snap) = true ↔ snap.keyLength ∉ cfg.keySizes := by
  simp [supportedKey]

theorem encryptDraw_of_long (hl : cfg.bufBytes < snap.length) : encryptDraw cfg snap = .error .lengthOutOfRange :=
  if_pos hl

theorem decryptResult_of_long (hl : cfg.bufBytes < snap.length) : decryptResult cfg snap = .error .lengthOutOfRange :=
  if_pos hl

section
variable (hl : snap.length ≤ cfg.bufBytes)
include hl

theorem encryptDraw_of_unsupported (hk : snap.keyLength ∉ cfg.keySizes) :
    encryptDraw cfg snap = .error .invalidKeySize := by
  rw [encryptDraw, if_neg (Nat.not_lt.2 hl), if_pos (not_supportedKey_iff.2 hk)]

theorem decryptResult_of_unsupported (hk : snap.keyLength ∉ cfg.keySizes) :
    decryptResult cfg snap = .error .invalidKeySize := by
  rw [decryptResult, if_neg (Nat.not_lt.2 hl), if_pos (not_supportedKey_iff.2 hk)]

variable (hk : snap.keyLength ∈ cfg.keySizes)
include hk

theorem encryptDraw_of_no_room (hfit : cfg.bufBytes < blobLength cfg snap.length) :
    encryptDraw cfg snap = .error .lengthOutOfRange := by
  rw [encryptDraw, if_neg (Nat.not_lt.2 hl), if_neg (by rwa [not_supportedKey_iff, not_not]), if_pos hfit]

theorem decryptResult_of_short (h2 : snap.length < 2 * cfg.blockBytes) :
    decryptResult cfg snap = .error .malformedCiphertext := by
  rw [decryptResult, if_neg (Nat.not_lt.2 hl), if_neg (by rwa [not_supportedKey_iff, not_not]), if_pos h2]

variable (h2 : 2 * cfg.blockBytes ≤ snap.length)
include h2

theorem decryptResult_of_ragged (hm : (snap.length - cfg.blockBytes) % cfg.blockBytes ≠ 0) :
    decryptResult cfg snap = .error .invalidCiphertextLength := by
  rw [decryptResult, if_neg (Nat.not_lt.2 hl), if_neg (by rwa [not_supportedKey_iff, not_not]),
    if_neg (Nat.not_lt.2 h2), if_pos hm]

/-- DECRYPT of a well-framed blob whose decryption is a string in front of a valid padding (R150, R151). -/
theorem decryptResult_of_padding (hw : snap.whole) (hm : snap.length % cfg.blockBytes = 0) {p : List Byte} {n : Nat}
    (hn : 1 ≤ n) (h255 : n ≤ 255) (hdec : cbcDecryptBytes cfg snap.selectedKey (snap.input.take cfg.blockBytes)
      (snap.input.drop cfg.blockBytes) = p ++ padBytes n) : decryptResult cfg snap = .ok p := by
  have hrest : (snap.length - cfg.blockBytes) % cfg.blockBytes = 0 := by
    rw [← Nat.mod_eq_sub_mod (by omega), hm]
  rw [decryptResult_strip hw hl hk h2 hrest, hdec, stripPadding_append_padBytes hn h255]

end

end

/-! ## The blob (R145, R146) -/

/-- A blob is whole blocks. -/
theorem blobLength_mod {cfg : Config.Params} (hc : cfg.wf = true) (len : Nat) :
    blobLength cfg len % cfg.blockBytes = 0 := by
  rw [blobLength, Nat.add_assoc, Nat.add_mod_left, add_padLen_mod (block_pos hc)]

/-- A blob holds the IV and at least one block of ciphertext, since a padding is never empty. -/
theorem two_blocks_le_blobLength {cfg : Config.Params} (hc : cfg.wf = true) (len : Nat) :
    2 * cfg.blockBytes ≤ blobLength cfg len := by
  have hpos := padLen_pos (block_pos hc) len
  have hblock : cfg.blockBytes ≤ len + padLen len cfg.blockBytes :=
    Nat.le_of_dvd (by omega) (Nat.dvd_of_mod_eq_zero (add_padLen_mod (block_pos hc) len))
  rw [blobLength]
  omega

section
variable {cfg : Config.Params} {snap : Snapshot} (r : List Byte) (hw : snap.whole)
include hw

theorem encryptBlob_eq_padded : encryptBlob cfg snap r =
    r ++ cbcEncryptBytes cfg snap.selectedKey r (padded cfg.blockBytes snap.input) := by
  rw [encryptBlob, Snapshot.data_eq hw, padded, hw]

/-- A blob is its IV and the blocks of the CBC encryption of the padded input. -/
theorem encryptBlob_spec : ∃ cs, CbcEncryption (cfg.enc snap.selectedKey) cfg.blockBytes r
    (snap.input ++ padBytes (padLen snap.length cfg.blockBytes)) cs ∧ encryptBlob cfg snap r = r ++ cs.flatten := by
  obtain ⟨cs, hcs, hflat⟩ := cbcEncryption_spec snap.selectedKey
  exact ⟨cs, hcs, by rw [encryptBlob, Snapshot.data_eq hw, hflat]⟩

end

/-- DECRYPT of a blob, with the key it was made with, gives the plaintext (R154). -/
theorem decryptResult_of_blob {cfg : Config.Params} {snap made : Snapshot} {r : List Byte} (hc : cfg.wf = true)
    (hmade : made.whole) (hr : r.length = cfg.blockBytes) (hfit : blobLength cfg made.length ≤ cfg.bufBytes)
    (hk : snap.keyLength ∈ cfg.keySizes) (hkey : snap.selectedKey = made.selectedKey) (hw : snap.whole)
    (hin : snap.input = encryptBlob cfg made r) : decryptResult cfg snap = .ok made.input := by
  have hlen : snap.length = blobLength cfg made.length := by rw [← hw, hin, length_encryptBlob hc hmade hr]
  have hmod : (padded cfg.blockBytes made.input).length % cfg.blockBytes = 0 := padded_mod (block_pos hc) rfl
  refine decryptResult_of_padding (hlen ▸ hfit) hk (hlen ▸ two_blocks_le_blobLength hc _) hw
    (hlen ▸ blobLength_mod hc _) (padLen_pos (block_pos hc) made.input.length)
    ((padLen_le _ _).trans (block_le_255 hc)) ?_
  rw [hin, hkey, encryptBlob_eq_padded r hmade, List.take_left' hr, List.drop_left' hr,
    cbcDecryptBytes_cbcEncryptBytes hc _ hr hmod, padded]

/-! ## What ENCRYPT's run ends with (R145) -/

section
variable {s t : State} (h : exec .encrypt s = .next t)
include h

theorem completed_of_encryptDraw_error {code : ErrCode} (hd : encryptDraw s.cfg s.snap = .error code) :
    Completed .idle code [] s t :=
  completed_of_error (by rw [drawOf, hd]; rfl) h (by rw [directResult, hd]; rfl)

variable (hk : s.snap.keyLength ∈ s.cfg.keySizes) (hfit : blobLength s.cfg s.snap.length ≤ s.cfg.bufBytes)
include hk hfit

/-- Where its checks pass, ENCRYPT is its draw. -/
theorem withDraw_of_encrypt :
    withDraw s.cfg.blockBytes .insufficientEntropy (encryptBlob s.cfg s.snap) s = .next t := by
  rw [← h, exec_eq, drawOf, encryptDraw_of hk hfit]
  rfl

theorem completed_of_full_draw {r : List Byte} (he : s.ent = .answered r) (hr : r.length = s.cfg.blockBytes) :
    Completed .idle .success (encryptBlob s.cfg s.snap r) s t := by
  cases (withDraw_full he hr.ge _ _).symm.trans (withDraw_of_encrypt h hk hfit)
  exact completed_finish _ _ _ s

end

/-- A blob that fits OBUF is no longer than the largest OBUF (R12). -/
theorem length_encryptBlob_le_4096 {cfg : Config.Params} {snap : Snapshot} {r : List Byte} (hc : cfg.wf = true)
    (hw : snap.whole) (hr : r.length = cfg.blockBytes) (hfit : blobLength cfg snap.length ≤ cfg.bufBytes) :
    (encryptBlob cfg snap r).length ≤ 4096 := by
  rw [length_encryptBlob hc hw hr]
  exact hfit.trans (bufBytes_bounds hc).2.1

/-! ## The statements -/

/-- Settles O28: each chain of blocks undoes the other by law (a) of R14. -/
theorem cbcDecryptionInvertsEncryption : Obligations.CbcDecryptionInvertsEncryption :=
  fun _ key _ _ hc hiv hx =>
    ⟨cbcDecryptBytes_cbcEncryptBytes hc key hiv hx, cbcEncryptBytes_cbcDecryptBytes hc key hiv hx⟩

/-- Settles O30: a plaintext block is XORed with the ciphertext block before it, so `xorBytes_assoc` carries the change
over. -/
theorem tamperingFlipsThePlaintext : Obligations.TamperingFlipsThePlaintext := by
  intro dec iv delta c cs
  refine ⟨?_, rfl, fun i x hi hx => ?_⟩
  · simp [cbcDecrypt, xorBytes_assoc]
  · refine ⟨?_, getElem?_cbcDecrypt_set_self dec iv _ cs (by omega), fun j => getElem?_cbcDecrypt_set_ne dec iv _ cs⟩
    rw [getElem?_cbcDecrypt_set_succ dec iv _ cs (by omega), getElem?_cbcDecrypt]
    simp [hx, xorBytes_assoc, Function.comp_def]

/-- Settles O24: one equation on the draw for each failing check, and then the three states of the entropy transaction. -/
theorem encryptRunsAsSpecified : Obligations.EncryptRunsAsSpecified := by
  intro s hc hwhole
  obtain ⟨t, ht⟩ := exec_next .encrypt s
  refine ⟨t, ht, ?_⟩
  intro len b n key
  split_ifs with hlong hk hfit
  · exact completed_of_encryptDraw_error ht (encryptDraw_of_long hlong)
  · exact completed_of_encryptDraw_error ht (encryptDraw_of_no_room (Nat.not_lt.1 hlong) hk hfit)
  · have hdraw := withDraw_of_encrypt ht hk (Nat.not_lt.1 hfit)
    split
    next he =>
      cases (withDraw_none he _ _ _).symm.trans hdraw
      rfl
    next he =>
      cases (withDraw_pending he _ _ _).symm.trans hdraw
      rfl
    next r he =>
      refine ⟨fun hr => ?_, fun hr => ?_⟩
      · cases (withDraw_short he hr _ _).symm.trans hdraw
        exact completed_finish _ _ _ s
      · obtain ⟨cs, hcs, hblob⟩ := encryptBlob_spec (cfg := s.cfg) r (hwhole (Nat.not_lt.1 hlong))
        exact ⟨cs, hcs, hblob ▸ completed_of_full_draw ht hk (Nat.not_lt.1 hfit) he hr⟩
  · exact completed_of_encryptDraw_error ht (encryptDraw_of_unsupported (Nat.not_lt.1 hlong) hk)

/-- Settles O25: the output is the blob, whose laws are those of its length and of its IV. -/
theorem encryptOutputLaws : Obligations.EncryptOutputLaws := by
  intro s r hc hw len b n hk hfit he hr
  obtain ⟨t, ht⟩ := exec_next .encrypt s
  have hcomp := completed_of_full_draw ht hk hfit he hr
  have hout : (encryptBlob s.cfg s.snap r).length = blobLength s.cfg len := length_encryptBlob hc hw hr
  have hdst : t.dstLen.toNat = blobLength s.cfg len :=
    (hcomp.toNat_dstLen (length_encryptBlob_le_4096 hc hw hr hfit)).trans hout
  have htwo : 2 * b ≤ blobLength s.cfg len := two_blocks_le_blobLength hc len
  have hmod : blobLength s.cfg len % b = 0 := blobLength_mod hc len
  obtain ⟨cs, hcs, hblob⟩ := encryptBlob_spec (cfg := s.cfg) r hw
  rw [← hdst] at htwo hmod
  refine ⟨t, _, ht, hcomp, hdst, hout.trans hdst.symm, hmod, htwo, ?_, ?_, cs, ?_, hcs⟩
  · rw [← Nat.mod_eq_sub_mod (by omega), hmod]
  · rw [hblob, List.take_left' hr]
  · rw [hblob, List.drop_left' hr]

/-- Settles O26: one equation on the result for each check, and the padding check is whether the decryption ends in a valid
padding. -/
theorem decryptRunsAsSpecified : Obligations.DecryptRunsAsSpecified := by
  intro s hc hwhole
  obtain ⟨t, ht⟩ := exec_next .decrypt s
  refine ⟨t, ht, ?_⟩
  intro len b key
  split_ifs with hlong hk hshort hm
  · exact completed_of_error rfl ht (decryptResult_of_long hlong)
  · exact completed_of_error rfl ht (decryptResult_of_short (Nat.not_lt.1 hlong) hk hshort)
  · exact completed_of_error rfl ht (decryptResult_of_ragged (Nat.not_lt.1 hlong) hk (Nat.not_lt.1 hshort) hm)
  · have hw : s.snap.input.length = len := hwhole (Nat.not_lt.1 hlong)
    have hiv : (s.snap.input.take b).length = b := by
      rw [List.length_take]
      omega
    have hrest : (s.snap.input.drop b).length = len - b := by rw [List.length_drop, hw]
    obtain ⟨ps, hps, hflat⟩ := cbcDecryption_spec (cfg := s.cfg) key (iv := s.snap.input.take b)
      (x := s.snap.input.drop b)
    have hstrip : decryptResult s.cfg s.snap = stripPadding ps.flatten :=
      hflat ▸ decryptResult_strip hw (Nat.not_lt.1 hlong) hk (Nat.not_lt.1 hshort) (not_not.1 hm)
    refine ⟨ps, hps, ?_, fun n hn => ?_, fun hno => ?_⟩
    · rw [← hflat, length_cbcDecryptBytes hc key hiv (hrest ▸ not_not.1 hm), hrest]
    · exact completed_of_ok rfl ht (hstrip.trans (stripPadding_ok hn))
    · exact completed_of_error rfl ht (hstrip.trans (stripPadding_error hno))
  · exact completed_of_error rfl ht (decryptResult_of_unsupported (Nat.not_lt.1 hlong) hk)

/-- Settles O27: the checks pass and the padding is removed (`decryptResult_of_padding`). -/
theorem decryptCompletesOnValidPadding : Obligations.DecryptCompletesOnValidPadding := by
  intro s p n _ hw len b hl hk h2 hm hn h255 hdec
  obtain ⟨t, ht⟩ := exec_next .decrypt s
  exact ⟨t, ht, completed_of_ok rfl ht (decryptResult_of_padding hl hk h2 hw hm hn h255 hdec)⟩

/-- Settles O29: DECRYPT reads the blob that ENCRYPT wrote, which it undoes (`decryptResult_of_blob`). -/
theorem decryptUndoesEncrypt : Obligations.DecryptUndoesEncrypt := by
  intro s u r hc hw hk hfit he hr
  obtain ⟨t, ht⟩ := exec_next .encrypt s
  have hcomp := completed_of_full_draw ht hk hfit he hr
  refine ⟨t, ht, hcomp.err, fun hcfg hkey hklen hlen hin => ?_⟩
  obtain ⟨huin, huw⟩ := hcomp.read_back (length_encryptBlob_le_4096 hc hw hr hfit) hlen hin
  have hsel : u.snap.selectedKey = s.snap.selectedKey := by
    rw [Snapshot.selectedKey, Snapshot.keyLength, hkey, hklen]
    rfl
  have huk : u.snap.keyLength ∈ s.cfg.keySizes := by rwa [Snapshot.keyLength, hklen]
  obtain ⟨v, hv⟩ := exec_next .decrypt u
  exact ⟨v, hv, completed_of_ok rfl hv (hcfg ▸ decryptResult_of_blob hc hw hr hfit huk hsel huw huin)⟩

end Sys2Proof.Machine
end

section
/-! SUPPORT. RANDHEX and the entropy port: what one cycle and a list of cycles make of a transaction, what a command
does to it, and what RANDHEX ends with (42_random.md R170 to R176). -/

namespace Sys2Proof.Machine

/-! ## One cycle of the port (R171) -/

section
variable (v : Bool) (x : Byte) (f : Bool) (n : Nat) (got : List Byte)

theorem Ent.cycle_outside {e : Ent} (h : ∀ n got, e ≠ .pending n got) : e.cycle v x f = e := by
  cases e with
  | none => rfl
  | pending n got => exact absurd rfl (h n got)
  | answered r => rfl

@[simp] theorem Ent.cycle_answered : Ent.cycle v x f (.answered got) = .answered got := rfl

@[simp] theorem Ent.cycle_fail : Ent.cycle v x true (.pending n got) = .answered got := rfl

@[simp] theorem Ent.cycle_invalid : Ent.cycle false x false (.pending n got) = .pending n got := rfl

variable {n got}

theorem Ent.cycle_append (h : got.length + 1 < n) :
    Ent.cycle true x false (.pending n got) = .pending n (got ++ [x]) := if_pos h

theorem Ent.cycle_last (h : n ≤ got.length + 1) :
    Ent.cycle true x false (.pending n got) = .answered (got ++ [x]) := if_neg (Nat.not_lt.2 h)

end

/-! ## A list of cycles (R171) -/

/-- The transaction after cycles without ENT_FAIL, each given by ENT_VALID and ENT_DATA. -/
def Ent.cycles (cs : List (Bool × Byte)) (e : Ent) : Ent :=
  cs.foldl (fun e c => Ent.cycle c.1 c.2 false e) e

/-- The bytes of the cycles with ENT_VALID, in order. -/
def validBytes (cs : List (Bool × Byte)) : List Byte := (cs.filter fun c => c.1).map fun c => c.2

@[simp] theorem Ent.cycles_nil (e : Ent) : e.cycles [] = e := rfl

@[simp] theorem Ent.cycles_cons (c : Bool × Byte) (cs : List (Bool × Byte)) (e : Ent) :
    e.cycles (c :: cs) = (e.cycle c.1 c.2 false).cycles cs := rfl

@[simp] theorem validBytes_nil : validBytes [] = [] := rfl

@[simp] theorem validBytes_cons_valid (x : Byte) (cs : List (Bool × Byte)) :
    validBytes ((true, x) :: cs) = x :: validBytes cs := rfl

@[simp] theorem validBytes_cons_invalid (x : Byte) (cs : List (Bool × Byte)) :
    validBytes ((false, x) :: cs) = validBytes cs := rfl

/-- A transaction that has ended keeps its answer. -/
@[simp] theorem Ent.cycles_answered (r : List Byte) (cs : List (Bool × Byte)) :
    (Ent.answered r).cycles cs = .answered r := by
  induction cs with
  | nil => rfl
  | cons c cs ih => exact ih

/-- A pending transaction collects the valid bytes behind those it has, and ends with the first `n` of them. -/
theorem Ent.cycles_pending {n : Nat} {got : List Byte} (h : got.length < n) (cs : List (Bool × Byte)) :
    (Ent.pending n got).cycles cs =
      if (got ++ validBytes cs).length < n then .pending n (got ++ validBytes cs)
      else .answered ((got ++ validBytes cs).take n) := by
  induction cs generalizing got with
  | nil => simp [h]
  | cons c cs ih =>
    obtain ⟨valid, x⟩ := c
    cases valid with
    | false => simpa using ih h
    | true =>
      by_cases hlast : got.length + 1 < n
      · have hgot : (got ++ [x]).length < n := by simpa using hlast
        simpa [cycle_append x hlast] using ih hgot
      · have hn : n = got.length + 1 := by omega
        subst hn
        rw [cycles_cons, cycle_last x le_rfl, cycles_answered, validBytes_cons_valid, if_neg (by simp)]
        simp [List.take_append]

/-! ## A command and the transaction (R35, R170, R172, R173) -/

/-- A command that needs a draw is that draw. -/
theorem exec_of_draw {i : Instr} {s : State} {n : Nat} {short : ErrCode}
    (hd : drawOf i s.cfg s.snap = some (n, short)) : exec i s = withDraw n short (drawResult i s.cfg s.snap) s := by
  rw [exec_eq, hd]

/-- A short answer leaves nothing of its bytes: the fatal completion clears `ent` and has no result string (R172). -/
theorem exec_of_short_draw {i : Instr} {s : State} {n : Nat} {short : ErrCode} {r : List Byte}
    (hd : drawOf i s.cfg s.snap = some (n, short)) (hr : r.length < n) :
    exec i { s with ent := .answered r } = .next (s.finish .locked short []) :=
  (exec_of_draw (s := { s with ent := .answered r }) hd).trans (withDraw_short rfl hr _ _)

/-- A command completes, or makes its request, or waits for the answer to it. -/
theorem exec_completes_requests_or_waits {i : Instr} {s t : State} (hdec : decode s.snap.cmd = .ok i)
    (h : exec i s = .next t) :
    (t.ent = .none ∧ t.done = true ∧ (s.ent.req = true → drawNeeded s.cfg s.snap = none)) ∨
    (s.ent = .none ∧ (i = .encrypt ∨ i = .randhex) ∧
      ∃ n, drawNeeded s.cfg s.snap = some n ∧ t.ent = .pending n []) ∨
    (s.ent.req = true ∧ drawNeeded s.cfg s.snap ≠ none ∧ t = s) := by
  rw [drawNeeded_eq hdec]
  rcases exec_cases h with ⟨out, rfl, ⟨hd, _⟩ | ⟨n, short, r, _, he, _⟩⟩ | ⟨code, rfl, _, hd⟩ |
    ⟨n, short, r, rfl, _, he, _⟩ | ⟨n, short, rfl, hd, he⟩ | ⟨n, short, m, got, rfl, hd, he⟩
  · exact .inl ⟨rfl, rfl, fun _ => by rw [hd]; rfl⟩
  · exact .inl ⟨rfl, rfl, fun hreq => by rw [he] at hreq; cases hreq⟩
  · exact .inl ⟨rfl, rfl, fun _ => by rw [hd]; rfl⟩
  · exact .inl ⟨rfl, rfl, fun hreq => by rw [he] at hreq; cases hreq⟩
  · obtain ⟨_, _, hi⟩ := drawOf_short_fatal hd
    exact .inr (.inl ⟨he, hi, n, by rw [hd]; rfl, rfl⟩)
  · exact .inr (.inr ⟨Ent.req_iff.2 ⟨m, got, he⟩, by simp [hd], rfl⟩)

/-! ## What RANDHEX ends with (R175, R176) -/

section
variable {s : State}

theorem exec_randhex_of_long (hlong : s.cfg.bufBytes < 2 * s.snap.length) :
    exec .randhex s = .next (s.finish .idle .lengthOutOfRange []) := by
  rw [exec_randhex_eq, if_pos hlong]

variable (hfit : 2 * s.snap.length ≤ s.cfg.bufBytes)
include hfit

theorem exec_randhex_of_zero (hzero : s.snap.length = 0) : exec .randhex s = .next (s.finish .idle .success []) := by
  rw [exec_randhex_eq, if_neg (Nat.not_lt.2 hfit), if_pos hzero]

variable (hpos : s.snap.length ≠ 0)
include hpos

/-- Where its check passes and it is asked for bytes, RANDHEX is its draw. -/
theorem exec_randhex_of_fits :
    exec .randhex s = withDraw s.snap.length .entropySourceFailure hexString s := by
  rw [exec_randhex_eq, if_neg (Nat.not_lt.2 hfit), if_neg hpos]

theorem exec_randhex_of_full_draw {r : List Byte} (he : s.ent = .answered r) (hr : r.length = s.snap.length) :
    exec .randhex s = .next (s.finish .idle .success (hexString r)) :=
  (exec_randhex_of_fits hfit hpos).trans (withDraw_full he hr.ge _ _)

end

/-- The digits of a character pair, high nibble first, are those of the byte drawn (R176). -/
theorem digits_of_hexString_pair {r : List Byte} {i : Nat} (h : i < r.length) :
    digitOf ((hexString r).getD (2 * i) 0).toNat * 16 + digitOf ((hexString r).getD (2 * i + 1) 0).toNat =
      (r.getD i 0).toNat := by
  obtain ⟨hhigh, hlow⟩ := hexString_pair r h
  have hbyte := (r.getD i 0).isLt
  rw [hhigh, hlow, digitOf_asciiHex (by omega), digitOf_asciiHex (by omega)]
  omega

/-! ## The statements -/

/-- Settles O31: the check, the empty case, and then the three states of the entropy transaction. -/
theorem randhexRunsAsSpecified : Obligations.RandhexRunsAsSpecified := by
  intro s
  obtain ⟨t, ht⟩ := exec_next .randhex s
  refine ⟨t, ht, ?_⟩
  intro n
  split_ifs with hlong hzero
  · cases ht.symm.trans (exec_randhex_of_long hlong)
    exact completed_finish _ _ _ s
  · cases ht.symm.trans (exec_randhex_of_zero (Nat.not_lt.1 hlong) hzero)
    exact completed_finish _ _ _ s
  · have hdraw := exec_randhex_of_fits (Nat.not_lt.1 hlong) hzero
    split
    next he =>
      cases ht.symm.trans (hdraw.trans (withDraw_none he _ _ _))
      rfl
    next he =>
      cases ht.symm.trans (hdraw.trans (withDraw_pending he _ _ _))
      rfl
    next r he =>
      refine ⟨fun hr => ?_, fun hr => ⟨hexString r, ?_, by rw [length_hexString, hr], fun i hi => ?_⟩⟩
      · cases ht.symm.trans (hdraw.trans (withDraw_short he hr _ _))
        exact completed_finish _ _ _ s
      · cases ht.symm.trans (exec_randhex_of_full_draw (Nat.not_lt.1 hlong) hzero he hr)
        exact completed_finish _ _ _ s
      · exact hexString_pair r (hr ▸ hi)

/-- Settles O32: the output is the hex string of the draw, whose laws are those of its characters. -/
theorem randhexOutputLaws : Obligations.RandhexOutputLaws := by
  intro s r hc n hpos hfit he hr
  have hcomp := completed_finish .idle .success (hexString r) s
  have hlen : (hexString r).length = 2 * n := by rw [length_hexString, hr]
  have hmax : (hexString r).length ≤ 4096 := hlen.trans_le (hfit.trans (bufBytes_bounds hc).2.1)
  exact ⟨_, _, exec_randhex_of_full_draw hfit hpos.ne' he hr, hcomp, (hcomp.toNat_dstLen hmax).trans hlen, hlen,
    fun _ => mem_hexString, fun i hi => digits_of_hexString_pair (hr ▸ hi)⟩

/-- Settles O33: both short draws end in the one fatal completion. -/
theorem shortDrawLocksAndIsDiscarded : Obligations.ShortDrawLocksAndIsDiscarded := by
  intro s i n r q hdec hn hr hq
  rw [drawNeeded_eq hdec, Option.map_eq_some_iff] at hn
  obtain ⟨⟨_, short⟩, hd, rfl⟩ := hn
  obtain ⟨_, hcode, _⟩ := drawOf_short_fatal hd
  exact ⟨_, exec_of_short_draw hd hr, exec_of_short_draw hd hq, hcode ▸ completed_finish _ _ _ s⟩

/-- Settles O34: a transaction that starts with no byte collects the valid ones (`Ent.cycles_pending`). -/
theorem entropyBytesAreCollectedInOrder : Obligations.EntropyBytesAreCollectedInOrder := by
  intro n cycles v x hn final got
  have hfinal : final = if got.length < n then .pending n got else .answered (got.take n) :=
    Ent.cycles_pending hn cycles
  refine ⟨hfinal, fun hgot => ?_⟩
  rw [hfinal, if_pos hgot, Ent.cycle_fail]

/-- Settles O36: a request is made where none is outstanding and the command needs bytes, and nothing else than waiting
follows it before its answer (`exec_completes_requests_or_waits`). -/
theorem entropyIsRequestedOnce : Obligations.EntropyIsRequestedOnce := by
  intro s t i hdec h
  rcases exec_completes_requests_or_waits hdec h with ⟨hent, hdone, hneed⟩ | ⟨hs, hi, m, hm, hent⟩ |
    ⟨hreq, hneed, rfl⟩
  · refine ⟨fun _ n got hp => ?_, fun n got hp => ⟨fun hsome => ?_, fun _ => hent⟩, fun _ _ => ⟨hent, hdone⟩,
      fun r => by simp [hent]⟩
    · cases hent.symm.trans hp
    · exact absurd (hneed (Ent.req_iff.2 ⟨n, got, hp⟩)) hsome
  · refine ⟨fun _ n got hp => ?_, fun n got hp => ?_, fun r hr => ?_, fun r => by simp [hent]⟩
    · cases hent.symm.trans hp
      exact ⟨hi, hm, rfl⟩
    · cases hs.symm.trans hp
    · cases hs.symm.trans hr
  · obtain ⟨n, got, he⟩ := Ent.req_iff.1 hreq
    refine ⟨fun hs => ?_, fun _ _ _ => ⟨fun _ => rfl, fun hnone => absurd hnone hneed⟩, fun r hr => ?_,
      fun r => by simp [he]⟩
    · cases he.symm.trans hs
    · cases he.symm.trans hr

/-- Settles O35: the turn writes `ent` alone, with the cycle of the port, case by case. -/
theorem entropyCycleTouchesOnlyTheTransaction : Obligations.EntropyCycleTouchesOnlyTheTransaction := by
  intro s valid fail x rest hturns
  refine ⟨s.ent.cycle valid x fail, step_of_turn hturns, Ent.cycle_outside valid x fail, fun n got he => ?_⟩
  rw [he]
  refine ⟨?_, ?_, ?_, ?_⟩
  · rintro rfl
    exact Ent.cycle_fail valid x n got
  · rintro rfl rfl
    exact Ent.cycle_invalid x n got
  · rintro rfl rfl
    exact Ent.cycle_append x
  · rintro rfl rfl
    exact Ent.cycle_last x

end Sys2Proof.Machine
end

section
/-! SUPPORT. Errors, the lock and the secrecy of the key (60_exceptions.md R193, R199, R200, R206; 10_state.md R47):
every step goes on, a safe run by induction over its steps, and the steps of two states that differ in the key only. -/

namespace Sys2Proof.Machine

/-! ## Every step goes on (R200) -/

/-- Settles O7: only the core's turn could stop, and it does not (`coreTurn_next`). -/
theorem everyStepHasANextState : Obligations.EveryStepHasANextState := by
  intro s
  rw [step_eq]
  cases s.mover with
  | core => exact coreTurn_next _
  | host => exact ⟨_, rfl⟩
  | entropy => exact ⟨_, rfl⟩
  | reset => exact ⟨_, rfl⟩
  | powerOn => exact ⟨_, rfl⟩

/-- Settles O55, by induction over the steps of the run. -/
theorem everyRunIsSafe : Obligations.EveryRunIsSafe := by
  intro s hi k
  induction k generalizing s with
  | zero => exact ⟨s, rfl, hi⟩
  | succ k ih =>
    obtain ⟨t, h⟩ := everyStepHasANextState s
    rw [run_succ h]
    exact ih t (everyStepKeepsTheInvariant s t hi h).1

/-! ## The codes of a completion (R193) -/

/-- A command that completes reports success, the code of a failed check, or the code of its short draw. -/
theorem err_of_completed {s t : State} {i : Instr} (h : exec i s = .next t) (ht : t.ent = .none) :
    t.err = .success ∨ t.err ∈ errorCodes i ∨ (i = .encrypt ∧ t.err = .insufficientEntropy) ∨
      (i = .randhex ∧ t.err = .entropySourceFailure) := by
  rcases exec_cases h with ⟨_, rfl, _⟩ | ⟨_, rfl, hc, _⟩ | ⟨_, _, _, rfl, hd, _⟩ | ⟨_, _, rfl, _⟩ |
    ⟨_, _, _, _, rfl, _, he⟩
  · exact .inl rfl
  · exact .inr (.inl hc)
  · obtain ⟨_, rfl, rfl | rfl⟩ := drawOf_short_fatal hd
    · exact .inr (.inr (.inl ⟨rfl, rfl⟩))
    · exact .inr (.inr (.inr ⟨rfl, rfl⟩))
  · cases ht
  · cases he.symm.trans ht

/-- Settles O37: each code of `err_of_completed` stands in the command's row. -/
theorem commandsReportOnlyTheirCodes : Obligations.CommandsReportOnlyTheirCodes := by
  intro s t i h ht
  rcases err_of_completed h ht with he | he | ⟨rfl, he⟩ | ⟨rfl, he⟩
  · rw [he]
    cases i <;> decide
  · generalize t.err = code at he ⊢
    revert code
    cases i <;> decide
  · rw [he]
    decide
  · rw [he]
    decide

/-! ## The lock (R199) -/

/-- Settles O40: a LOCKED core runs no command, and a write to it changes flags at most. -/
theorem onlyResetLeavesLocked : Obligations.OnlyResetLeavesLocked := by
  intro s t hl hr h
  have hne : s.fsm ≠ .idle := by simp [hl]
  cases step_effect h with
  | outside _ _ _ _ _ _ heq => exact heq ▸ ⟨hl, rfl, rfl, rfl, rfl, rfl, rfl, rfl, rfl, rfl⟩
  | write off v p _ _ heq =>
    obtain ⟨irqEn, done, wbusy, hw⟩ := State.writePlace_not_idle hne p v
    rw [heq, hw]
    exact ⟨hl, rfl, rfl, rfl, rfl, rfl, rfl, rfl, rfl, rfl⟩
  | ends _ _ _ hb => cases hl.symm.trans hb
  | request _ _ hb => cases hl.symm.trans hb
  | entropy _ _ _ _ heq => exact heq ▸ ⟨hl, rfl, rfl, rfl, rfl, rfl, rfl, rfl, rfl, rfl⟩
  | reset hm => rw [hm] at hr; cases hr
  | powerOn hm => rw [hm] at hr; cases hr

/-- An OBUF read while BUSY or LOCKED returns a free value drawn afresh (R241, I5). -/
theorem State.busRead_obuf_not_idle {s : State} (h : s.fsm ≠ .idle) {off : Offset} {a : Nat}
    (hp : decodeAccess s.cfg.bufBytes off 32 = some (.obuf a)) :
    s.busRead off 32 = { s with reply := some (.data (Config.freeWord s.draws)), draws := s.draws + 1 } := by
  rw [busRead_of_place hp, readPlace, if_neg h, readDraws, if_neg h]

/-- DST_LEN is 0 in LOCKED, which goes with a fatal code (R199). -/
theorem State.Inv.dstLen_of_locked {s : State} (hi : s.Inv) (h : s.fsm = .locked) : s.dstLen = 0 := by
  refine hi.failed fun he => ?_
  have hfatal := hi.locked.1 h
  rw [he] at hfatal
  cases hfatal

/-- Settles O58, register by register and for two reads of OBUF. -/
theorem readsWhileLocked : Obligations.ReadsWhileLocked := by
  intro s j hi hl hj off
  have hne : s.fsm ≠ .idle := by simp [hl]
  have hp : decodeAccess s.cfg.bufBytes off 32 = some (.obuf (4 * j)) :=
    decodeAccess_obuf (bufBytes_bounds hi.cfg).2.1 hj
  have hread := State.busRead_obuf_not_idle hne hp
  obtain ⟨w, hw, hbusy, _, hfatal, _⟩ := statusReadShowsTheFlags s
  refine ⟨⟨w, hw, ?_, hfatal.2 hl⟩, ?_, hread, ?_⟩
  · rw [← Bool.not_eq_true, hbusy, hl]
    decide
  · rw [State.busRead_of_place (decodeAccess_dstLen _), State.readPlace, hi.dstLen_of_locked hl]
    rfl
  · rw [hread, State.busRead_obuf_not_idle (by exact hne) (by exact hp)]

/-! ## The key is never given back (R47, R206) -/

namespace SameButKey

variable {s s' : State} (hk : SameButKey s s')
include hk

theorem mover : s'.mover = s.mover := by
  obtain ⟨_, _, rfl⟩ := hk
  rfl

theorem host : s'.host = s.host := by
  obtain ⟨_, _, rfl⟩ := hk
  rfl

theorem reply : s'.reply = s.reply := by
  obtain ⟨_, _, rfl⟩ := hk
  rfl

theorem turns : s'.turns = s.turns := by
  obtain ⟨_, _, rfl⟩ := hk
  rfl

theorem fsm : s'.fsm = s.fsm := by
  obtain ⟨_, _, rfl⟩ := hk
  rfl

theorem cmd : s'.snap.cmd = s.snap.cmd := by
  obtain ⟨_, _, rfl⟩ := hk
  rfl

theorem ent : s'.ent = s.ent := by
  obtain ⟨_, _, rfl⟩ := hk
  rfl

theorem withHost (host : List HostOp) : SameButKey { s with host := host } { s' with host := host } := by
  obtain ⟨keyb, key, rfl⟩ := hk
  exact ⟨keyb, key, rfl⟩

theorem withTurns (turns : List Turn) : SameButKey { s with turns := turns } { s' with turns := turns } := by
  obtain ⟨keyb, key, rfl⟩ := hk
  exact ⟨keyb, key, rfl⟩

/-! ### The host's turn -/

/-- No location reads as a byte of the key (R47). -/
theorem readPlace (p : Place) : s'.readPlace p = s.readPlace p := by
  obtain ⟨_, _, rfl⟩ := hk
  cases p <;> rfl

theorem readDraws (p : Place) : s'.readDraws p = s.readDraws p := by
  obtain ⟨_, _, rfl⟩ := hk
  cases p <;> rfl

theorem busRead (off : Offset) (size : Nat) : SameButKey (s.busRead off size) (s'.busRead off size) := by
  have hread := hk.readPlace
  have hdraws := hk.readDraws
  obtain ⟨keyb, key, rfl⟩ := hk
  cases hp : decodeAccess s.cfg.bufBytes off size with
  | none =>
    rw [State.busRead_of_none hp, State.busRead_of_none (by exact hp)]
    exact ⟨keyb, key, rfl⟩
  | some p =>
    rw [State.busRead_of_place hp, State.busRead_of_place (by exact hp), hread, hdraws]
    exact ⟨keyb, key, rfl⟩

theorem whenIdle {store : State → State} (hstore : SameButKey (store s) (store s')) :
    SameButKey (s.whenIdle store) (s'.whenIdle store) := by
  obtain ⟨keyb, key, rfl⟩ := hk
  by_cases hidle : s.fsm = .idle
  · rw [State.whenIdle_idle hidle, State.whenIdle_idle (by exact hidle)]
    exact hstore
  · rw [State.whenIdle_dropped hidle, State.whenIdle_dropped (by exact hidle)]
    exact ⟨keyb, key, rfl⟩

/-- A write to KEYk changes both key banks, and an acceptance takes each into its own snapshot. -/
theorem writePlace (p : Place) (v : Word) : SameButKey (s.writePlace p v) (s'.writePlace p v) := by
  have hwhen (store : State → State) := hk.whenIdle (store := store)
  obtain ⟨keyb, key, rfl⟩ := hk
  cases p
  case id | dstLen | obuf | ctrl | status => exact ⟨keyb, key, rfl⟩
  all_goals
    apply hwhen
    exact ⟨_, _, rfl⟩

theorem busWrite (off : Offset) (size : Nat) (v : Word) :
    SameButKey (s.busWrite off size v) (s'.busWrite off size v) := by
  have hwrite (p : Place) := hk.writePlace p v
  obtain ⟨keyb, key, rfl⟩ := hk
  cases hp : decodeAccess s.cfg.bufBytes off size with
  | none =>
    rw [State.busWrite_of_none hp, State.busWrite_of_none (by exact hp)]
    exact ⟨keyb, key, rfl⟩
  | some p =>
    rw [State.busWrite_of_place hp, State.busWrite_of_place (by exact hp)]
    obtain ⟨keyb', key', hw⟩ := hwrite p
    exact ⟨keyb', key', congrArg (State.answer .okay) hw⟩

theorem hostTurn : SameButKey s.hostTurn s'.hostTurn := by
  have hfault : s'.hostFaulted = s.hostFaulted := by rw [State.hostFaulted, hk.reply, State.hostFaulted]
  cases hf : s.hostFaulted with
  | true =>
    rw [State.hostTurn_faulted hf, State.hostTurn_faulted (hfault.trans hf)]
    exact hk
  | false =>
    have hf' := hfault.trans hf
    cases hh : s.host with
    | nil =>
      rw [State.hostTurn_nil hh, State.hostTurn_nil (hk.host.trans hh)]
      exact hk
    | cons op rest =>
      have hh' := hk.host.trans hh
      cases op with
      | read off size =>
        rw [State.hostTurn_read hf hh, State.hostTurn_read hf' hh']
        exact (hk.withHost rest).busRead off size
      | write off size v =>
        rw [State.hostTurn_write hf hh, State.hostTurn_write hf' hh']
        exact (hk.withHost rest).busWrite off size v
      | poll off mask value =>
        have hread := hk.busRead off 32
        rw [State.hostTurn_poll hf hh, State.hostTurn_poll hf' hh', hread.reply]
        split
        · exact hread
        · exact hread.withHost rest

/-! ### The core's turn -/

theorem finish (after : Fsm) (code : ErrCode) (out : List Byte) :
    SameButKey (s.finish after code out) (s'.finish after code out) := by
  obtain ⟨keyb, key, rfl⟩ := hk
  exact ⟨keyb, key, rfl⟩

theorem requestEntropy (n : Nat) : SameButKey (s.requestEntropy n) (s'.requestEntropy n) := by
  obtain ⟨keyb, key, rfl⟩ := hk
  exact ⟨keyb, key, rfl⟩

variable {t : State}

theorem conclude {result : Except ErrCode (List Byte)} (h : conclude result s = .next t) :
    ∃ t', Machine.conclude result s' = .next t' ∧ SameButKey t t' := by
  cases result with
  | ok out =>
    cases h
    exact ⟨_, rfl, hk.finish _ _ _⟩
  | error code =>
    cases h
    exact ⟨_, rfl, hk.finish _ _ _⟩

theorem withDraw {n : Nat} {short : ErrCode} {use : List Byte → List Byte} (h : withDraw n short use s = .next t) :
    ∃ t', Machine.withDraw n short use s' = .next t' ∧ SameButKey t t' := by
  cases he : s.ent with
  | none =>
    cases (withDraw_none he n short use).symm.trans h
    exact ⟨_, withDraw_none (hk.ent.trans he) n short use, hk.requestEntropy n⟩
  | pending m got =>
    cases (withDraw_pending he n short use).symm.trans h
    exact ⟨_, withDraw_pending (hk.ent.trans he) n short use, hk⟩
  | answered a =>
    by_cases ha : a.length < n
    · cases (withDraw_short he ha short use).symm.trans h
      exact ⟨_, withDraw_short (hk.ent.trans he) ha short use, hk.finish _ _ _⟩
    · cases (withDraw_full he (Nat.not_lt.1 ha) short use).symm.trans h
      exact ⟨_, withDraw_full (hk.ent.trans he) (Nat.not_lt.1 ha) short use, hk.finish _ _ _⟩

/-- No command's draw depends on the key. -/
theorem drawOf (i : Instr) : drawOf i s'.cfg s'.snap = drawOf i s.cfg s.snap := by
  obtain ⟨_, _, rfl⟩ := hk
  cases i <;> rfl

/-- Of the commands that end without a draw only DECRYPT reads the key. -/
theorem directResult {i : Instr} (h : i ≠ .decrypt) :
    directResult i s'.cfg s'.snap = directResult i s.cfg s.snap := by
  obtain ⟨_, _, rfl⟩ := hk
  cases i with
  | decrypt => exact absurd rfl h
  | _ => rfl

/-- Of the commands that draw only ENCRYPT reads the key. -/
theorem drawResult {i : Instr} (h : i ≠ .encrypt) : drawResult i s'.cfg s'.snap = drawResult i s.cfg s.snap := by
  obtain ⟨_, _, rfl⟩ := hk
  cases i with
  | encrypt => exact absurd rfl h
  | _ => rfl

/-- A command other than ENCRYPT and DECRYPT does not see the key. -/
theorem exec {i : Instr} (henc : i ≠ .encrypt) (hdec : i ≠ .decrypt) (h : exec i s = .next t) :
    ∃ t', Machine.exec i s' = .next t' ∧ SameButKey t t' := by
  rw [exec_eq] at h ⊢
  rw [hk.drawOf i, hk.directResult hdec, hk.drawResult henc]
  cases hd : Machine.drawOf i s.cfg s.snap with
  | none =>
    rw [hd] at h
    exact hk.conclude h
  | some draw =>
    rw [hd] at h
    exact hk.withDraw h

theorem coreTurn (hrun : s.fsm = .busy → decode s.snap.cmd ≠ .ok .encrypt ∧ decode s.snap.cmd ≠ .ok .decrypt)
    (h : coreTurn s = .next t) : ∃ t', Machine.coreTurn s' = .next t' ∧ SameButKey t t' := by
  rcases coreTurn_cases h with ⟨hb, rfl⟩ | ⟨hb, ⟨e, hd⟩, rfl⟩ | ⟨hb, i, hd, he⟩
  · exact ⟨s', coreTurn_not_busy (hk.fsm ▸ hb), hk⟩
  · exact ⟨_, coreTurn_illegal (hk.fsm.trans hb) (hk.cmd.symm ▸ hd), hk.finish _ _ _⟩
  · obtain ⟨henc, hdec⟩ := hrun hb
    rw [coreTurn_ok (hk.fsm.trans hb) (hk.cmd.symm ▸ hd)]
    exact hk.exec (fun hi => henc (hi ▸ hd)) (fun hi => hdec (hi ▸ hd)) he

/-! ### The other agents -/

theorem entropyTurn (v : Bool) (x : Byte) (f : Bool) : SameButKey (s.entropyTurn v x f) (s'.entropyTurn v x f) := by
  obtain ⟨keyb, key, rfl⟩ := hk
  exact ⟨keyb, key, rfl⟩

theorem resetCore : SameButKey s.resetCore s'.resetCore := by
  obtain ⟨_, _, rfl⟩ := hk
  exact ⟨_, _, rfl⟩

theorem powerOn : SameButKey s.powerOn s'.powerOn := by
  obtain ⟨_, _, rfl⟩ := hk
  exact ⟨_, _, rfl⟩

end SameButKey

/-- Settles O39, agent by agent: the two states have the same mover, whose turn keeps them the same but for the
key. -/
theorem keyIsNeverGivenBack : Obligations.KeyIsNeverGivenBack := by
  intro s s' t hk hrun h
  have hk' := hk.withTurns s.turns.tail
  rw [step_eq, hk.mover, hk.turns]
  rcases step_cases h with ⟨hm, rfl⟩ | ⟨hm, hcore⟩ | ⟨v, x, f, hm, rfl⟩ | ⟨hm, rfl⟩ | ⟨hm, rfl⟩
  · rw [hm]
    exact ⟨_, rfl, hk'.hostTurn⟩
  · rw [hm]
    exact hk'.coreTurn (hrun hm) hcore
  · rw [hm]
    exact ⟨_, rfl, hk'.entropyTurn v x f⟩
  · rw [hm]
    exact ⟨_, rfl, hk'.resetCore⟩
  · rw [hm]
    exact ⟨_, rfl, hk'.powerOn⟩

end Sys2Proof.Machine
end

section
/-! SUPPORT. Reset and hazards (70_reset_and_hazards.md): what reset and power-on leave (R231 to R233), the accesses
of the host while BUSY or LOCKED (R240, R241), and how the running command goes on (R244, R245, R247). -/

namespace Sys2Proof.Machine

/-! ## Reset and power-on (R231, R232, R233) -/

/-- A buffer that lists no byte reads as its draw. -/
theorem Buffer.byte_holding_nil (d a : Nat) : (Buffer.holding [] d).byte a = Config.freeByte d a :=
  Buffer.byte_holding_beyond (Nat.zero_le a)

/-- STATUS reads 0 after a reset: no flag of it is set, and ERR is 0 (R231). -/
theorem State.statusWord_resetCore (s : State) : s.resetCore.statusWord = 0#32 :=
  calc s.resetCore.statusWord
    _ = State.reset.statusWord := rfl
    _ = 0#32 := rfl

/-- Settles O47: the step is `resetCore`. -/
theorem resetTakesTheResetValues : Obligations.ResetTakesTheResetValues := fun s _ hturns =>
  ⟨_, step_of_turn hturns, rfl, rfl, State.statusWord_resetCore _, rfl, rfl, rfl, rfl, rfl,
    fun _ hi => Vector.getElem_replicate hi, rfl, rfl, rfl, rfl, rfl, rfl, rfl, Buffer.byte_holding_nil s.draws⟩

/-- Settles O49: the step is `powerOn`, whose IBUF takes the draw after that of OBUF. -/
theorem powerOnLeavesBuffersUnspecified : Obligations.PowerOnLeavesBuffersUnspecified := fun s rest hturns =>
  ⟨_, s.draws + 1, step_of_turn hturns, Nat.le_succ _, Nat.succ_ne_self _, Buffer.byte_holding_nil s.draws,
    Buffer.byte_holding_nil (s.draws + 1), step_of_turn (s := { s with turns := .reset :: rest }) rfl⟩

/-- Settles O48: what each register reads as in any state (`registerReadsReturnTheirValues`), at reset. -/
theorem registersReadTheirResetValues : Obligations.RegistersReadTheirResetValues := by
  obtain ⟨hid, hctrl, hcmd, hblksz, hsrc, hdst, hklen, hkey⟩ := registerReadsReturnTheirValues State.reset
  rw [Obligations.RegistersReadTheirResetValues, hid, hctrl, hcmd, State.busRead_status, hblksz, hsrc, hdst, hklen]
  exact ⟨rfl, rfl, rfl, rfl, rfl, rfl, rfl, rfl, fun k hk => by rw [hkey k hk], rfl⟩

/-- Settles O53: the default parameters are legal, and both buffers list no byte and have draws of their own. -/
theorem invariantHoldsAtReset : Obligations.InvariantHoldsAtReset where
  cfg := by decide
  ibuf := by decide
  obuf := by decide
  dstLen := Nat.zero_le _
  failed := absurd rfl
  busy := fun h => by cases h
  locked := by decide
  ent := trivial
  fresh := by decide

/-! ## Accesses while BUSY or LOCKED (R240, R241) -/

/-- Settles O9: each offset leads to a location, and the write to that location is dropped, stored in every state, or
ignored. -/
theorem writesWhileBusyAreDropped : Obligations.WritesWhileBusyAreDropped := by
  intro s off v hc halign
  have hb : s.cfg.bufBytes ≤ 4096 := (bufBytes_bounds hc).2.1
  have hwrite {p : Place} (hat : p.at s.cfg.bufBytes off.toNat) :
      s.busWrite off 32 v = (s.writePlace p v).answer .okay :=
    State.busWrite_of_place (decodeAccess_of_at hb halign hat)
  refine ⟨fun hne hoff => ?_, hwrite (p := .ctrl), hwrite (p := .status), ?_⟩
  · obtain ⟨p, hp, hdropped⟩ := exists_place_of_dropped hb hoff
    rw [State.busWrite_of_place hp, State.writePlace_dropped hne hdropped]
    rfl
  · rintro (hoff | hoff | ⟨hlow, hhigh⟩)
    · exact hwrite (p := .id) hoff
    · exact hwrite (p := .dstLen) hoff
    · exact hwrite (p := .obuf _) ⟨hlow, hhigh, rfl⟩

/-- Settles O17: the registers read as in every state, with DST_LEN held at 0 by the invariant; IBUF by its word, and
OBUF by a free value. -/
theorem readsWhileBusy : Obligations.ReadsWhileBusy := by
  intro s j k hi hbusy hj hk
  have hb : s.cfg.bufBytes ≤ 4096 := (bufBytes_bounds hi.cfg).2.1
  obtain ⟨_, _, hdst0, _⟩ := hi.busy hbusy
  obtain ⟨w, hw, hbit, _⟩ := statusReadShowsTheFlags s
  obtain ⟨hid, hctrl, hcmd, hblksz, hsrc, hdst, hklen, hkey⟩ := registerReadsReturnTheirValues s
  have hobuf := State.busRead_obuf_not_idle (by simp [hbusy]) (decodeAccess_obuf hb hj)
  have hibuf := State.busRead_of_place (decodeAccess_ibuf hb hj)
  rw [hdst, hibuf, hid, hctrl, hblksz, hsrc, hklen, hcmd, hkey k hk]
  exact ⟨⟨w, hw, hbit.2 hbusy⟩, by rw [hdst0]; rfl, hobuf, rfl, rfl, rfl, rfl, rfl, rfl, rfl, rfl,
    fun off size => ⟨_, _, State.busRead_eq off size s⟩⟩

/-! ## How the running command goes on (R244, R245, R247) -/

/-- Only ENCRYPT and RANDHEX, and so a decoded command, need a draw (R35). -/
theorem exists_drawOf_of_drawNeeded {cfg : Config.Params} {snap : Snapshot} {n : Nat}
    (h : drawNeeded cfg snap = some n) :
    ∃ i short, decode snap.cmd = .ok i ∧ drawOf i cfg snap = some (n, short) := by
  cases hdec : decode snap.cmd with
  | error e => rw [drawNeeded, hdec] at h; cases h
  | ok i =>
    rw [drawNeeded_eq hdec, Option.map_eq_some_iff] at h
    obtain ⟨⟨_, short⟩, hd, rfl⟩ := h
    exact ⟨i, short, rfl, hd⟩

/-- A command that ends with its result does not lock the core (R196, R197). -/
theorem exists_finish_of_conclude {result : Except ErrCode (List Byte)} {s t : State}
    (h : conclude result s = .next t) : ∃ code out, t = s.finish .idle code out := by
  cases result with
  | ok out => cases h; exact ⟨_, _, rfl⟩
  | error code => cases h; exact ⟨_, _, rfl⟩

section
variable {s t : State} (hb : s.fsm = .busy)
include hb

/-- The core's turn ends a command that needs no draw, without locking the core (R245). -/
theorem coreTurn_of_no_draw (hn : drawNeeded s.cfg s.snap = none) (h : coreTurn s = .next t) :
    ∃ code out, t = s.finish .idle code out := by
  rcases coreTurn_cases h with ⟨hne, _⟩ | ⟨_, _, ht⟩ | ⟨_, i, hdec, he⟩
  · exact absurd hb hne
  · exact ⟨_, _, ht⟩
  · rw [drawNeeded_eq hdec, Option.map_eq_none_iff] at hn
    rw [exec_eq, hn] at he
    exact exists_finish_of_conclude he

/-- The core's turn ends a command that has its answer (R245). -/
theorem coreTurn_of_answer {r : List Byte} (hans : s.ent = .answered r) (h : coreTurn s = .next t) :
    ∃ after code out, after ≠ .busy ∧ t = s.finish after code out := by
  rcases coreTurn_cases h with ⟨hne, _⟩ | ⟨_, _, ht⟩ | ⟨_, i, _, he⟩
  · exact absurd hb hne
  · exact ⟨_, _, _, by decide, ht⟩
  · rcases exec_cases he with ⟨_, ht, _⟩ | ⟨_, ht, _⟩ | ⟨_, _, _, ht, _⟩ | ⟨_, _, _, _, hnone⟩ |
      ⟨_, _, _, _, _, _, hpending⟩
    · exact ⟨_, _, _, by decide, ht⟩
    · exact ⟨_, _, _, by decide, ht⟩
    · exact ⟨_, _, _, by decide, ht⟩
    · cases hans.symm.trans hnone
    · cases hans.symm.trans hpending

/-- The core's turn makes the request of a command that needs a draw and has not asked (R35, R171). -/
theorem coreTurn_of_request {n : Nat} (hn : drawNeeded s.cfg s.snap = some n) (hnone : s.ent = .none) :
    coreTurn s = .next (s.requestEntropy n) := by
  obtain ⟨i, short, hdec, hd⟩ := exists_drawOf_of_drawNeeded hn
  rw [coreTurn_ok hb hdec, exec_of_draw hd, withDraw_none hnone]

end

/-- Settles O50: the step is the core's turn, on the state with the turn taken off the list. -/
theorem enabledCommandCompletes : Obligations.EnabledCommandCompletes := by
  intro s hi hb hm
  let u : State := { s with turns := s.turns.tail }
  obtain ⟨t, ht⟩ := coreTurn_next u
  refine ⟨t, by rw [step_eq, hm]; exact ht, fun hn => ?_, fun r hans => ?_, fun n hn hnone => ?_⟩
  · obtain ⟨code, out, rfl⟩ := coreTurn_of_no_draw (s := u) hb hn ht
    exact ⟨rfl, rfl, rfl⟩
  · obtain ⟨after, code, out, hafter, rfl⟩ := coreTurn_of_answer (s := u) hb hans ht
    exact ⟨hafter, rfl, rfl⟩
  · cases ht.symm.trans (coreTurn_of_request (s := u) hb hn hnone)
    exact ⟨rfl, drawNeeded_bounds hi.cfg hn⟩

/-- A step uses up the turn it takes. -/
theorem turns_of_step {s t : State} (h : step s = .next t) : t.turns = s.turns.tail := by
  cases step_effect h with
  | outside _ _ _ _ _ _ heq => rw [heq]
  | write _ _ _ _ _ heq => rw [heq]
  | ends _ _ _ _ _ heq => rw [heq]; rfl
  | request _ _ _ _ _ heq => rw [heq]; rfl
  | entropy _ _ _ _ heq => rw [heq]; rfl
  | reset _ heq => rw [heq]; rfl
  | powerOn _ heq => rw [heq]; rfl

/-- Where only turns of the host and the core are arranged, one of the two moves (R24). -/
theorem mover_host_or_core {s : State} (h : ∀ t ∈ s.turns, t = .host ∨ t = .core) :
    s.mover = .host ∨ s.mover = .core := by
  unfold State.mover
  split
  · unfold State.defaultTurn
    split
    · exact .inr rfl
    · exact .inl rfl
  · next hturns => exact h _ (by simp [hturns])

/-- Neither the host nor the core ends a pending transaction (R171, R247). -/
theorem ent_pending_of_step {s t : State} {n : Nat} {got : List Byte} (hi : s.Inv) (he : s.ent = .pending n got)
    (hm : s.mover = .host ∨ s.mover = .core) (h : step s = .next t) : t.ent = .pending n got := by
  cases step_effect h with
  | outside _ _ _ _ _ _ heq => rw [heq]; exact he
  | write _ v p _ _ heq => rw [heq]; exact (State.writePlace_ent p v s).trans he
  | ends _ _ _ _ hend =>
    have hanswered : s.ent.req = false := hend.answered (hi.outside _ _ _ le_rfl)
    rw [he] at hanswered
    cases hanswered
  | request _ _ _ _ hnone => cases he.symm.trans hnone
  | entropy _ _ _ hm' => simp [hm'] at hm
  | reset hm' => simp [hm'] at hm
  | powerOn hm' => simp [hm'] at hm

/-- Settles O51, by induction over the steps: each one keeps the invariant, which holds a pending transaction to a
BUSY core with DONE = 0. -/
theorem unansweredRequestStaysBusy : Obligations.UnansweredRequestStaysBusy := by
  intro k
  induction k with
  | zero =>
    intro s n got hi he _
    have hb : s.fsm = .busy := by
      by_contra hb
      cases he.symm.trans (hi.ent_none hb)
    exact ⟨s, rfl, hb, he, (hi.busy hb).1⟩
  | succ k ih =>
    intro s n got hi he hturns
    obtain ⟨t, h⟩ := everyStepHasANextState s
    rw [run_succ h]
    refine ih t n got (everyStepKeepsTheInvariant s t hi h).1
      (ent_pending_of_step hi he (mover_host_or_core hturns) h) fun u hu => hturns u ?_
    rw [turns_of_step h] at hu
    exact List.mem_of_mem_tail hu

/-- Settles O52: a completion sets DONE, an acceptance clears it, and any other step but a reset or the STATUS write
keeps `fsm` and DONE (`step_cause`). -/
theorem busyOrDoneAfterAcceptance : Obligations.BusyOrDoneAfterAcceptance := by
  intro s t hi h hbusy hreset hstatus
  rcases step_cause h with hc | ha | hr | ⟨hfsm, _, hdone, _⟩
  · obtain ⟨_, hdone, _⟩ := flags_of_completes h hc
    obtain ⟨_, _, hne⟩ := hc
    exact .inr ⟨hne, hdone⟩
  · obtain ⟨w, _, rfl⟩ := step_of_accepts h ha
    exact .inl ⟨rfl, rfl⟩
  · cases hreset.symm.trans hr
  · have hkept : t.done = s.done := hdone.resolve_right fun ⟨_, v, hs, hbit⟩ => by
      cases (hstatus v hs).symm.trans hbit
    rw [hfsm, hkept]
    by_cases hb : s.fsm = .busy
    · exact .inl ⟨hb, (hi.busy hb).1⟩
    · exact .inr ⟨hb, hbusy.resolve_left hb⟩

end Sys2Proof.Machine
end
